-- ==== Sys2Proof/Word.lean ====
section
/-! DEFINITION. The word types of the block and the division that rounds up (spec/00_scope.md R7, R8, R9). -/

namespace Sys2Proof

/-- A byte of a buffer, a GF(256) symbol, an 8-bit field (R7). -/
abbrev Byte := BitVec 8

/-- A 32-bit register or bus word (R23, R61). -/
abbrev Word := BitVec 32

/-- A 64-bit millisecond time (R7, R30). -/
abbrev DWord := BitVec 64

/-- R9: `ceil(a / b)` for `b > 0`. -/
def ceilDiv (a b : Nat) : Nat := (a + b - 1) / b

end Sys2Proof
end

