-- ==== Sys2Proof/Syntax.lean ====
section
/-! DEFINITION. The command set: one constructor per row of spec/opcode_table.json (spec/30_encoding.md R80 to R83).
A constructor carries exactly the fields its row of R82 does not mark "—"; the types are the fields' widths. -/

namespace Sys2Proof

/-- One command (R82). `len` is LEN, `lvl` and `fec` are FEC levels, `comp` a compression type, `prio` a priority,
`result` a send result; each holds the raw field of the command word (R81), legal or not (R83). -/
inductive Instr where
  /-- 0x10, R110. -/
  | compress (len : Byte)
  /-- 0x11, R120. -/
  | decompress (len : Byte)
  /-- 0x20, R150. -/
  | rsEncode (lvl : BitVec 4) (len : Byte)
  /-- 0x21, R155. -/
  | rsDecode (lvl : BitVec 4) (len : Byte)
  /-- 0x30, R174. -/
  | frameCreate (comp fec : BitVec 4) (len : Byte)
  /-- 0x31, R176. -/
  | frameParse (len : Byte)
  /-- 0x32, R180. -/
  | relaySerialize (len : Byte)
  /-- 0x33, R181. -/
  | relayDeserialize (len : Byte)
  /-- 0x40, R210. -/
  | qEnqueue (prio : BitVec 4) (len : Byte)
  /-- 0x41, R212. -/
  | qDequeue
  /-- 0x42, R213. -/
  | qPeek
  /-- 0x43, R214. -/
  | qPurge
  /-- 0x44, R215. -/
  | qResult (result : BitVec 4)
  /-- 0x50, R242. -/
  | dcEstimate (len : Byte)
  /-- 0x51, R243. -/
  | dcPoll
  /-- 0x52, R244. -/
  | dcCanTx
  /-- 0x53, R245. -/
  | dcConsume
  /-- 0x60, R271. -/
  | pwTick
deriving DecidableEq, Repr

end Sys2Proof
end

