-- ==== Sys2Proof/Decode.lean ====
section
/-! DEFINITION. The decoder, total on every 32-bit word (spec/30_encoding.md R80 to R85), and after it the encoder
(R80, R87) and the host's `decodeTableWord`. -/

namespace Sys2Proof

/-- Why a word is no command (R84). Both reasons complete as IllegalCommand. -/
inductive IllegalWord where
  /-- R84 step 1: `w[31:24] ≠ 0`. -/
  | reservedBits
  /-- R84 step 2: `w[7:0]` is an unassigned opcode (R85). -/
  | unassignedOpcode
deriving DecidableEq, Repr

/-- OPC, bits 7:0 (R80). -/
def opcField (w : Word) : Byte := w.extractLsb' 0 8

/-- FA, bits 11:8 (R80). -/
def faField (w : Word) : BitVec 4 := w.extractLsb' 8 4

/-- FB, bits 15:12 (R80). -/
def fbField (w : Word) : BitVec 4 := w.extractLsb' 12 4

/-- LEN, bits 23:16 (R80). -/
def lenField (w : Word) : Byte := w.extractLsb' 16 8

/-- RSV, bits 31:24 (R80). -/
def rsvField (w : Word) : Byte := w.extractLsb' 24 8

/-- The opcode map of R82, on a word whose reserved bits are 0. -/
def decodeOpcode (w : Word) : Except IllegalWord Instr :=
  match (opcField w).toNat with
  | 0x10 => .ok (.compress (lenField w))
  | 0x11 => .ok (.decompress (lenField w))
  | 0x20 => .ok (.rsEncode (faField w) (lenField w))
  | 0x21 => .ok (.rsDecode (faField w) (lenField w))
  | 0x30 => .ok (.frameCreate (faField w) (fbField w) (lenField w))
  | 0x31 => .ok (.frameParse (lenField w))
  | 0x32 => .ok (.relaySerialize (lenField w))
  | 0x33 => .ok (.relayDeserialize (lenField w))
  | 0x40 => .ok (.qEnqueue (faField w) (lenField w))
  | 0x41 => .ok .qDequeue
  | 0x42 => .ok .qPeek
  | 0x43 => .ok .qPurge
  | 0x44 => .ok (.qResult (faField w))
  | 0x50 => .ok (.dcEstimate (lenField w))
  | 0x51 => .ok .dcPoll
  | 0x52 => .ok .dcCanTx
  | 0x53 => .ok .dcConsume
  | 0x60 => .ok .pwTick
  | _ => .error .unassignedOpcode

/-- R84: the reserved bits first, then the opcode. -/
def decode (w : Word) : Except IllegalWord Instr :=
  if rsvField w = 0 then decodeOpcode w else .error .reservedBits

/-- R80's bit pattern, with the reserved bits 0: `{0x00, len, fb, fa, opc}` (R87). -/
def packWord (opc : Byte) (fa fb : BitVec 4) (len : Byte) : Word :=
  (0 : Byte) ++ len ++ fb ++ fa ++ opc

/-- The word of a command; a field its row ignores is 0 (R87: "An omitted key encodes as 0"). -/
def encode : Instr → Word
  | .compress len => packWord 0x10 0 0 len
  | .decompress len => packWord 0x11 0 0 len
  | .rsEncode lvl len => packWord 0x20 lvl 0 len
  | .rsDecode lvl len => packWord 0x21 lvl 0 len
  | .frameCreate comp fec len => packWord 0x30 comp fec len
  | .frameParse len => packWord 0x31 0 0 len
  | .relaySerialize len => packWord 0x32 0 0 len
  | .relayDeserialize len => packWord 0x33 0 0 len
  | .qEnqueue prio len => packWord 0x40 prio 0 len
  | .qDequeue => packWord 0x41 0 0 0
  | .qPeek => packWord 0x42 0 0 0
  | .qPurge => packWord 0x43 0 0 0
  | .qResult result => packWord 0x44 result 0 0
  | .dcEstimate len => packWord 0x50 0 0 len
  | .dcPoll => packWord 0x51 0 0 0
  | .dcCanTx => packWord 0x52 0 0 0
  | .dcConsume => packWord 0x53 0 0 0
  | .pwTick => packWord 0x60 0 0 0

/-- The bits of the command word that its row gives a meaning: OPC and RSV always, and the fields R82 does not mark
"—". -/
def significantBits : Instr → Word
  | .compress _ | .decompress _ | .frameParse _ | .relaySerialize _ | .relayDeserialize _ | .dcEstimate _ => 0xFFFF00FF
  | .rsEncode _ _ | .rsDecode _ _ | .qEnqueue _ _ => 0xFFFF0FFF
  | .frameCreate _ _ _ => 0xFFFFFFFF
  | .qResult _ => 0xFF000FFF
  | .qDequeue | .qPeek | .qPurge | .dcPoll | .dcCanTx | .dcConsume | .pwTick => 0xFF0000FF

/-- The command word of the low `nbits` bits of `w`, every bit above them 0. -/
def tableWord (nbits w : Nat) : Word := BitVec.ofNat 32 (w % 2 ^ nbits)

/-- What the decoder reads from the instruction whose low `nbits` bits are `w`. A command is one 32-bit word (R80). -/
def decodeTableWord (nbits w : Nat) : Option Instr := (decode (tableWord nbits w)).toOption

end Sys2Proof
end

