-- ==== Sys2Proof/Config.lean ====
section
/-! DEFINITION. What an implementation fixes: the build-time parameters that spec/00_scope.md R6 leaves OPEN (a record,
which the model takes as an argument, log 1), the quantities R6 fixes, and the free values of the buffers' power-on
contents. -/

namespace Sys2Proof

/-- One dictionary entry: a byte string and its one-byte code (spec/41_compressor.md R100). -/
structure DictEntry where
  word : List Byte
  code : Byte
deriving DecidableEq, Repr

/-- DICT, an ordered list of entries (R100). -/
abbrev Dict := List DictEntry

/-- The build-time parameters (R6) that the spec leaves OPEN or gives as configuration; 93's treatment of each is
"the model takes the value as an argument". The 32-bit widths are those of the registers that show the value
(R33, R34; log 9). -/
structure Params where
  /-- BLOCK_BASE (R60). -/
  blockBase : Nat
  /-- DICT (R100). -/
  dict : Dict
  /-- CODEC_DICT_EN (R173). -/
  codecDictEn : Bool
  /-- CODEC_FEC_EN (R173). -/
  codecFecEn : Bool
  /-- DC_WINDOW_MS (R240). -/
  dcWindowMs : Word
  /-- DC_LIMIT_MS (R243). -/
  dcLimitMs : Word
  /-- LORA_SF (R241). -/
  loraSf : Nat
  /-- LORA_BW_HZ (R241). -/
  loraBwHz : Nat
  /-- LORA_CR (R241). -/
  loraCr : Nat
  /-- LORA_NPREAMBLE (R241). -/
  loraNPreamble : Nat
  /-- LORA_CRC (R241). -/
  loraCrc : Bool
  /-- LORA_IH (R241). -/
  loraIh : Bool
  /-- PW_INTERVAL_MS (R270). -/
  pwIntervalMs : Word
  /-- PW_DURATION_MS (R270). -/
  pwDurationMs : Word
  /-- PW_MARGIN_MS (R270). -/
  pwMarginMs : Word
  /-- PW_FIRST_PASS_MS (R270). -/
  pwFirstPassMs : DWord
deriving DecidableEq, Repr

/-- EX_DICT of R100: SOS, HELP, WATER, OK, OKAY, THE. DESIGN CHOICE as the reset state's DICT (log 2). -/
def Config.exDict : Dict :=
  [⟨[0x53, 0x4F, 0x53], 0x01⟩,
   ⟨[0x48, 0x45, 0x4C, 0x50], 0x02⟩,
   ⟨[0x57, 0x41, 0x54, 0x45, 0x52], 0x03⟩,
   ⟨[0x4F, 0x4B], 0x04⟩,
   ⟨[0x4F, 0x4B, 0x41, 0x59], 0x05⟩,
   ⟨[0x54, 0x48, 0x45], 0x06⟩]

/-- The defaults of R6, with EX_DICT as DICT (log 2) and BLOCK_BASE 0 (log 8). -/
def Config.defaultParams : Params where
  blockBase := 0
  dict := Config.exDict
  codecDictEn := true
  codecFecEn := true
  dcWindowMs := 3600000
  dcLimitMs := 36000
  loraSf := 7
  loraBwHz := 125000
  loraCr := 1
  loraNPreamble := 8
  loraCrc := true
  loraIh := false
  pwIntervalMs := 5400000
  pwDurationMs := 600000
  pwMarginMs := 60000
  pwFirstPassMs := 0

/-- Q_CAP (R6, R39). -/
abbrev Config.qCap : Nat := 64

/-- MAX_RETRY (R6, R215). -/
abbrev Config.maxRetry : Nat := 3

/-- RS_MAX_N, the GF(256) symbol-count ceiling (R6, R150). -/
abbrev Config.rsMaxN : Nat := 255

/-- PKT_CAP, the codec packet cap in bytes (R6, R174). -/
abbrev Config.pktCap : Nat := 237

/-- RELAY_HDR, the relay header's length (R6, R180). -/
abbrev Config.relayHdr : Nat := 14

/-- RELAY_PAYLOAD_CAP (R6, R180). -/
abbrev Config.relayPayloadCap : Nat := 114

/-- BUF_IN_SIZE (R6, R37). -/
abbrev Config.bufInSize : Nat := 256

/-- BUF_OUT_SIZE (R6, R38). -/
abbrev Config.bufOutSize : Nat := 2048

/-- The window offset of BUF_IN[0] (R23). -/
abbrev Config.bufInBase : Nat := 0x400

/-- The window offset of BUF_OUT[0] (R23). -/
abbrev Config.bufOutBase : Nat := 0x800

/-- The window's size in bytes (R60). -/
abbrev Config.windowSize : Nat := 0x1000

/-- FREE VALUE (I1, I2 of spec/93_implementation_defined.md: "any value, drawn once at power-on and kept until
written"; R37, R38, R330): `powerOnByte n off` is the byte that power-on number `n` leaves at window offset `off` of
BUF_IN or BUF_OUT. It has no body: nothing about it can be proved (log 3). -/
opaque Config.powerOnByte : Nat → Nat → Byte

end Sys2Proof
end

