-- ==== Sys2Proof/Machine/State.lean ====
section
/-! DEFINITION. The state of the block as plain data (spec/10_state.md R20 to R44), its faults and refusals, and its
state after power-on reset (spec/70_reset_and_hazards.md R330). -/

namespace Sys2Proof.Machine

/-- The bytes of BUF_IN and BUF_OUT that have been written since power-on, by window offset, offsets strictly rising.
An unlisted offset holds its power-on byte, a free value (log 3). -/
abbrev Memory := List Host.Cell

/-- A queue entry (R39). -/
structure QEntry where
  /-- Diagnostic id (R202). -/
  id : Word
  /-- Priority, 0 Emergency to 3 Low (R201). -/
  prio : BitVec 2
  /-- Enqueue time, ms. -/
  tEnq : DWord
  /-- TTL in seconds (R200). -/
  ttlS : Word
  /-- Retry count, 0 to 3. -/
  retry : BitVec 2
  /-- The serialised relay packet (R180). -/
  data : List Byte
deriving DecidableEq, Repr

/-- The pass-window state (R43, R270). -/
inductive PwState where
  | idle
  | active
deriving DecidableEq, Repr

/-- The width of a host access. Only `word` accesses exist on the bus (R61). -/
inductive AccessSize where
  | byte
  | half
  | word
deriving DecidableEq, Repr

/-- What can happen at the block's ports (R347): a bus read or write at a host address, or the `rst` input. -/
inductive PortEvent where
  | read (size : AccessSize) (addr : Nat)
  | write (size : AccessSize) (addr : Nat) (value : Word)
  | rst
deriving DecidableEq, Repr

/-- A port event the host has issued. `early` says that it takes effect before a pending command's execution step; the
spec leaves that order open (R68, R345), so it is the arrival's own data (log 4). -/
structure Arrival where
  early : Bool
  event : PortEvent
deriving DecidableEq, Repr

/-- The whole state of the block. -/
@[ext]
structure State where
  /-- The build-time parameters (R6), constants that nothing changes (R20; log 1). -/
  params : Params
  /-- CTRL.IE (R25). -/
  ie : Bool
  /-- STATUS.DONE (R26). -/
  done : Bool
  /-- STATUS.RES_VALID (R26). -/
  resValid : Bool
  /-- STATUS.OVR (R26). -/
  ovr : Bool
  /-- STATUS.ERR (R26, R300). -/
  err : BitVec 4
  /-- The last accepted command word, what CMD reads (R27). -/
  cmd : Word
  /-- The pending-command latch; STATUS.BUSY is 1 exactly when it is non-empty (R44). -/
  pending : Option Word
  /-- RESULT0 (R28). -/
  result0 : Word
  /-- RESULT1 (R28). -/
  result1 : Word
  /-- RESULT2 (R28). -/
  result2 : Word
  /-- RESULT3 (R28). -/
  result3 : Word
  /-- OUT_LEN (R29). -/
  outLen : BitVec 12
  /-- NOW, `{NOW_HI, NOW_LO}` (R30). -/
  now : DWord
  /-- ARG0 (R31). -/
  arg0 : Word
  /-- ARG1 (R31). -/
  arg1 : Word
  /-- ARG2 (R31). -/
  arg2 : Word
  /-- ARG3 (R31). -/
  arg3 : Word
  /-- The queue array, front first; STATUS.QCOUNT is its length (R39). -/
  queue : List QEntry
  /-- HOLD_VALID (R41). -/
  holdValid : Bool
  /-- The HOLD slot: the entry last held, valid or not (R32, R41). -/
  hold : QEntry
  /-- `used`, ms (R42). -/
  used : Word
  /-- `windowStart`, ms (R42). -/
  windowStart : DWord
  /-- `pwState` (R43). -/
  pwState : PwState
  /-- `nextPassTime`, ms (R43). -/
  nextPassTime : DWord
  /-- `lastPassTime`, ms (R43). -/
  lastPassTime : DWord
  /-- CNT_QFULL (R35). -/
  cntQfull : Word
  /-- CNT_DFAIL (R35). -/
  cntDfail : Word
  /-- CNT_EXPIRED (R35). -/
  cntExpired : Word
  /-- BUF_IN and BUF_OUT (R37, R38), by window offset. -/
  mem : Memory
  /-- MODEL's own: how many power-on resets have happened (log 3). -/
  boots : Nat
  /-- MODEL's own: port events issued by the host and not yet taken, oldest first (log 4). -/
  inbox : List Arrival
  /-- MODEL's own: the word the bus slave port last returned (log 5). -/
  rdata : Word
deriving DecidableEq, Repr

/-- Why the machine stops with a fault. -/
inductive Fault where
  /-- Raised by `step` in a state whose STATUS.ERR is one of the reserved codes 10 to 15 (I9: "never produced. A model
  that sees one has a fault of its own"). No run reaches it. Safe. -/
  | reservedErrorCode
deriving DecidableEq, Repr

/-- Why the machine refuses to go on. -/
inductive Refusal where
  /-- An instruction with no meaning yet, by its mnemonic; raised by no arm of `exec`. Safe. -/
  | notModelled (mnemonic : String)
  /-- A host access to the window narrower than 32 bits (R61: "a model refuses narrower accesses"; I12). Raised by the
  bus port. Safe. -/
  | narrowAccess
deriving DecidableEq, Repr

/-- HOLD after reset: the HOLD registers read 0 (R330). -/
def QEntry.reset : QEntry := ⟨0, 0, 0, 0, 0, []⟩

/-- R330 for given parameters: power-on number `boots`, with the host's events `inbox` still to come and `rdata` on the
read port. -/
def State.powerOn (p : Params) (boots : Nat) (inbox : List Arrival) (rdata : Word) : State where
  params := p
  ie := false
  done := false
  resValid := false
  ovr := false
  err := 0
  cmd := 0
  pending := none
  result0 := 0
  result1 := 0
  result2 := 0
  result3 := 0
  outLen := 0
  now := 0
  arg0 := 0
  arg1 := 0
  arg2 := 0
  arg3 := 0
  queue := []
  holdValid := false
  hold := QEntry.reset
  used := 0
  windowStart := 0
  pwState := .idle
  nextPassTime := p.pwFirstPassMs
  lastPassTime := 0
  cntQfull := 0
  cntDfail := 0
  cntExpired := 0
  mem := []
  boots := boots
  inbox := inbox
  rdata := rdata

/-- The block right after power-on reset (R330), with the default parameters of R6 (logs 1, 2, 8). -/
def State.reset : State := State.powerOn Config.defaultParams 0 [] 0

end Sys2Proof.Machine
end

