-- ==== Sys2Proof/Machine/Ops.lean ====
section
/-! DEFINITION. The named operations over the buffers and registers, the three ways a command ends
(spec/00_scope.md R12, spec/60_exceptions.md R301, R302), and the resets. -/

namespace Sys2Proof.Machine

/-! ### The buffers -/

/-- The byte written at an offset since power-on, if any. -/
def Memory.read (m : Memory) (a : Nat) : Option Byte := (m.find? fun c => c.1 == a).map Prod.snd

/-- The cells of a byte sequence laid down from an offset. -/
def cellsFrom : Nat → List Byte → Memory
  | _, [] => []
  | a, b :: bs => (a, b) :: cellsFrom (a + 1) bs

/-- Write a byte sequence from an offset; every other byte stands. -/
def Memory.writeBytes (m : Memory) (base : Nat) (bs : List Byte) : Memory :=
  m.filter (fun c => c.1 < base) ++ cellsFrom base bs ++ m.filter (fun c => base + bs.length ≤ c.1)

/-- A window offset that holds a buffer byte (R23). -/
def isBufferOffset (a : Nat) : Bool :=
  (Config.bufInBase ≤ a && a < Config.bufInBase + Config.bufInSize) ||
    (Config.bufOutBase ≤ a && a < Config.bufOutBase + Config.bufOutSize)

/-- The canonical form: offsets strictly rising, all of them buffer offsets. An unlisted offset has no written value,
so no entry can equal what an unlisted offset reads as. -/
def Memory.wf (m : Memory) : Bool :=
  decide (m.Pairwise fun c d => c.1 < d.1) && m.all fun c => isBufferOffset c.1

/-- The byte at a buffer's window offset: the byte last written, else its power-on byte, a free value (R37, R38, I1,
I2; log 3). -/
def State.readByte (s : State) (a : Nat) : Byte :=
  (Memory.read s.mem a).getD (Config.powerOnByte s.boots a)

/-- `n` consecutive bytes from a window offset. -/
def State.readBytes (s : State) (base n : Nat) : List Byte :=
  (List.range n).map fun k => s.readByte (base + k)

/-- `BUF_IN[0 : LEN]`, the input of a command (R81). -/
def State.input (len : Byte) (s : State) : List Byte := s.readBytes Config.bufInBase len.toNat

/-- `BUF_OUT[0 : |bs|] <- bs; OUT_LEN <- |bs|`; bytes at and beyond OUT_LEN keep their contents (R29). -/
def State.putOut (bs : List Byte) (s : State) : State :=
  { s with mem := Memory.writeBytes s.mem Config.bufOutBase bs, outLen := BitVec.ofNat 12 bs.length }

/-- A host write of four bytes of BUF_IN from a window offset (R62). -/
def State.putIn (base : Nat) (bs : List Byte) (s : State) : State :=
  { s with mem := Memory.writeBytes s.mem base bs }

/-! ### Result registers (R28) -/

def State.setResult0 (v : Word) (s : State) : State := { s with result0 := v }

def State.setResult1 (v : Word) (s : State) : State := { s with result1 := v }

/-- All four result registers at once. -/
def State.setResults (v0 v1 v2 v3 : Word) (s : State) : State :=
  { s with result0 := v0, result1 := v1, result2 := v2, result3 := v3 }

/-! ### Unit state -/

/-- `Q <- q` (R39). -/
def State.setQueue (q : List QEntry) (s : State) : State := { s with queue := q }

/-- `HOLD <- e; HOLD_VALID <- 1` (R41, R212). -/
def State.setHold (e : QEntry) (s : State) : State := { s with hold := e, holdValid := true }

/-- `HOLD_VALID <- 0`; the HOLD registers keep the entry last held (R32, R215). -/
def State.releaseHold (s : State) : State := { s with holdValid := false }

/-- The duty-cycle budget (R42). -/
def State.setBudget (used : Word) (windowStart : DWord) (s : State) : State :=
  { s with used := used, windowStart := windowStart }

/-- The pass-window state (R43). -/
def State.setPass (st : PwState) (next last : DWord) (s : State) : State :=
  { s with pwState := st, nextPassTime := next, lastPassTime := last }

/-- CNT_QFULL + 1 modulo 2^32 (R35). -/
def State.countQfull (s : State) : State := { s with cntQfull := s.cntQfull + 1 }

/-- CNT_DFAIL + 1 modulo 2^32 (R35). -/
def State.countDfail (s : State) : State := { s with cntDfail := s.cntDfail + 1 }

/-- CNT_EXPIRED + r modulo 2^32 (R35). -/
def State.countExpired (r : Nat) (s : State) : State := { s with cntExpired := s.cntExpired + BitVec.ofNat 32 r }

/-! ### Completion: the block's errors are its only exceptions (R12, R300 to R304) -/

/-- The error names of R300. JoinFailed and TransceiverFault are the host's and never raised by the block (I10). -/
inductive ErrCode where
  | none
  | invalidInput
  | unsupportedVersion
  | uncorrectable
  | translationError
  | queueFull
  | deliveryFailed
  | joinFailed
  | transceiverFault
  | illegalCommand
deriving DecidableEq, Repr

/-- The code in STATUS.ERR (R300). -/
def ErrCode.bits : ErrCode → BitVec 4
  | .none => 0
  | .invalidInput => 1
  | .unsupportedVersion => 2
  | .uncorrectable => 3
  | .translationError => 4
  | .queueFull => 5
  | .deliveryFailed => 6
  | .joinFailed => 7
  | .transceiverFault => 8
  | .illegalCommand => 9

/-- R301's commit of STATUS: ERR, RES_VALID, DONE <- 1, BUSY <- 0, pending <- empty. -/
def State.complete (code : ErrCode) (valid : Bool) (s : State) : State :=
  { s with err := code.bits, resValid := valid, done := true, pending := Option.none }

/-- `finish_ok` (R12). -/
def finishOk (s : State) : Host.Outcome State Fault Refusal := .next (s.complete .none true)

/-- `finish_none`: the "returns none" outcome of an empty queue (R12). -/
def finishNone (s : State) : Host.Outcome State Fault Refusal := .next (s.complete .none false)

/-- `raise`: TAKING AN ERROR, the block's only exception mechanism (R12, R302, R304). It saves no program state, masks
nothing and goes nowhere; the state given to it holds only the writes the path performed before it. -/
def raise (code : ErrCode) (s : State) : Host.Outcome State Fault Refusal := .next (s.complete code false)

/-! ### Acceptance, acknowledgement and the other writes of the host -/

/-- STATUS.BUSY (R26, R44). -/
def State.busy (s : State) : Bool := s.pending.isSome

/-- An accepted CMD write (R27): the word becomes the pending command, BUSY becomes 1, DONE becomes 0. -/
def State.acceptCommand (w : Word) (s : State) : State := { s with pending := some w, cmd := w, done := false }

/-- THE ACKNOWLEDGEMENT OF A COMPLETION (R26, R305), the block's counterpart of a return from an exception: a STATUS
write with bit 1 set clears DONE, with bit 3 set clears OVR, and every other bit is ignored. -/
def State.writeStatus (v : Word) (s : State) : State :=
  { s with done := s.done && !v.getLsbD 1, ovr := s.ovr && !v.getLsbD 3 }

/-- A dropped write sets OVR (R336). -/
def State.setOvr (s : State) : State := { s with ovr := true }

/-- CTRL.IE (R25). -/
def State.setIe (b : Bool) (s : State) : State := { s with ie := b }

/-- NOW (R30). -/
def State.setNow (v : DWord) (s : State) : State := { s with now := v }

def State.setArg0 (v : Word) (s : State) : State := { s with arg0 := v }

def State.setArg1 (v : Word) (s : State) : State := { s with arg1 := v }

def State.setArg2 (v : Word) (s : State) : State := { s with arg2 := v }

def State.setArg3 (v : Word) (s : State) : State := { s with arg3 := v }

/-- The bus slave port returns a word to the host (log 5). -/
def State.setRdata (v : Word) (s : State) : State := { s with rdata := v }

/-- The host's events still to come (log 4). -/
def State.setInbox (es : List Arrival) (s : State) : State := { s with inbox := es }

/-! ### Resets -/

/-- Soft reset (R331): every piece of state at its power-on value, except BUF_IN and BUF_OUT, which keep their
contents. A pending command is discarded and IE becomes 0. -/
def State.softReset (s : State) : State :=
  { State.powerOn s.params s.boots s.inbox s.rdata with mem := s.mem }

/-- The `rst` input (R330, R347): the power-on state, with fresh unspecified buffer contents. -/
def State.powerOnReset (s : State) : State := State.powerOn s.params (s.boots + 1) s.inbox s.rdata

end Sys2Proof.Machine
end

