-- ==== Sys2Proof/Machine/Flags.lean ====
section
/-! DEFINITION. The STATUS word and the other flag words the host reads, and the interrupt output
(spec/10_state.md R25, R26, R34, R36, R46; spec/60_exceptions.md R306). -/

namespace Sys2Proof.Machine

/-- PW_STATE[0] and STATUS.PW_ACTIVE (R26, R34). -/
def PwState.bit : PwState → Bool
  | .idle => false
  | .active => true

/-- PW_STATE, bits 31:1 0 (R34). -/
def PwState.toWord (st : PwState) : Word := BitVec.setWidth 32 (BitVec.ofBool st.bit)

/-- STATUS (R26), bit 31 on the left. -/
def State.statusWord (s : State) : Word :=
  (0 : BitVec 6) ++ BitVec.ofBool s.holdValid ++ BitVec.ofBool s.pwState.bit ++ (0 : BitVec 1) ++
    BitVec.ofNat 7 s.queue.length ++ (0 : BitVec 4) ++ s.err ++ (0 : BitVec 4) ++ BitVec.ofBool s.ovr ++
    BitVec.ofBool s.resValid ++ BitVec.ofBool s.done ++ BitVec.ofBool s.busy

/-- CTRL as read: IE in bit 0, SOFT_RESET and the reserved bits 0 (R25). -/
def State.ctrlWord (s : State) : Word := BitVec.setWidth 32 (BitVec.ofBool s.ie)

/-- CFG (R36): the dictionary's size [23:16], CODEC_FEC_EN 13, CODEC_DICT_EN 12, LORA_SF [11:8], Q_CAP [7:0]. -/
def Params.cfgWord (p : Params) : Word :=
  (0 : BitVec 8) ++ BitVec.ofNat 8 p.dict.length ++ (0 : BitVec 2) ++ BitVec.ofBool p.codecFecEn ++
    BitVec.ofBool p.codecDictEn ++ BitVec.ofNat 4 p.loraSf ++ BitVec.ofNat 8 Config.qCap

/-- `irq = CTRL.IE ∧ STATUS.DONE` (R306). -/
def State.irq (s : State) : Bool := s.ie && s.done

end Sys2Proof.Machine
end

