-- ==== Sys2Proof/Machine/Operands.lean ====
section
/-! DEFINITION. The operand forms: level codes, big-endian and little-endian byte layouts, the channel, the TTL table
and the metadata word (spec/00_scope.md R6, R10; 20 R62, R63; 30 R81, R83; 44 R200, R206). -/

namespace Sys2Proof.Machine

/-- NSYM of a FEC level: 1 low 16, 2 medium 32, 3 high 64, no other (R6, R83). -/
def nsymOf (lvl : BitVec 4) : Option Nat :=
  match lvl.toNat with
  | 1 => some 16
  | 2 => some 32
  | 3 => some 64
  | _ => none

/-- `be32(v)` (R10). -/
def be32 (v : Word) : List Byte :=
  [v.extractLsb' 24 8, v.extractLsb' 16 8, v.extractLsb' 8 8, v.extractLsb' 0 8]

/-- The word of four big-endian bytes, `{a, b, c, d}` (R8, R181). -/
def ofBe32 (a b c d : Byte) : Word := a ++ b ++ c ++ d

/-- The four bytes of a bus word, the byte of the lowest offset first (R62). -/
def leBytes (v : Word) : List Byte :=
  [v.extractLsb' 0 8, v.extractLsb' 8 8, v.extractLsb' 16 8, v.extractLsb' 24 8]

/-- The bus word of four buffer bytes from a window offset (R62). -/
def State.readWordLe (s : State) (a : Nat) : Word :=
  s.readByte (a + 3) ++ s.readByte (a + 2) ++ s.readByte (a + 1) ++ s.readByte a

/-- The channel operand, `ARG2[7:0]` (R81, R180). -/
def State.channel (s : State) : Byte := s.arg2.extractLsb' 0 8

/-- TTL_S, in seconds (R200). -/
def ttlSeconds (prio : BitVec 2) : Word :=
  match prio.toNat with
  | 0 => 86400
  | 1 => 43200
  | 2 => 21600
  | _ => 7200

/-- `meta(e)` (R206): prio [1:0], retry [5:4], serialised length [15:8], every other bit 0. -/
def metaWord (e : QEntry) : Word :=
  (0 : BitVec 16) ++ BitVec.ofNat 8 e.data.length ++ (0 : BitVec 2) ++ e.retry ++ (0 : BitVec 2) ++ e.prio

/-- `sat_N(v)` as an N-bit value (R9). -/
def satBits (n v : Nat) : BitVec n := BitVec.ofNat n (min v (2 ^ n - 1))

end Sys2Proof.Machine
end

