-- ==== Sys2Proof/Machine/Bus.lean ====
section
/-! DEFINITION. The bus slave port: the register map, host reads and writes, and what a port event does
(spec/10_state.md R23 to R38, spec/20_memory.md R60 to R67, spec/70_reset_and_hazards.md R331, R336, R337). -/

namespace Sys2Proof.Machine

/-- The registers of R23's map, in its order. -/
inductive Reg where
  | id | ctrl | status | cmd | result0 | result1 | result2 | result3 | outLen | nowLo | nowHi
  | arg0 | arg1 | arg2 | arg3 | holdId | holdMeta | holdTimeLo | holdTimeHi | holdTtl
  | dcUsed | dcWstartLo | dcWstartHi | dcLimit | dcWindow
  | pwState | pwNextLo | pwNextHi | pwLastLo | pwLastHi | pwDuration | pwMargin | pwInterval
  | cntQfull | cntDfail | cntExpired | cfg
deriving DecidableEq, Repr

/-- The register at a word offset below 0x400, none for the unmapped ones (R23, R64). -/
def regAt (off : Nat) : Option Reg :=
  match off with
  | 0x000 => some .id
  | 0x004 => some .ctrl
  | 0x008 => some .status
  | 0x00C => some .cmd
  | 0x010 => some .result0
  | 0x014 => some .result1
  | 0x018 => some .result2
  | 0x01C => some .result3
  | 0x020 => some .outLen
  | 0x028 => some .nowLo
  | 0x02C => some .nowHi
  | 0x030 => some .arg0
  | 0x034 => some .arg1
  | 0x038 => some .arg2
  | 0x03C => some .arg3
  | 0x040 => some .holdId
  | 0x044 => some .holdMeta
  | 0x048 => some .holdTimeLo
  | 0x04C => some .holdTimeHi
  | 0x050 => some .holdTtl
  | 0x060 => some .dcUsed
  | 0x064 => some .dcWstartLo
  | 0x068 => some .dcWstartHi
  | 0x06C => some .dcLimit
  | 0x070 => some .dcWindow
  | 0x080 => some .pwState
  | 0x084 => some .pwNextLo
  | 0x088 => some .pwNextHi
  | 0x08C => some .pwLastLo
  | 0x090 => some .pwLastHi
  | 0x094 => some .pwDuration
  | 0x098 => some .pwMargin
  | 0x09C => some .pwInterval
  | 0x0A0 => some .cntQfull
  | 0x0A4 => some .cntDfail
  | 0x0A8 => some .cntExpired
  | 0x0B0 => some .cfg
  | _ => none

/-- What a word of the window is. -/
inductive Target where
  | reg (r : Reg)
  | bufIn (a : Nat)
  | bufOut (a : Nat)
  | unmapped
deriving DecidableEq, Repr

/-- The word an access reaches: address bits [1:0] are ignored (R61). -/
def wordOffset (off : BitVec 12) : Nat := (off &&& 0xFFC).toNat

/-- R23's map over the whole window. -/
def target (off : BitVec 12) : Target :=
  let a := wordOffset off
  if Config.bufOutBase ≤ a then .bufOut a
  else if Config.bufInBase ≤ a ∧ a < Config.bufInBase + Config.bufInSize then .bufIn a
  else
    match regAt a with
    | some r => .reg r
    | none => .unmapped

/-- ID_VALUE, ASCII "MXS1" (R24). -/
def idValue : Word := 0x4D585331

def loHalf (v : DWord) : Word := v.extractLsb' 0 32

def hiHalf (v : DWord) : Word := v.extractLsb' 32 32

/-- A register as the host reads it (R23 to R36). -/
def State.readReg (s : State) : Reg → Word
  | .id => idValue
  | .ctrl => s.ctrlWord
  | .status => s.statusWord
  | .cmd => s.cmd
  | .result0 => s.result0
  | .result1 => s.result1
  | .result2 => s.result2
  | .result3 => s.result3
  | .outLen => s.outLen.setWidth 32
  | .nowLo => loHalf s.now
  | .nowHi => hiHalf s.now
  | .arg0 => s.arg0
  | .arg1 => s.arg1
  | .arg2 => s.arg2
  | .arg3 => s.arg3
  | .holdId => s.hold.id
  | .holdMeta => metaWord s.hold
  | .holdTimeLo => loHalf s.hold.tEnq
  | .holdTimeHi => hiHalf s.hold.tEnq
  | .holdTtl => s.hold.ttlS
  | .dcUsed => s.used
  | .dcWstartLo => loHalf s.windowStart
  | .dcWstartHi => hiHalf s.windowStart
  | .dcLimit => s.params.dcLimitMs
  | .dcWindow => s.params.dcWindowMs
  | .pwState => s.pwState.toWord
  | .pwNextLo => loHalf s.nextPassTime
  | .pwNextHi => hiHalf s.nextPassTime
  | .pwLastLo => loHalf s.lastPassTime
  | .pwLastHi => hiHalf s.lastPassTime
  | .pwDuration => s.params.pwDurationMs
  | .pwMargin => s.params.pwMarginMs
  | .pwInterval => s.params.pwIntervalMs
  | .cntQfull => s.cntQfull
  | .cntDfail => s.cntDfail
  | .cntExpired => s.cntExpired
  | .cfg => Params.cfgWord s.params

/-- `MemRead` at a window offset (R11, R62, R64); no read has a side effect on the block (R65). -/
def State.busRead (off : BitVec 12) (s : State) : Word :=
  match target off with
  | .reg r => s.readReg r
  | .bufIn a => s.readWordLe a
  | .bufOut a => s.readWordLe a
  | .unmapped => 0

/-- A CTRL write, accepted whether or not the block is busy (R25, R331, R337). -/
def State.writeCtrl (v : Word) (s : State) : State :=
  if v.getLsbD 1 then s.softReset else s.setIe (v.getLsbD 0)

/-- A write the block takes while idle to a target other than CTRL and STATUS (R23, R27, R62, R64, R65). Read-only and
unmapped targets ignore it. -/
def State.writeIdle (t : Target) (v : Word) (s : State) : State :=
  match t with
  | .reg .cmd => s.acceptCommand v
  | .reg .nowLo => s.setNow (hiHalf s.now ++ v)
  | .reg .nowHi => s.setNow (v ++ loHalf s.now)
  | .reg .arg0 => s.setArg0 v
  | .reg .arg1 => s.setArg1 v
  | .reg .arg2 => s.setArg2 v
  | .reg .arg3 => s.setArg3 v
  | .bufIn a => s.putIn a (leBytes v)
  | _ => s

/-- `MemWrite` at a window offset: CTRL and STATUS at any time; any other while BUSY is dropped and sets OVR (R336,
R337). -/
def State.busWrite (off : BitVec 12) (v : Word) (s : State) : State :=
  match target off with
  | .reg .ctrl => s.writeCtrl v
  | .reg .status => s.writeStatus v
  | t => if s.busy then s.setOvr else s.writeIdle t v

/-- The window offset of a host address, none outside the window (R60). -/
def windowOffset (p : Params) (addr : Nat) : Option (BitVec 12) :=
  if p.blockBase ≤ addr ∧ addr < p.blockBase + Config.windowSize then some (BitVec.ofNat 12 (addr - p.blockBase))
  else none

/-- One bus access at a host address: it reaches the block only inside the window (R60), and one narrower than 32 bits
is refused (R61, I12). -/
def State.access (addr : Nat) (size : AccessSize) (act : BitVec 12 → State) (s : State) :
    Host.Outcome State Fault Refusal :=
  match windowOffset s.params addr with
  | none => .next s
  | some off =>
    match size with
    | .word => .next (act off)
    | .byte | .half => .refused .narrowAccess

/-- What a port event does (R347). -/
def portStep (e : PortEvent) (s : State) : Host.Outcome State Fault Refusal :=
  match e with
  | .read size addr => s.access addr size (fun off => s.setRdata (s.busRead off))
  | .write size addr v => s.access addr size (fun off => s.busWrite off v)
  | .rst => .next s.powerOnReset

end Sys2Proof.Machine
end

