-- ==== Sys2Proof/Machine/Compressor.lean ====
section
/-! DEFINITION. dictionary_compressor: COMPRESS and DECOMPRESS (spec/41_compressor.md R100 to R120). -/

namespace Sys2Proof.Machine

/-- The compressor's mode codes (R105); `uncompressed` is the framer's 0, no compression (R174, R176). -/
inductive Mode where
  | uncompressed
  | dictionary
  | runLength
  | raw
deriving DecidableEq, Repr

/-- The mode's number in a result register (R105, R174). -/
def Mode.toWord : Mode → Word
  | .uncompressed => 0
  | .dictionary => 1
  | .runLength => 2
  | .raw => 3

/-- DICT_MARKER (R6). -/
def dictMarker : Byte := 0xD0

/-- RLE_MARKER (R6). -/
def rleMarker : Byte := 0xE0

/-- ESC_DICT (R6). -/
def escDict : Byte := 0xFF

/-- ESC_RLE (R6). -/
def escRle : Byte := 0xFE

/-- RAW_MAGIC's first byte (R6, R105). -/
def rawMagic0 : Byte := 0x4D

/-- RAW_MAGIC's second byte (R6, R105). -/
def rawMagic1 : Byte := 0x58

/-- ASCII case folding (R101). -/
def foldByte (b : Byte) : Byte := if 0x41 ≤ b.toNat ∧ b.toNat ≤ 0x5A then b + 0x20 else b

/-- The word matches at the front of the input, fold by fold, and lies wholly inside it (R102 step 1). -/
def matchesFront : List Byte → List Byte → Bool
  | [], _ => true
  | _ :: _, [] => false
  | w :: ws, b :: bs => foldByte w == foldByte b && matchesFront ws bs

/-- The longer candidate, the earlier one on a tie (R102 step 3). -/
def betterMatch (best : Option DictEntry) (e : DictEntry) : Option DictEntry :=
  match best with
  | none => some e
  | some b => if b.word.length < e.word.length then some e else some b

/-- `match(s, i)`, on the input from position i (R102). -/
def findMatch (d : Dict) (s : List Byte) : Option DictEntry :=
  (d.filter fun e => matchesFront e.word s).foldl betterMatch none

/-- The scan of `dict_enc` (R103): the first argument is how many bytes of the last match are still to be passed over. -/
def dictEncScan (d : Dict) : Nat → List Byte → List Byte
  | _, [] => []
  | k + 1, _ :: bs => dictEncScan d k bs
  | 0, b :: bs =>
    match findMatch d (b :: bs) with
    | some e => escDict :: e.code :: dictEncScan d (e.word.length - 1) bs
    | none => if b = escDict then escDict :: escDict :: dictEncScan d 0 bs else b :: dictEncScan d 0 bs

/-- `dict_enc(s)` (R103). -/
def dictEnc (d : Dict) (s : List Byte) : List Byte := dictMarker :: dictEncScan d 0 s

/-- The code of one run: a token for 3 or more bytes or for 0xFE, else the bytes themselves (R104). -/
def rleRun (b : Byte) (r : Nat) : List Byte :=
  if 3 ≤ r ∨ b = escRle then [escRle, BitVec.ofNat 8 r, b] else List.replicate r b

/-- The scan of `rle_enc` (R104) inside a run of `r` bytes `b`; a run is cut at 255 bytes. -/
def rleScan (b : Byte) (r : Nat) : List Byte → List Byte
  | [] => rleRun b r
  | c :: cs => if c = b ∧ r < 255 then rleScan b (r + 1) cs else rleRun b r ++ rleScan c 1 cs

/-- The runs of `rle_enc(s)` without the marker (R104). -/
def rleBody : List Byte → List Byte
  | [] => []
  | b :: bs => rleScan b 1 bs

/-- `rle_enc(s)` (R104). -/
def rleEnc (s : List Byte) : List Byte := rleMarker :: rleBody s

/-- `compress(s)` (R105): dictionary, then run-length, then raw; "shrink" is strict. -/
def compress (d : Dict) (s : List Byte) : Mode × List Byte :=
  if (dictEnc d s).length < s.length then (.dictionary, dictEnc d s)
  else if (rleEnc s).length < s.length then (.runLength, rleEnc s)
  else (.raw, rawMagic0 :: rawMagic1 :: s)

/-- What the byte after an escape stands for: a literal 0xFF, or the word of the code (R106). -/
def expandCode (d : Dict) (k : Byte) : Option (List Byte) :=
  if k = escDict then some [escDict] else (d.find? fun e => e.code == k).map DictEntry.word

/-- `dict_dec(b)` (R106); none is InvalidInput. -/
def dictDec (d : Dict) : List Byte → Option (List Byte)
  | [] => some []
  | b :: rest =>
    if b = escDict then
      match rest with
      | [] => none
      | k :: bs =>
        match expandCode d k, dictDec d bs with
        | some w, some out => some (w ++ out)
        | _, _ => none
    else (dictDec d rest).map fun out => b :: out

/-- `rle_dec(b)` (R107); none is InvalidInput. -/
def rleDec : List Byte → Option (List Byte)
  | [] => some []
  | b :: rest =>
    if b = escRle then
      match rest with
      | n :: v :: bs =>
        if n = 0 then none else (rleDec bs).map fun out => List.replicate n.toNat v ++ out
      | _ => none
    else (rleDec rest).map fun out => b :: out

/-- R109: an output of more than BUF_OUT_SIZE bytes is InvalidInput. -/
def boundOutput (m : Mode) (out : Option (List Byte)) : Option (Mode × List Byte) :=
  match out with
  | some bs => if Config.bufOutSize < bs.length then none else some (m, bs)
  | none => none

/-- `decompress(c)` (R108, R109), dispatching on the leading marker only; none is InvalidInput. -/
def decompress (d : Dict) (c : List Byte) : Option (Mode × List Byte) :=
  match c with
  | [] => none
  | b :: rest =>
    if b = dictMarker then boundOutput .dictionary (dictDec d rest)
    else if b = rleMarker then boundOutput .runLength (rleDec rest)
    else
      match rest with
      | [] => none
      | b1 :: body => if b = rawMagic0 ∧ b1 = rawMagic1 then boundOutput .raw (some body) else none

/-- COMPRESS (R110). -/
def execCompress (len : Byte) (s : State) : Host.Outcome State Fault Refusal :=
  if len = 0 then raise .invalidInput s
  else
    let r := compress s.params.dict (s.input len)
    finishOk ((s.putOut r.2).setResult0 r.1.toWord)

/-- DECOMPRESS (R120). -/
def execDecompress (len : Byte) (s : State) : Host.Outcome State Fault Refusal :=
  match decompress s.params.dict (s.input len) with
  | none => raise .invalidInput s
  | some r => finishOk ((s.putOut r.2).setResult0 r.1.toWord)

end Sys2Proof.Machine
end

