-- ==== Sys2Proof/Machine/DutyCycle.lean ====
section
/-! DEFINITION. duty_cycle_rate_limiter: DC_ESTIMATE, DC_POLL, DC_CAN_TX and DC_CONSUME
(spec/45_duty_cycle.md R240 to R245). -/

namespace Sys2Proof.Machine

/-- `roll(now)` finds the window elapsed (R240); a NOW before the window's start never rolls. -/
def State.windowElapsed (s : State) : Bool :=
  decide (s.windowStart.toNat ≤ s.now.toNat ∧ s.params.dcWindowMs.toNat ≤ s.now.toNat - s.windowStart.toNat)

/-- `roll(NOW)` (R240). -/
def State.roll (s : State) : State := if s.windowElapsed then s.setBudget 0 s.now else s

/-- Low-data-rate optimisation (R241). -/
def lowDataRate (p : Params) : Nat := if 11 ≤ p.loraSf ∧ p.loraBwHz = 125000 then 1 else 0

/-- The symbol time in microseconds, rounded up (R241). -/
def symbolUs (p : Params) : Nat := ceilDiv (2 ^ p.loraSf * 1000000) p.loraBwHz

/-- `num`, the one signed intermediate of the spec (R9, R241). -/
def payloadNum (p : Params) (pl : Nat) : Int :=
  8 * (pl : Int) - 4 * (p.loraSf : Int) + 28 + 16 * (p.loraCrc.toNat : Int) - 20 * (p.loraIh.toNat : Int)

/-- `nsym_payload` (R241). -/
def payloadSymbols (p : Params) (pl : Nat) : Nat :=
  let num := payloadNum p pl
  let q := if 0 < num then ceilDiv num.toNat (4 * (p.loraSf - 2 * lowDataRate p)) else 0
  8 + q * (p.loraCr + 4)

/-- `airtime_ms(PL)`, in exact integers, each rounding upward (R241). -/
def airtimeMs (p : Params) (pl : Nat) : Nat :=
  ceilDiv ((4 * p.loraNPreamble + 17) * symbolUs p + 4 * payloadSymbols p pl * symbolUs p) 4000

/-- The remaining budget, 0 when `used` exceeds the limit (R243, R244). -/
def State.remaining (s : State) : Word := BitVec.ofNat 32 (s.params.dcLimitMs.toNat - s.used.toNat)

/-- `canTransmit(est)`: an exact sum, no wrap (R244). -/
def State.canTransmit (est : Word) (s : State) : Bool :=
  decide (s.used.toNat + est.toNat ≤ s.params.dcLimitMs.toNat)

/-- DC_ESTIMATE (R242). -/
def execDcEstimate (len : Byte) (s : State) : Host.Outcome State Fault Refusal :=
  finishOk (s.setResult0 (BitVec.ofNat 32 (airtimeMs s.params len.toNat)))

/-- DC_POLL (R243). -/
def execDcPoll (s : State) : Host.Outcome State Fault Refusal :=
  let r := s.roll
  finishOk (r.setResult0 r.remaining)

/-- DC_CAN_TX (R244). -/
def execDcCanTx (s : State) : Host.Outcome State Fault Refusal :=
  let r := s.roll
  finishOk ((r.setResult0 (if r.canTransmit s.arg0 then 1 else 0)).setResult1 r.remaining)

/-- DC_CONSUME (R245): saturating, not clamped to the limit. -/
def execDcConsume (s : State) : Host.Outcome State Fault Refusal :=
  let r := s.roll
  let u := satBits 32 (r.used.toNat + s.arg0.toNat)
  finishOk ((r.setBudget u r.windowStart).setResult0 u)

end Sys2Proof.Machine
end

