-- ==== Sys2Proof/Machine/ReedSolomon.lean ====
section
/-! DEFINITION. reed_solomon_syndrome_detector: RS_ENCODE and RS_DECODE (spec/42_rs_fec.md R140 to R155). No error is
ever corrected (R146, R147). -/

namespace Sys2Proof.Machine

/-- Multiplication by z modulo 0x11D (R141): `(v << 1) ⊕ (0x11D if v[7] = 1)`, in 8 bits. -/
def xtime (v : Byte) : Byte := if v.getLsbD 7 then (v <<< 1) ^^^ 0x1D else v <<< 1

/-- The product of polynomials by Horner's scheme over the top `k` bits still to come of `b`: bit `k - 1` next. -/
def gfMulFrom (a b : Byte) : Nat → Byte → Byte
  | 0, acc => acc
  | k + 1, acc => gfMulFrom a b k (xtime acc ^^^ (if b.getLsbD k then a else 0))

/-- `gf_mul(a, b)`: the product of the two polynomials reduced modulo 0x11D (R140). -/
def gfMul (a b : Byte) : Byte := gfMulFrom a b 8 0

/-- `EXP[i]`, α = 0x02 (R141). -/
def gfExp : Nat → Byte
  | 0 => 0x01
  | i + 1 => xtime (gfExp i)

/-- The ROM table EXP[0..254] (R141, R45). -/
def expTable : List Byte := (List.range 255).map gfExp

/-- The ROM table LOG (R141): `LOG[EXP[i]] = i`; `LOG[0]` is never read. -/
def gfLog (v : Byte) : Nat := expTable.findIdx fun e => e == v

/-- `c` times a polynomial, coefficient by coefficient. -/
def scalePoly (c : Byte) (g : List Byte) : List Byte := g.map fun x => gfMul x c

/-- The sum of two coefficient lists of one length. -/
def addPoly : List Byte → List Byte → List Byte := List.zipWith fun x y => x ^^^ y

/-- One round of `gen` (R143): `g · (x + EXP[i])`, highest degree first. -/
def genStep (g : List Byte) (i : Nat) : List Byte := addPoly (g ++ [0]) (0 :: scalePoly (gfExp i) g)

/-- `gen(nsym)`, the nsym + 1 coefficients of the generator polynomial, highest degree first (R143). -/
def gen (nsym : Nat) : List Byte := (List.range nsym).foldl genStep [0x01]

/-- One step of the feedback shift register (R144): `gTail` is `g[1..nsym]`, `p` the register. -/
def lfsrStep (gTail : List Byte) (p : List Byte) (m : Byte) : List Byte :=
  let f := m ^^^ p.headD 0
  addPoly (p.tail ++ [0]) (gTail.map fun c => gfMul f c)

/-- `rs_parity(m, nsym)` (R144). -/
def rsParity (m : List Byte) (nsym : Nat) : List Byte :=
  m.foldl (lfsrStep (gen nsym).tail) (List.replicate nsym 0)

/-- `rs_encode(m, nsym)` (R144). -/
def rsEncode (m : List Byte) (nsym : Nat) : List Byte := m ++ rsParity m nsym

/-- `syndrome(r, i)`, Horner's method from the first byte (R145). -/
def syndrome (r : List Byte) (i : Nat) : Byte := r.foldl (fun acc b => gfMul acc (gfExp i) ^^^ b) 0

/-- Every syndrome S_0 .. S_{nsym-1} is zero (R146). -/
def syndromesZero (r : List Byte) (nsym : Nat) : Bool := (List.range nsym).all fun i => syndrome r i == 0

/-- `rs_detect(r, nsym)` (R146); none is Uncorrectable. -/
def rsDetect (r : List Byte) (nsym : Nat) : Option (List Byte) :=
  if syndromesZero r nsym then some (r.take (r.length - nsym)) else none

/-- RS_ENCODE (R150). -/
def execRsEncode (lvl : BitVec 4) (len : Byte) (s : State) : Host.Outcome State Fault Refusal :=
  match nsymOf lvl with
  | none => raise .invalidInput s
  | some nsym =>
    if Config.rsMaxN < len.toNat + nsym then raise .invalidInput s
    else finishOk (s.putOut (rsEncode (s.input len) nsym))

/-- RS_DECODE (R155). -/
def execRsDecode (lvl : BitVec 4) (len : Byte) (s : State) : Host.Outcome State Fault Refusal :=
  match nsymOf lvl with
  | none => raise .invalidInput s
  | some nsym =>
    if len.toNat < nsym then raise .invalidInput s
    else
      match rsDetect (s.input len) nsym with
      | none => raise .uncorrectable s
      | some m => finishOk (s.putOut m)

end Sys2Proof.Machine
end

