-- ==== Sys2Proof/Machine/Framer.lean ====
section
/-! DEFINITION. packet_framer: FRAME_CREATE, FRAME_PARSE, RELAY_SERIALIZE and RELAY_DESERIALIZE
(spec/43_framer.md R170 to R182). -/

namespace Sys2Proof.Machine

/-! ### Codec packets -/

/-- The first part of FRAME_CREATE's rule: the body of a compression type (R174). -/
def frameBody (p : Params) (comp : BitVec 4) (m : List Byte) : Except ErrCode (Mode × List Byte) :=
  match comp.toNat with
  | 0 => .ok (.uncompressed, m)
  | 1 =>
    if !p.codecDictEn then .error .invalidInput
    else if m.isEmpty then .error .invalidInput
    else .ok (compress p.dict m)
  | _ => .error .invalidInput

/-- The second part: FEC over the body (R174). -/
def framePayload (p : Params) (fec : BitVec 4) (body : List Byte) : Except ErrCode (List Byte) :=
  if fec = 0 then .ok body
  else
    match nsymOf fec with
    | none => .error .invalidInput
    | some nsym =>
      if !p.codecFecEn then .error .invalidInput
      else if Config.rsMaxN < body.length + nsym then .error .invalidInput
      else .ok (rsEncode body nsym)

/-- The codec header `[0x10 | comp, fec << 4]`: version 1, flags 0 (R170 to R172). -/
def codecHeader (comp fec : BitVec 4) : List Byte := [(1 : BitVec 4) ++ comp, fec ++ (0 : BitVec 4)]

/-- `create` (R174): the mode and the packet. -/
def frameBuild (p : Params) (comp fec : BitVec 4) (m : List Byte) : Except ErrCode (Mode × List Byte) :=
  match frameBody p comp m with
  | .error e => .error e
  | .ok (mode, body) =>
    match framePayload p fec body with
    | .error e => .error e
    | .ok payload =>
      let pkt := codecHeader comp fec ++ payload
      if Config.pktCap < pkt.length then .error .translationError else .ok (mode, pkt)

/-- FEC detection of FRAME_PARSE (R176). -/
def frameUnprotect (fec : BitVec 4) (body : List Byte) : Except ErrCode (List Byte) :=
  if fec = 0 then .ok body
  else
    match nsymOf fec with
    | none => .error .invalidInput
    | some nsym =>
      if body.length < nsym then .error .invalidInput
      else
        match rsDetect body nsym with
        | none => .error .uncorrectable
        | some m => .ok m

/-- Decompression of FRAME_PARSE, after FEC detection (R176). -/
def frameUnpack (d : Dict) (comp : BitVec 4) (body : List Byte) : Except ErrCode (Mode × List Byte) :=
  match comp.toNat with
  | 0 => .ok (.uncompressed, body)
  | 1 =>
    match decompress d body with
    | none => .error .invalidInput
    | some r => .ok r
  | _ => .error .invalidInput

/-- What FRAME_PARSE reads from a packet (R176). -/
structure Parsed where
  /-- RESULT0: the header bytes, byte 0 in bits 7:0. -/
  header : Word
  mode : Mode
  msg : List Byte
deriving DecidableEq, Repr

/-- `parse` (R176), its checks in the source's order: length, version, FEC, compression type. -/
def frameRead (d : Dict) (p : List Byte) : Except ErrCode Parsed :=
  match p with
  | b0 :: b1 :: body =>
    if b0.extractLsb' 4 4 ≠ 1 then .error .unsupportedVersion
    else
      match frameUnprotect (b1.extractLsb' 4 4) body with
      | .error e => .error e
      | .ok plain =>
        match frameUnpack d (b0.extractLsb' 0 4) plain with
        | .error e => .error e
        | .ok (mode, msg) => .ok ⟨BitVec.setWidth 32 (b1 ++ b0), mode, msg⟩
  | _ => .error .invalidInput

/-- FRAME_CREATE (R174). -/
def execFrameCreate (comp fec : BitVec 4) (len : Byte) (s : State) : Host.Outcome State Fault Refusal :=
  match frameBuild s.params comp fec (s.input len) with
  | .error e => raise e s
  | .ok r => finishOk ((s.putOut r.2).setResult0 r.1.toWord)

/-- FRAME_PARSE (R176). -/
def execFrameParse (len : Byte) (s : State) : Host.Outcome State Fault Refusal :=
  match frameRead s.params.dict (s.input len) with
  | .error e => raise e s
  | .ok r => finishOk (((s.putOut r.msg).setResult0 r.header).setResult1 r.mode.toWord)

/-! ### Relay wire format -/

/-- The relay wire version byte (R180). -/
def relayVersion : Byte := 0x01

/-- `relay_ser` (R180); none is TranslationError. -/
def relaySer (src dst : Word) (ch : Byte) (ts : Word) (pl : List Byte) : Option (List Byte) :=
  if Config.relayPayloadCap < pl.length then none
  else some ([relayVersion] ++ be32 src ++ be32 dst ++ [ch] ++ be32 ts ++ pl)

/-- The relay packet of the argument registers and an input payload (R180, R210). -/
def State.relayPacket (len : Byte) (s : State) : Option (List Byte) :=
  relaySer s.arg0 s.arg1 s.channel s.arg3 (s.input len)

/-- The four-byte big-endian field at an index of a packet (R181). -/
def beField (p : List Byte) (i : Nat) : Word :=
  ofBe32 (p.getD i 0) (p.getD (i + 1) 0) (p.getD (i + 2) 0) (p.getD (i + 3) 0)

/-- RELAY_SERIALIZE (R180). -/
def execRelaySerialize (len : Byte) (s : State) : Host.Outcome State Fault Refusal :=
  match s.relayPacket len with
  | none => raise .translationError s
  | some pkt => finishOk (s.putOut pkt)

/-- RELAY_DESERIALIZE (R181). -/
def execRelayDeserialize (len : Byte) (s : State) : Host.Outcome State Fault Refusal :=
  let p := s.input len
  if len.toNat < Config.relayHdr then raise .invalidInput s
  else if p.headD 0 ≠ relayVersion then raise .unsupportedVersion s
  else if Config.relayPayloadCap < len.toNat - Config.relayHdr then raise .invalidInput s
  else
    finishOk ((s.putOut (p.drop Config.relayHdr)).setResults (beField p 1) (beField p 5)
      (BitVec.setWidth 32 (p.getD 9 0)) (beField p 10))

end Sys2Proof.Machine
end

