-- ==== Sys2Proof/Machine/PassWindow.lean ====
section
/-! DEFINITION. pass_window_fsm: PW_TICK (spec/46_pass_window.md R270 to R273). -/

namespace Sys2Proof.Machine

/-- The Idle → Active condition, an exact comparison (R271). -/
def State.wakeDue (s : State) : Bool :=
  decide (s.nextPassTime.toNat ≤ s.now.toNat + s.params.pwMarginMs.toNat)

/-- The Active → Idle condition, an exact comparison (R271). -/
def State.passOver (s : State) : Bool :=
  decide (s.nextPassTime.toNat + s.params.pwDurationMs.toNat ≤ s.now.toNat)

/-- The transition a tick takes: none, Idle → Active, or Active → Idle (R271). -/
inductive PassEdge where
  | stay
  | wake
  | sleep
deriving DecidableEq, Repr

/-- `tr` in RESULT1 (R271). -/
def PassEdge.toWord : PassEdge → Word
  | .stay => 0
  | .wake => 1
  | .sleep => 2

/-- The one edge tested from the current state (R271, R272). -/
def State.passEdge (s : State) : PassEdge :=
  match s.pwState with
  | .idle => if s.wakeDue then .wake else .stay
  | .active => if s.passOver then .sleep else .stay

/-- The pass-window state after an edge (R271); the new nextPassTime saturates. -/
def State.takeEdge (e : PassEdge) (s : State) : State :=
  match e with
  | .stay => s
  | .wake => s.setPass .active s.nextPassTime s.lastPassTime
  | .sleep => s.setPass .idle (satBits 64 (s.now.toNat + s.params.pwIntervalMs.toNat)) s.nextPassTime

/-- PW_TICK (R271). -/
def execPwTick (s : State) : Host.Outcome State Fault Refusal :=
  let t := s.takeEdge s.passEdge
  finishOk ((t.setResult0 t.pwState.toWord).setResult1 s.passEdge.toWord)

end Sys2Proof.Machine
end

