-- ==== Sys2Proof/Machine/Queue.lean ====
section
/-! DEFINITION. priority_queue_with_ttl: Q_ENQUEUE, Q_DEQUEUE, Q_PEEK, Q_PURGE and Q_RESULT
(spec/44_queue.md R200 to R215). -/

namespace Sys2Proof.Machine

/-- The linear scan of R203 behind the front: `best` at index `k` is the best so far, `i` the index of the next entry. -/
def selectFrom (best : QEntry) (k i : Nat) : List QEntry → Nat
  | [] => k
  | e :: es => if e.prio < best.prio then selectFrom e i (i + 1) es else selectFrom best k (i + 1) es

/-- `sel(Q)`: the first entry of the numerically lowest priority (R203). -/
def sel : List QEntry → Nat
  | [] => 0
  | e :: es => selectFrom e 0 1 es

/-- `remove_at(Q, k)` (R204). -/
def removeAt (q : List QEntry) (k : Nat) : List QEntry := q.take k ++ q.drop (k + 1)

/-- `age_ms(now, t)` (R205): 0 for a time before the enqueue. -/
def ageMs (now t : DWord) : Nat := now.toNat - t.toNat

/-- An entry is expired when its age exceeds its TTL, strictly (R205). -/
def expired (now : DWord) (e : QEntry) : Bool := decide (e.ttlS.toNat * 1000 < ageMs now e.tEnq)

/-- The fresh entry Q_ENQUEUE appends (R202, R210). -/
def State.newEntry (prio : BitVec 2) (data : List Byte) (s : State) : QEntry where
  id := s.arg0 ^^^ s.arg3
  prio := prio
  tEnq := s.now
  ttlS := ttlSeconds prio
  retry := 0
  data := data

/-- The entry Q_DEQUEUE would take, none on an empty queue (R203, R212, R213). -/
def State.selected (s : State) : Option QEntry := s.queue[sel s.queue]?

/-- What Q_DEQUEUE and Q_PEEK report of the selected entry (R212, R213). -/
def State.reportEntry (e : QEntry) (s : State) : State :=
  (s.putOut e.data).setResults (BitVec.ofNat 32 (sel s.queue)) e.id (metaWord e) e.ttlS

/-- Q_ENQUEUE (R210): capacity first, then the priority's range, then the payload's length. -/
def execQEnqueue (prio : BitVec 4) (len : Byte) (s : State) : Host.Outcome State Fault Refusal :=
  if s.queue.length = Config.qCap then raise .queueFull s.countQfull
  else if 3 < prio.toNat then raise .invalidInput s
  else
    match s.relayPacket len with
    | none => raise .translationError s
    | some data =>
      let e := s.newEntry (prio.setWidth 2) data
      finishOk (((s.setQueue (s.queue ++ [e])).setResult0 e.id).setResult1 (BitVec.ofNat 32 s.queue.length))

/-- Q_DEQUEUE (R212). -/
def execQDequeue (s : State) : Host.Outcome State Fault Refusal :=
  match s.selected with
  | none => finishNone s
  | some e => finishOk (((s.reportEntry e).setQueue (removeAt s.queue (sel s.queue))).setHold e)

/-- Q_PEEK (R213). -/
def execQPeek (s : State) : Host.Outcome State Fault Refusal :=
  match s.selected with
  | none => finishNone s
  | some e => finishOk (s.reportEntry e)

/-- Q_PURGE (R214). -/
def execQPurge (s : State) : Host.Outcome State Fault Refusal :=
  let kept := s.queue.filter fun e => !expired s.now e
  let r := s.queue.length - kept.length
  finishOk (((s.setQueue kept).countExpired r).setResult0 (BitVec.ofNat 32 r))

/-- The failed send of Q_RESULT: re-queue at the back, or drop at three retries (R215). -/
def retryHold (s : State) : Host.Outcome State Fault Refusal :=
  if s.hold.retry.toNat < Config.maxRetry then
    if s.queue.length = Config.qCap then raise .queueFull s.countQfull
    else
      let e : QEntry := { s.hold with retry := s.hold.retry + 1 }
      finishOk ((((s.setQueue (s.queue ++ [e])).releaseHold).setResult0 1).setResult1 (e.retry.setWidth 32))
  else raise .deliveryFailed s.releaseHold.countDfail

/-- Q_RESULT (R215). -/
def execQResult (result : BitVec 4) (s : State) : Host.Outcome State Fault Refusal :=
  if 1 < result.toNat then raise .invalidInput s
  else if !s.holdValid then raise .invalidInput s
  else if result = 1 then finishOk (s.releaseHold.setResult0 0)
  else retryHold s

end Sys2Proof.Machine
end

