-- ==== Sys2Proof/Machine/Dispatch.lean ====
section
/-! DEFINITION. exec: one arm per command, each one direct call of its meaning (spec/30_encoding.md R82). -/

namespace Sys2Proof.Machine

-- The meaning of a command is its pseudocode run to its outcome and committed (R301).
def exec (i : Instr) (s : State) : Host.Outcome State Fault Refusal :=
  match i with
  | .compress len => Sys2Proof.Machine.execCompress len s
  | .decompress len => Sys2Proof.Machine.execDecompress len s
  | .rsEncode lvl len => Sys2Proof.Machine.execRsEncode lvl len s
  | .rsDecode lvl len => Sys2Proof.Machine.execRsDecode lvl len s
  | .frameCreate comp fec len => Sys2Proof.Machine.execFrameCreate comp fec len s
  | .frameParse len => Sys2Proof.Machine.execFrameParse len s
  | .relaySerialize len => Sys2Proof.Machine.execRelaySerialize len s
  | .relayDeserialize len => Sys2Proof.Machine.execRelayDeserialize len s
  | .qEnqueue prio len => Sys2Proof.Machine.execQEnqueue prio len s
  | .qDequeue => Sys2Proof.Machine.execQDequeue s
  | .qPeek => Sys2Proof.Machine.execQPeek s
  | .qPurge => Sys2Proof.Machine.execQPurge s
  | .qResult result => Sys2Proof.Machine.execQResult result s
  | .dcEstimate len => Sys2Proof.Machine.execDcEstimate len s
  | .dcPoll => Sys2Proof.Machine.execDcPoll s
  | .dcCanTx => Sys2Proof.Machine.execDcCanTx s
  | .dcConsume => Sys2Proof.Machine.execDcConsume s
  | .pwTick => Sys2Proof.Machine.execPwTick s

end Sys2Proof.Machine
end

