-- ==== Sys2Proof/Machine/Execute.lean ====
section
/-! DEFINITION. The execution step and its place among the host's accesses (spec/60_exceptions.md R301, R307,
spec/20_memory.md R68). -/

namespace Sys2Proof.Machine

/-- R301: decode the pending word and run the command; an illegal word completes with IllegalCommand (R84). -/
def runCommand (w : Word) (s : State) : Host.Outcome State Fault Refusal :=
  match decode w with
  | .ok i => exec i s
  | .error _ => raise .illegalCommand s

/-- The block takes the oldest of the host's events. -/
def takeArrival (a : Arrival) (rest : List Arrival) (s : State) : Host.Outcome State Fault Refusal :=
  portStep a.event (s.setInbox rest)

/-- One event of the single sequence of R68. A pending command executes, unless the oldest arrival takes effect before
its execution step (R307, R345; log 4). With no command pending the block takes the oldest arrival, and with none it
waits, idle (R330). -/
def blockStep (s : State) : Host.Outcome State Fault Refusal :=
  match s.pending, s.inbox with
  | some w, [] => runCommand w s
  | some w, a :: rest => if a.early then takeArrival a rest s else runCommand w s
  | none, a :: rest => takeArrival a rest s
  | none, [] => .next s

/-- I9: a model that sees a reserved error code has a fault of its own. -/
def errReserved (s : State) : Bool := decide (10 ≤ s.err.toNat)

/-- One step, with the fault of I9 in front (log 7). -/
def guardedStep (s : State) : Host.Outcome State Fault Refusal :=
  if errReserved s then .fault .reservedErrorCode else blockStep s

/-- The state in which `w` has just been accepted and no arrival takes effect before its execution (R27; log 10). -/
def State.withPending (w : Word) (s : State) : State :=
  (s.acceptCommand w).setInbox (s.inbox.dropWhile Arrival.early)

end Sys2Proof.Machine
end

