-- ==== Sys2Proof/Machine/Step.lean ====
section
/-! DEFINITION. One step of the block, and the placing of a command word where the next step takes it. -/

namespace Sys2Proof.Machine

/-- One step: a port event, or the execution step of the pending command (R68, R301). -/
def step (s : State) : Host.Outcome State Fault Refusal := guardedStep s

/-- `s` with the command whose low `nbits` bits are `w` accepted into the pending latch, so that the next step executes
it. It stands for the host's CMD write (R27; log 10). -/
def State.withFetchWord (s : State) (nbits w : Nat) : State := State.withPending (tableWord nbits w) s

end Sys2Proof.Machine
end

