-- ==== Sys2Proof/WellFormed.lean ====
section
/-! DEFINITION. Well-formedness: the legal field values of a command (spec/30_encoding.md R82, R83), the constraints on
DICT (spec/41_compressor.md R100) and the parameter ranges (spec/45_duty_cycle.md R241). A command with an illegal field
value still decodes and executes (R83: "A value outside the legal set is not a decode error"). -/

namespace Sys2Proof

/-- A FEC level that names a parity length: 1 low, 2 medium, 3 high (R82, R83). -/
def legalParityLevel (l : BitVec 4) : Bool := 1 ≤ l.toNat && l.toNat ≤ 3

/-- R82, R83: every field of the command lies in the value set its row allows. Compression type 2 is the reserved
codebook, which no command accepts (I3). -/
def Instr.wellFormed : Instr → Bool
  | .compress _ => true
  | .decompress _ => true
  | .rsEncode lvl _ => legalParityLevel lvl
  | .rsDecode lvl _ => legalParityLevel lvl
  | .frameCreate comp fec _ => decide (comp.toNat ≤ 1) && decide (fec.toNat ≤ 3)
  | .frameParse _ => true
  | .relaySerialize _ => true
  | .relayDeserialize _ => true
  | .qEnqueue prio _ => decide (prio.toNat ≤ 3)
  | .qDequeue => true
  | .qPeek => true
  | .qPurge => true
  | .qResult result => decide (result.toNat ≤ 1)
  | .dcEstimate _ => true
  | .dcPoll => true
  | .dcCanTx => true
  | .dcConsume => true
  | .pwTick => true

/-- R100 (a): between 1 and 255 entries. -/
def Dict.sizeOk (d : Dict) : Bool := 1 ≤ d.length && d.length ≤ 255

/-- R100 (b): no code is 0xFF, the literal escape. -/
def Dict.codesNotEscape (d : Dict) : Bool := d.all fun e => e.code != 0xFF

/-- R100 (c): the codes are pairwise distinct. -/
def Dict.codesDistinct (d : Dict) : Bool := decide (d.map DictEntry.code).Nodup

/-- R100 (d): every word has 1 to 32 bytes. -/
def Dict.wordLengthsOk (d : Dict) : Bool := d.all fun e => 1 ≤ e.word.length && e.word.length ≤ 32

/-- R100 (e): some entry's word is "SOS". -/
def Dict.hasSos (d : Dict) : Bool := d.any fun e => e.word == [0x53, 0x4F, 0x53]

/-- R100: a well-formed DICT meets (a) to (e). -/
def Dict.wellFormed (d : Dict) : Bool :=
  Dict.sizeOk d && Dict.codesNotEscape d && Dict.codesDistinct d && Dict.wordLengthsOk d && Dict.hasSos d

/-- R241: the ranges of the airtime parameters. -/
def Params.loraOk (p : Params) : Bool :=
  7 ≤ p.loraSf && p.loraSf ≤ 12 && 1 ≤ p.loraCr && p.loraCr ≤ 4 && 7800 ≤ p.loraBwHz && p.loraNPreamble ≤ 65535

/-- The parameter ranges of R100 and R241 together. -/
def Params.wellFormed (p : Params) : Bool := Dict.wellFormed p.dict && p.loraOk

end Sys2Proof
end

