-- ==== Sys2Proof/Safety.lean ====
section
/-! DEFINITION. The terms claims about the block use: how a command may end, what it leaves alone, when a step executes
a command or takes a host access, and the invariant of every run. -/

namespace Sys2Proof.Machine

/-! ### How a command ends (R12, R301) -/

/-- `s` with STATUS as `finish_ok` leaves it and nothing else changed. -/
def State.succeeded (s : State) : State := { s with err := 0, resValid := true, done := true, pending := none }

/-- `s` with STATUS as `finish_none` leaves it and nothing else changed. -/
def State.cameUpEmpty (s : State) : State := { s with err := 0, resValid := false, done := true, pending := none }

/-- `s` with STATUS as `raise` with this code leaves it and nothing else changed. -/
def State.failed (code : BitVec 4) (s : State) : State :=
  { s with err := code, resValid := false, done := true, pending := none }

/-! ### The rules' tables -/

/-- R85's unassigned opcodes, as ranges of the low byte. -/
def unassignedOpcodes (o : Nat) : Prop :=
  o ≤ 0x0F ∨ 0x12 ≤ o ∧ o ≤ 0x1F ∨ 0x22 ≤ o ∧ o ≤ 0x2F ∨ 0x34 ≤ o ∧ o ≤ 0x3F ∨ 0x45 ≤ o ∧ o ≤ 0x4F ∨
    0x54 ≤ o ∧ o ≤ 0x5F ∨ 0x61 ≤ o

/-- The "raised by" column of R300: the codes each command can complete with. -/
def errorsOf : Instr → List (BitVec 4)
  | .compress _ => [0, 1]
  | .decompress _ => [0, 1]
  | .rsEncode _ _ => [0, 1]
  | .rsDecode _ _ => [0, 1, 3]
  | .frameCreate _ _ _ => [0, 1, 4]
  | .frameParse _ => [0, 1, 2, 3]
  | .relaySerialize _ => [0, 4]
  | .relayDeserialize _ => [0, 1, 2]
  | .qEnqueue _ _ => [0, 1, 4, 5]
  | .qDequeue => [0]
  | .qPeek => [0]
  | .qPurge => [0]
  | .qResult _ => [0, 1, 5, 6]
  | .dcEstimate _ => [0]
  | .dcPoll => [0]
  | .dcCanTx => [0]
  | .dcConsume => [0]
  | .pwTick => [0]

/-- R64's unmapped offsets, as ranges of byte offsets. -/
def unmappedOffsets (a : Nat) : Prop :=
  0x024 ≤ a ∧ a < 0x028 ∨ 0x054 ≤ a ∧ a < 0x060 ∨ 0x074 ≤ a ∧ a < 0x080 ∨ 0x0AC ≤ a ∧ a < 0x0B0 ∨
    0x0B4 ≤ a ∧ a < 0x400 ∨ 0x500 ≤ a ∧ a < 0x800

/-- The byte offsets of the read-only registers and of BUF_OUT (R23). -/
def readOnlyOffsets (a : Nat) : Prop :=
  a < 0x004 ∨ 0x010 ≤ a ∧ a < 0x024 ∨ 0x040 ≤ a ∧ a < 0x054 ∨ 0x060 ≤ a ∧ a < 0x074 ∨ 0x080 ≤ a ∧ a < 0x0AC ∨
    0x0B0 ≤ a ∧ a < 0x0B4 ∨ 0x800 ≤ a

/-- The window has elapsed at NOW (R240). -/
def rollDue (s : State) : Prop :=
  s.windowStart.toNat ≤ s.now.toNat ∧ s.params.dcWindowMs.toNat ≤ s.now.toNat - s.windowStart.toNat

/-! ### Bytes of the buffers -/

/-- Every byte outside `[base, base + n)` reads in `t` as it read in `s`. -/
def sameBytesOutside (base n : Nat) (s t : State) : Prop :=
  ∀ a, a < base ∨ base + n ≤ a → t.readByte a = s.readByte a

/-- `t` holds `bs` at the front of BUF_OUT and its length in OUT_LEN, and every other byte reads as in `s` (R29). -/
def wroteOut (bs : List Byte) (s t : State) : Prop :=
  t.outLen.toNat = bs.length ∧ t.readBytes Config.bufOutBase bs.length = bs ∧
    sameBytesOutside Config.bufOutBase bs.length s t

/-! ### What the next step does -/

/-- The next step is the execution step of `w`: `w` is pending and no arrival takes effect before it (R301, log 4). -/
def State.aboutToExecute (w : Word) (s : State) : Prop :=
  s.err.toNat < 10 ∧ s.pending = some w ∧ ∀ a rest, s.inbox = a :: rest → a.early = false

/-- The next step takes the host's `event`, after which `rest` is still to come. -/
def State.aboutToTake (event : PortEvent) (rest : List Arrival) (s : State) : Prop :=
  s.err.toNat < 10 ∧ ∃ early, s.inbox = ⟨early, event⟩ :: rest ∧ (s.pending = none ∨ early = true)

/-- The next step takes a word write of `v` at window offset `off` (R60, R61). -/
def State.aboutToWrite (off : BitVec 12) (v : Word) (rest : List Arrival) (s : State) : Prop :=
  s.aboutToTake (.write .word (s.params.blockBase + off.toNat) v) rest

/-- The next step takes a word read at window offset `off` (R60, R61). -/
def State.aboutToRead (off : BitVec 12) (rest : List Arrival) (s : State) : Prop :=
  s.aboutToTake (.read .word (s.params.blockBase + off.toNat)) rest

/-! ### The queue -/

/-- Entry `e` stands at index `k` of `q`, its priority is the numerically lowest, and no earlier entry has that
priority (R203). -/
def isSelected (q : List QEntry) (k : Nat) (e : QEntry) : Prop :=
  q[k]? = some e ∧ (∀ f ∈ q, e.prio ≤ f.prio) ∧ ∀ j f, j < k → q[j]? = some f → e.prio < f.prio

/-- A queue entry as R39 and R200 describe it: 14 to 128 data bytes, the TTL of its priority. -/
def QEntry.ok (e : QEntry) : Bool :=
  decide (14 ≤ e.data.length) && decide (e.data.length ≤ 128) && e.ttlS == ttlSeconds e.prio

/-! ### The dictionary's matches and spelling -/

/-- Entry `e` stands at index `j` of the dictionary, its word fits into `s` from position `i` on, and the bytes there
fold as the word's do (R102 step 1). -/
def isCandidate (d : Dict) (s : List Byte) (i j : Nat) (e : DictEntry) : Prop :=
  d[j]? = some e ∧ i + e.word.length ≤ s.length ∧
    ∀ k < e.word.length, foldByte (s.getD (i + k) 0) = foldByte (e.word.getD k 0)

/-- Entry `e` at index `j` is a candidate, no candidate is longer, and none of its length has a smaller index (R102
step 3). -/
def isMatch (d : Dict) (s : List Byte) (i j : Nat) (e : DictEntry) : Prop :=
  isCandidate d s i j e ∧ (∀ k f, isCandidate d s i k f → f.word.length ≤ e.word.length) ∧
    ∀ k f, isCandidate d s i k f → f.word.length = e.word.length → j ≤ k

/-- The scan of `dict_enc` with every matched span replaced by the matched entry's stored spelling (R121). -/
def respellScan (d : Dict) : Nat → List Byte → List Byte
  | _, [] => []
  | k + 1, _ :: bs => respellScan d k bs
  | 0, b :: bs =>
    match findMatch d (b :: bs) with
    | some e => e.word ++ respellScan d (e.word.length - 1) bs
    | none => b :: respellScan d 0 bs

/-- `s'` of R121: the message a compression round trip gives back. -/
def respelled (d : Dict) (s : List Byte) : List Byte :=
  if (compress d s).1 = .dictionary then respellScan d 0 s else s

/-! ### The invariant -/

/-- What holds after every step of a run: the buffers' canonical form, the queue's capacity and entries (R39, R40), the
HOLD entry (R41), the error codes that can occur (R300), RES_VALID only without an error (R26), the pending word is the
one CMD reads and DONE is 0 while BUSY (R27, R337), OUT_LEN's range (R29). -/
structure State.Inv (s : State) : Prop where
  memory : Memory.wf s.mem = true
  capacity : s.queue.length ≤ 64
  entries : ∀ e ∈ s.queue, e.ok = true
  held : s.holdValid = true → s.hold.ok = true
  errCode : s.err.toNat ≤ 6 ∨ s.err = 9
  valid : s.resValid = true → s.err = 0
  busy : ∀ w, s.pending = some w → s.cmd = w ∧ s.done = false
  outLen : s.outLen.toNat ≤ 2048

end Sys2Proof.Machine
end

