-- ==== Sys2Proof/Certificates/Slice0/Obligations.lean ====
section
/-! DEFINITION. The statements for the provers. Each docstring names the rules of spec/ it formalises. -/

open Sys2Proof Sys2Proof.Machine

/-! ### Encoding -/

/-- Decoding an encoded command gives it back, whatever its operands (R80, R82, R84, R87). -/
def Obligations.DecodeOfEncode : Prop := ∀ i : Instr, decode (encode i) = .ok i

/-- A word that decodes to `i` agrees with `encode i` on the bits `i`'s row gives a meaning, and any word that agrees
with it there decodes alike: the fields a row marks "—" never matter (R82, R84). -/
def Obligations.DecodeDependsOnSignificantBits : Prop :=
  ∀ (w : Word) (i : Instr), decode w = .ok i →
    encode i = w &&& significantBits i ∧
      ∀ w' : Word, w' &&& significantBits i = w &&& significantBits i → decode w' = .ok i

/-- R84: the reserved bits are tested first, then the opcode, and the illegal words are exactly those with a nonzero
reserved byte or an opcode in R85's list. -/
def Obligations.IllegalWordsAreReservedOrUnassigned : Prop :=
  ∀ w : Word,
    (w.extractLsb' 24 8 ≠ 0 → decode w = .error .reservedBits) ∧
    (w.extractLsb' 24 8 = 0 →
      (decode w = .error .unassignedOpcode ↔ unassignedOpcodes (w.extractLsb' 0 8).toNat) ∧
      decode w ≠ .error .reservedBits)

/-- Words the spec writes out decode to the commands it names (R87's example; the programs of section 10 of
95_test_vectors.md), and one word for every other row of R82, laid out by R80. -/
def Obligations.SpelledOutWordsDecode : Prop :=
  decode 0x000B0010 = .ok (.compress 11) ∧ decode 0x00110120 = .ok (.rsEncode 1 17) ∧ decode 0x00210121 = .ok (.rsDecode 1 33) ∧
  decode 0x000B1130 = .ok (.frameCreate 1 1 11) ∧ decode 0x001B0031 = .ok (.frameParse 27) ∧
  decode 0x00020240 = .ok (.qEnqueue 2 2) ∧ decode 0x00000144 = .ok (.qResult 1) ∧
  decode 0x00180050 = .ok (.dcEstimate 24) ∧ decode 0x00FFFF51 = .ok .dcPoll ∧
  decode 0x00090011 = .ok (.decompress 9) ∧ decode 0x00720032 = .ok (.relaySerialize 114) ∧
  decode 0x00800033 = .ok (.relayDeserialize 128) ∧ decode 0x00000041 = .ok .qDequeue ∧
  decode 0x00000042 = .ok .qPeek ∧ decode 0x00000043 = .ok .qPurge ∧ decode 0x00000052 = .ok .dcCanTx ∧
  decode 0x00000053 = .ok .dcConsume ∧ decode 0x00000060 = .ok .pwTick ∧ decode 0x01000010 = .error .reservedBits

/-! ### The step -/

/-- When a word is pending and no arrival takes effect before it, the step is `exec` of the command it decodes to
(R301). -/
def Obligations.StepRunsDecodedCommand : Prop :=
  ∀ (s : State) (w : Word) (i : Instr), s.aboutToExecute w → decode w = .ok i → step s = exec i s

/-- An illegal word completes with ERR 9 and writes nothing but STATUS (R84, R302). -/
def Obligations.IllegalCommandCompletesWithCodeNine : Prop :=
  ∀ (s : State) (w : Word), s.aboutToExecute w →
    (w.extractLsb' 24 8 ≠ 0 ∨ unassignedOpcodes (w.extractLsb' 0 8).toNat) → step s = .next (s.failed 9)

/-- With no command about to execute, the step takes the oldest host event, and with none it waits; a reserved error
code faults (R68, R330, I9; the arrival list is the model's, log 4). -/
def Obligations.StepTakesHostEventsInOrder : Prop :=
  (∀ (s : State) (e : PortEvent) (rest : List Arrival), s.aboutToTake e rest →
    step s = portStep e { s with inbox := rest }) ∧
  (∀ s : State, s.err.toNat < 10 → s.pending = none → s.inbox = [] → step s = .next s) ∧
  (∀ s : State, 10 ≤ s.err.toNat → step s = .fault .reservedErrorCode)

/-- From an idle block, a host write of any 32-bit word to any byte address of the CMD word is accepted (BUSY 1, DONE 0,
CMD reads the word, `irq` deasserts), and the step after it, unless an arrival takes effect first, executes the command
the word decodes to, or completes with ERR 9 when the word is illegal (R27, R61, R84, R301, R306). -/
def Obligations.WrittenCommandIsAcceptedThenExecuted : Prop :=
  ∀ (s : State) (v : Word) (off : BitVec 12) (rest : List Arrival),
    s.pending = none → 0x00C ≤ off.toNat → off.toNat < 0x010 → s.aboutToWrite off v rest →
    ∃ t, step s = .next t ∧
      t = { s with inbox := rest, pending := some v, cmd := v, done := false } ∧ t.irq = false ∧
      ((∀ a r, rest = a :: r → a.early = false) →
        (∀ i, decode v = .ok i → step t = exec i t) ∧
        ((∀ i, decode v ≠ .ok i) → step t = .next (t.failed 9)))

/-! ### Rules of the whole machine -/

/-- The power-on state meets the invariant, whatever the parameters. -/
def Obligations.PowerOnStateMeetsInvariant : Prop :=
  State.reset.Inv ∧ ∀ (p : Params) (n : Nat) (inbox : List Arrival) (r : Word), (State.powerOn p n inbox r).Inv

/-- Every step keeps the invariant: the buffers' canonical form, the queue's capacity and entry shapes, the error codes
that can occur, DONE 0 while BUSY, OUT_LEN at most 2048 (R29, R39, R40, R41, R300, R337). -/
def Obligations.EveryStepKeepsInvariant : Prop := ∀ s t : State, s.Inv → step s = .next t → t.Inv

/-- No step changes a build-time parameter (R6, R20); the `rst` input performs the power-on reset, busy or idle, and no
other step draws new power-on contents (R330, R331, R347; the count of the draws, the arrival list and the word last
read are the model's, logs 3, 4, 5). -/
def Obligations.ParametersNeverChange : Prop :=
  (∀ s t : State, step s = .next t →
    t.params = s.params ∧ ((∀ rest, ¬ s.aboutToTake .rst rest) → t.boots = s.boots)) ∧
  (∀ (s : State) (rest : List Arrival), s.aboutToTake .rst rest →
    step s = .next (State.powerOn s.params (s.boots + 1) rest s.rdata))

/-- No command writes ARG0..ARG3, NOW, BUF_IN, CTRL, OVR or the command word (R21, R30, R31, R37, R46). -/
def Obligations.CommandsLeaveInputsAlone : Prop :=
  ∀ (i : Instr) (s t : State), exec i s = .next t →
    t.arg0 = s.arg0 ∧ t.arg1 = s.arg1 ∧ t.arg2 = s.arg2 ∧ t.arg3 = s.arg3 ∧ t.now = s.now ∧ t.ie = s.ie ∧
      t.ovr = s.ovr ∧ t.cmd = s.cmd ∧
      ∀ k < 256, t.readByte (Config.bufInBase + k) = s.readByte (Config.bufInBase + k)

/-- Every command completes in one step: DONE 1, BUSY 0, RES_VALID only with ERR 0 (R12, R301). In every state `irq` is
IE and DONE, so that it equals IE at a completion, error or not (R306). -/
def Obligations.EveryCommandCompletes : Prop :=
  (∀ (i : Instr) (s : State), ∃ t, exec i s = .next t ∧ t.done = true ∧ t.pending = none ∧
    (t.resValid = true → t.err = 0) ∧ t.irq = s.ie) ∧
  ∀ s : State, s.irq = true ↔ s.ie = true ∧ s.done = true

/-- R302: a command that ends in an error commits only STATUS, CNT_QFULL (with QueueFull), and CNT_DFAIL with HOLD_VALID
(with DeliveryFailed). -/
def Obligations.FailedCommandCommitsOnlyStatus : Prop :=
  ∀ (i : Instr) (s t : State), exec i s = .next t → t.err ≠ 0 →
    (t.err ≠ 5 ∧ t.err ≠ 6 ∧ t = s.failed t.err) ∨
    t = { s.failed 5 with cntQfull := s.cntQfull + 1 } ∨
    t = { s.failed 6 with cntDfail := s.cntDfail + 1, holdValid := false }

/-- A command completes only with a code R300 says it raises; JoinFailed, TransceiverFault, IllegalCommand and the
reserved codes are none of them. -/
def Obligations.CommandsRaiseOnlyTheirErrors : Prop :=
  ∀ (i : Instr) (s t : State), exec i s = .next t → t.err ∈ errorsOf i

/-- Each unit's state is written only by its own commands (R46, R214, R273): Q by Q_ENQUEUE, Q_DEQUEUE, Q_PURGE and
Q_RESULT; HOLD by Q_DEQUEUE, HOLD_VALID also by Q_RESULT; the budget by DC_POLL, DC_CAN_TX and DC_CONSUME; the
pass window by PW_TICK; and CNT_EXPIRED by Q_PURGE, CNT_QFULL with QueueFull, CNT_DFAIL with DeliveryFailed (R35). -/
def Obligations.CommandsKeepToTheirUnit : Prop :=
  ∀ (i : Instr) (s t : State), exec i s = .next t →
    (t.queue = s.queue ∨ (∃ p n, i = .qEnqueue p n) ∨ i = .qDequeue ∨ i = .qPurge ∨ ∃ r, i = .qResult r) ∧
    (t.hold = s.hold ∨ i = .qDequeue) ∧
    (t.holdValid = s.holdValid ∨ i = .qDequeue ∨ ∃ r, i = .qResult r) ∧
    (t.cntExpired = s.cntExpired ∨ i = .qPurge) ∧
    (t.cntQfull = s.cntQfull ∨ t.err = 5) ∧ (t.cntDfail = s.cntDfail ∨ t.err = 6) ∧
    (t.used = s.used ∧ t.windowStart = s.windowStart ∨ i = .dcPoll ∨ i = .dcCanTx ∨ i = .dcConsume) ∧
    (t.pwState = s.pwState ∧ t.nextPassTime = s.nextPassTime ∧ t.lastPassTime = s.lastPassTime ∨ i = .pwTick)

/-- A field value outside its legal set is no decode error: the command executes and raises InvalidInput, and
Q_ENQUEUE on a full queue QueueFull first (R83, R303). -/
def Obligations.IllegalFieldValueRaisesInvalidInput : Prop :=
  ∀ (i : Instr) (s : State), i.wellFormed = false →
    (((∃ p n, i = .qEnqueue p n) ∧ s.queue.length = 64 ∧
        exec i s = .next { s.failed 5 with cntQfull := s.cntQfull + 1 }) ∨
      (¬ ((∃ p n, i = .qEnqueue p n) ∧ s.queue.length = 64) ∧ exec i s = .next (s.failed 1)))

/-! ### Reset -/

/-- The registers as the host reads them after power-on, for any parameters (R23, R330). -/
def Obligations.PowerOnRegistersRead : Prop :=
  ∀ (p : Params) (n : Nat) (inbox : List Arrival) (r : Word),
    let s := State.powerOn p n inbox r
    s.busRead 0x000 = 0x4D585331 ∧
    (∀ off ∈ [0x004, 0x008, 0x00C, 0x010, 0x014, 0x018, 0x01C, 0x020, 0x028, 0x02C, 0x030, 0x034, 0x038, 0x03C,
        0x040, 0x044, 0x048, 0x04C, 0x050, 0x060, 0x064, 0x068, 0x080, 0x08C, 0x090, 0x0A0, 0x0A4,
        (0x0A8 : BitVec 12)], s.busRead off = 0) ∧
    s.busRead 0x06C = p.dcLimitMs ∧ s.busRead 0x070 = p.dcWindowMs ∧
    s.busRead 0x084 = p.pwFirstPassMs.extractLsb' 0 32 ∧ s.busRead 0x088 = p.pwFirstPassMs.extractLsb' 32 32 ∧
    s.busRead 0x094 = p.pwDurationMs ∧ s.busRead 0x098 = p.pwMarginMs ∧ s.busRead 0x09C = p.pwIntervalMs ∧
    s.pending = none ∧ s.irq = false ∧ s.queue = []

/-- A CTRL write, busy or idle: bit 1 performs a soft reset, which restores every power-on value but keeps both
buffers, discards a pending command and makes IE 0; without bit 1 the write sets IE alone (R25, R331, R337). `irq`
follows: asserted exactly when IE is set while DONE is 1, deasserted by a reset and by IE 0 (R306). -/
def Obligations.CtrlWriteResetsOrSetsInterruptEnable : Prop :=
  ∀ (s : State) (off : BitVec 12) (v : Word) (rest : List Arrival),
    0x004 ≤ off.toNat → off.toNat < 0x008 → s.aboutToWrite off v rest →
    ∃ t, step s = .next t ∧
      t = (if v.getLsbD 1 then { State.powerOn s.params s.boots rest s.rdata with mem := s.mem }
        else { s with inbox := rest, ie := v.getLsbD 0 }) ∧
      (t.irq = true ↔ v.getLsbD 1 = false ∧ v.getLsbD 0 = true ∧ s.done = true)

/-! ### The bus -/

/-- R336: while BUSY, a write anywhere but CTRL and STATUS has no effect but to set OVR; while idle, a write to a
read-only or unmapped offset is ignored and does not set OVR. -/
def Obligations.WriteWhileBusyIsDropped : Prop :=
  ∀ (s : State) (off : BitVec 12) (v : Word) (rest : List Arrival),
    s.aboutToWrite off v rest →
      (s.pending ≠ none → (off.toNat < 0x004 ∨ 0x00C ≤ off.toNat) →
        step s = .next { s with inbox := rest, ovr := true }) ∧
      (s.pending = none → (unmappedOffsets off.toNat ∨ readOnlyOffsets off.toNat) →
        step s = .next { s with inbox := rest })

/-- A STATUS write, busy or idle, clears DONE with bit 1 and OVR with bit 3 and ignores every other bit (R26, R305,
R337); clearing DONE deasserts `irq`, and a write without bit 1 leaves `irq` at IE and DONE (R306). -/
def Obligations.StatusWriteClearsDoneAndOverrun : Prop :=
  ∀ (s : State) (off : BitVec 12) (v : Word) (rest : List Arrival),
    0x008 ≤ off.toNat → off.toNat < 0x00C → s.aboutToWrite off v rest →
    ∃ t, step s = .next t ∧
      t = { s with
        inbox := rest
        done := if v.getLsbD 1 then false else s.done
        ovr := if v.getLsbD 3 then false else s.ovr } ∧
      (t.irq = true ↔ v.getLsbD 1 = false ∧ s.ie = true ∧ s.done = true)

/-- While idle, a write to NOW_LO, NOW_HI or an ARG register stores the value and nothing else, and reading the
register gives it back (R30, R31, R65, R346). -/
def Obligations.ReadWriteRegistersStore : Prop :=
  ∀ (s : State) (off : BitVec 12) (v : Word) (rest : List Arrival),
    0x028 ≤ off.toNat → off.toNat < 0x040 → s.pending = none → s.aboutToWrite off v rest →
    ∃ t, step s = .next t ∧ t.busRead off = v ∧
      (off.toNat < 0x02C → t = { s with inbox := rest, now := s.now.extractLsb' 32 32 ++ v }) ∧
      (0x02C ≤ off.toNat → off.toNat < 0x030 → t = { s with inbox := rest, now := v ++ s.now.extractLsb' 0 32 }) ∧
      (0x030 ≤ off.toNat → off.toNat < 0x034 → t = { s with inbox := rest, arg0 := v }) ∧
      (0x034 ≤ off.toNat → off.toNat < 0x038 → t = { s with inbox := rest, arg1 := v }) ∧
      (0x038 ≤ off.toNat → off.toNat < 0x03C → t = { s with inbox := rest, arg2 := v }) ∧
      (0x03C ≤ off.toNat → t = { s with inbox := rest, arg3 := v })

/-- While idle, a write of a BUF_IN word sets its four bytes, the lowest offset from bits 7:0, and no other byte and
nothing else, and reading the word gives the value back (R61, R62, R346). -/
def Obligations.BufInWriteSetsFourBytes : Prop :=
  ∀ (s : State) (off : BitVec 12) (v : Word) (rest : List Arrival),
    0x400 ≤ off.toNat → off.toNat < 0x500 → s.pending = none → s.aboutToWrite off v rest →
    ∃ t, step s = .next t ∧ t = { s with inbox := rest, mem := t.mem } ∧ t.busRead off = v ∧
      (∀ k < 4, t.readByte (off.toNat / 4 * 4 + k) = v.extractLsb' (8 * k) 8) ∧
      sameBytesOutside (off.toNat / 4 * 4) 4 s t

/-- An unmapped offset reads 0, busy or idle, and while idle a write to it changes nothing; the bits of a register that
the map reserves read 0 (R25, R29, R32, R34, R36, R64; STATUS's are in StatusWordLayout). -/
def Obligations.UnmappedOffsetsReadZero : Prop :=
  ∀ (s : State) (off : BitVec 12) (v : Word) (rest : List Arrival), unmappedOffsets off.toNat →
    (s.aboutToRead off rest → step s = .next { s with inbox := rest, rdata := 0 }) ∧
    (s.pending = none → s.aboutToWrite off v rest → step s = .next { s with inbox := rest }) ∧
    (s.busRead 0x004).extractLsb' 1 31 = 0 ∧ (s.busRead 0x020).extractLsb' 12 20 = 0 ∧
    (s.busRead 0x080).extractLsb' 1 31 = 0 ∧ (s.busRead 0x044).extractLsb' 2 2 = 0 ∧
    (s.busRead 0x044).extractLsb' 6 2 = 0 ∧ (s.busRead 0x044).extractLsb' 16 16 = 0 ∧
    (s.busRead 0x0B0).extractLsb' 14 2 = 0 ∧ (s.busRead 0x0B0).extractLsb' 24 8 = 0

/-- A read returns the register or buffer word, whatever the low address bits, and changes nothing else, busy or idle
(R61, R65). -/
def Obligations.ReadsHaveNoSideEffect : Prop :=
  ∀ (s : State) (off : BitVec 12) (rest : List Arrival), s.aboutToRead off rest →
    step s = .next { s with inbox := rest, rdata := s.busRead off } ∧ s.busRead off = s.busRead (off &&& 0xFFC)

/-- The word at a buffer offset is its four bytes, the lowest offset in bits 7:0, whatever the low address bits (R61,
R62). -/
def Obligations.BufferWordsAreLittleEndian : Prop :=
  ∀ (s : State) (off : BitVec 12), (0x400 ≤ off.toNat ∧ off.toNat < 0x500 ∨ 0x800 ≤ off.toNat) →
    ∀ k < 4, (s.busRead off).extractLsb' (8 * k) 8 = s.readByte (off.toNat / 4 * 4 + k)

/-- An access narrower than a word inside the window is refused (R61, I12), and an access outside the window does not
reach the block (R60). -/
def Obligations.NarrowAccessIsRefused : Prop :=
  ∀ (s : State) (size : AccessSize) (addr : Nat) (v : Word) (rest : List Arrival) (e : PortEvent),
    (e = .read size addr ∨ e = .write size addr v) → s.aboutToTake e rest →
    (s.params.blockBase ≤ addr → addr < s.params.blockBase + 0x1000 → size ≠ .word →
      step s = .refused .narrowAccess) ∧
    (addr < s.params.blockBase ∨ s.params.blockBase + 0x1000 ≤ addr → step s = .next { s with inbox := rest })

/-- In every state each register but STATUS reads its constant, its field of the state or its parameter, in the places
the map gives (R23 to R25, R27 to R36; STATUS is in StatusWordLayout). -/
def Obligations.RegistersMirrorUnitState : Prop :=
  ∀ s : State,
    s.busRead 0x000 = 0x4D585331 ∧ s.busRead 0x004 = (if s.ie then 1 else 0) ∧ s.busRead 0x00C = s.cmd ∧
    s.busRead 0x010 = s.result0 ∧ s.busRead 0x014 = s.result1 ∧ s.busRead 0x018 = s.result2 ∧
    s.busRead 0x01C = s.result3 ∧
    s.busRead 0x02C ++ s.busRead 0x028 = s.now ∧
    s.busRead 0x030 = s.arg0 ∧ s.busRead 0x034 = s.arg1 ∧ s.busRead 0x038 = s.arg2 ∧ s.busRead 0x03C = s.arg3 ∧
    s.busRead 0x020 = s.outLen.setWidth 32 ∧
    s.busRead 0x040 = s.hold.id ∧
    s.busRead 0x044 = (0 : BitVec 16) ++ BitVec.ofNat 8 s.hold.data.length ++ (0 : BitVec 2) ++ s.hold.retry ++
      (0 : BitVec 2) ++ s.hold.prio ∧
    s.busRead 0x04C ++ s.busRead 0x048 = s.hold.tEnq ∧ s.busRead 0x050 = s.hold.ttlS ∧
    s.busRead 0x060 = s.used ∧ s.busRead 0x068 ++ s.busRead 0x064 = s.windowStart ∧
    s.busRead 0x06C = s.params.dcLimitMs ∧ s.busRead 0x070 = s.params.dcWindowMs ∧
    s.busRead 0x080 = (if s.pwState = .active then 1 else 0) ∧
    s.busRead 0x088 ++ s.busRead 0x084 = s.nextPassTime ∧ s.busRead 0x090 ++ s.busRead 0x08C = s.lastPassTime ∧
    s.busRead 0x094 = s.params.pwDurationMs ∧ s.busRead 0x098 = s.params.pwMarginMs ∧
    s.busRead 0x09C = s.params.pwIntervalMs ∧
    s.busRead 0x0A0 = s.cntQfull ∧ s.busRead 0x0A4 = s.cntDfail ∧ s.busRead 0x0A8 = s.cntExpired ∧
    s.busRead 0x0B0 = (0 : BitVec 8) ++ BitVec.ofNat 8 s.params.dict.length ++ (0 : BitVec 2) ++
      BitVec.ofBool s.params.codecFecEn ++ BitVec.ofBool s.params.codecDictEn ++ BitVec.ofNat 4 s.params.loraSf ++
      (64 : BitVec 8)

/-- The host reads STATUS at 0x008, and it shows each flag and count in its place and 0 in the reserved bits (R26, R44,
R46). -/
def Obligations.StatusWordLayout : Prop :=
  ∀ s : State, s.queue.length ≤ 64 →
    s.busRead 0x008 = s.statusWord ∧ s.statusWord.getLsbD 0 = s.pending.isSome ∧ s.statusWord.getLsbD 1 = s.done ∧
    s.statusWord.getLsbD 2 = s.resValid ∧ s.statusWord.getLsbD 3 = s.ovr ∧
    s.statusWord.extractLsb' 4 4 = 0 ∧ s.statusWord.extractLsb' 8 4 = s.err ∧ s.statusWord.extractLsb' 12 4 = 0 ∧
    (s.statusWord.extractLsb' 16 7).toNat = s.queue.length ∧ s.statusWord.getLsbD 23 = false ∧
    s.statusWord.getLsbD 24 = (s.pwState == .active) ∧ s.statusWord.getLsbD 25 = s.holdValid ∧
    s.statusWord.extractLsb' 26 6 = 0

/-! ### dictionary_compressor -/

/-- COMPRESS of a non-empty input writes the compressed bytes and the mode, at most two bytes more than the input, and
nothing else (R105, R109, R110); of an empty one it raises InvalidInput. `compress` is the dictionary encoding (mode 1)
if that is strictly shorter than the input, else the run-length encoding (mode 2) if that is, else the raw form (mode 3)
(R105). -/
def Obligations.CompressWritesCompressedInput : Prop :=
  (∀ (d : Dict) (m : List Byte),
    ((dictEnc d m).length < m.length → compress d m = (.dictionary, dictEnc d m)) ∧
    (m.length ≤ (dictEnc d m).length → (rleEnc m).length < m.length → compress d m = (.runLength, rleEnc m)) ∧
    (m.length ≤ (dictEnc d m).length → m.length ≤ (rleEnc m).length → compress d m = (.raw, 0x4D :: 0x58 :: m))) ∧
  (Mode.toWord .uncompressed = 0 ∧ Mode.toWord .dictionary = 1 ∧ Mode.toWord .runLength = 2 ∧ Mode.toWord .raw = 3) ∧
  ∀ (len : Byte) (s : State),
    (len ≠ 0 → ∃ t, exec (.compress len) s = .next t ∧
      t = { s.succeeded with
        mem := t.mem
        outLen := t.outLen
        result0 := (compress s.params.dict (s.readBytes Config.bufInBase len.toNat)).1.toWord } ∧
      wroteOut (compress s.params.dict (s.readBytes Config.bufInBase len.toNat)).2 s t ∧
      t.outLen.toNat ≤ len.toNat + 2) ∧
    (len = 0 → exec (.compress len) s = .next (s.failed 1))

/-- DECOMPRESS writes the decoded bytes and the mode when the input decodes to at most 2048 bytes, else raises
InvalidInput (R120). What an input decodes to: `decompress` dispatches on the marker and bounds the output (R108, R109),
and `dictDec` and `rleDec` read one byte, escape or token after the other (R106, R107); two entries of one code, which
R100 forbids, are not spoken of. -/
def Obligations.DecompressWritesDecodedInput : Prop :=
  (∀ d : Dict, decompress d [] = none ∧
    (∀ c : List Byte,
      (dictDec d c = none → decompress d (0xD0 :: c) = none) ∧
      (∀ m, dictDec d c = some m →
        decompress d (0xD0 :: c) = if m.length ≤ 2048 then some (.dictionary, m) else none) ∧
      (rleDec c = none → decompress d (0xE0 :: c) = none) ∧
      (∀ m, rleDec c = some m →
        decompress d (0xE0 :: c) = if m.length ≤ 2048 then some (.runLength, m) else none) ∧
      decompress d (0x4D :: 0x58 :: c) = (if c.length ≤ 2048 then some (.raw, c) else none) ∧
      (c.head? ≠ some 0x58 → decompress d (0x4D :: c) = none) ∧
      (∀ b : Byte, b ≠ 0xD0 → b ≠ 0xE0 → b ≠ 0x4D → decompress d (b :: c) = none))) ∧
  (∀ d : Dict, dictDec d [] = some [] ∧ dictDec d [0xFF] = none ∧
    (∀ c : List Byte,
      (∀ b : Byte, b ≠ 0xFF → dictDec d (b :: c) = (dictDec d c).map ([b] ++ ·)) ∧
      dictDec d (0xFF :: 0xFF :: c) = (dictDec d c).map ([0xFF] ++ ·) ∧
      (Dict.codesDistinct d = true → ∀ e ∈ d, e.code ≠ 0xFF →
        dictDec d (0xFF :: e.code :: c) = (dictDec d c).map (e.word ++ ·)) ∧
      (∀ k : Byte, k ≠ 0xFF → (∀ e ∈ d, e.code ≠ k) → dictDec d (0xFF :: k :: c) = none))) ∧
  (rleDec [] = some [] ∧ rleDec [0xFE] = none ∧ (∀ n : Byte, rleDec [0xFE, n] = none) ∧
    (∀ c : List Byte,
      (∀ b : Byte, b ≠ 0xFE → rleDec (b :: c) = (rleDec c).map ([b] ++ ·)) ∧
      (∀ n v : Byte, n ≠ 0 → rleDec (0xFE :: n :: v :: c) = (rleDec c).map (List.replicate n.toNat v ++ ·)) ∧
      (∀ v : Byte, rleDec (0xFE :: 0 :: v :: c) = none))) ∧
  ∀ (len : Byte) (s : State),
    (∀ r, decompress s.params.dict (s.readBytes Config.bufInBase len.toNat) = some r →
      ∃ t, exec (.decompress len) s = .next t ∧
        t = { s.succeeded with mem := t.mem, outLen := t.outLen, result0 := r.1.toWord } ∧
        wroteOut r.2 s t ∧ t.outLen.toNat ≤ 2048) ∧
    (decompress s.params.dict (s.readBytes Config.bufInBase len.toNat) = none →
      exec (.decompress len) s = .next (s.failed 1))

/-- Compressing and decompressing gives the input back with every dictionary-matched span in its stored spelling, which
differs from the input in letter case alone, and is the input itself when the run-length or raw form was chosen (R101,
R102, R121). -/
def Obligations.CompressionRoundTrip : Prop :=
  ∀ (d : Dict) (s : List Byte), Dict.wellFormed d = true → 1 ≤ s.length → s.length ≤ 255 →
    decompress d (compress d s).2 = some ((compress d s).1, respelled d s) ∧
    (respelled d s).map foldByte = s.map foldByte ∧
    ((compress d s).1 ≠ .dictionary → respelled d s = s)

/-- R123, with R104: wherever a maximal run of one byte stands in an input, one of 3 to 255 bytes is coded as a 3-byte
token, one of 1 or 2 bytes other than 0xFE as itself, one of 0xFE as a token whatever its length, and a longer one as a
token of 255 and the remainder's code; what stands before and after the run is coded as it is alone. Run-length decoding
inverts run-length encoding. -/
def Obligations.RunLengthLaws : Prop :=
  (∀ (pre post : List Byte) (b : Byte) (r : Nat), pre.getLast? ≠ some b → post.head? ≠ some b →
    (3 ≤ r → r ≤ 255 → (rleEnc (pre ++ List.replicate r b ++ post)).tail =
      (rleEnc pre).tail ++ [0xFE, BitVec.ofNat 8 r, b] ++ (rleEnc post).tail) ∧
    (1 ≤ r → r ≤ 2 → b ≠ 0xFE → (rleEnc (pre ++ List.replicate r b ++ post)).tail =
      (rleEnc pre).tail ++ List.replicate r b ++ (rleEnc post).tail) ∧
    (1 ≤ r → r ≤ 2 → b = 0xFE → (rleEnc (pre ++ List.replicate r b ++ post)).tail =
      (rleEnc pre).tail ++ [0xFE, BitVec.ofNat 8 r, 0xFE] ++ (rleEnc post).tail) ∧
    (255 < r → (rleEnc (pre ++ List.replicate r b ++ post)).tail =
      (rleEnc pre).tail ++ [0xFE, 255, b] ++ (rleEnc (List.replicate (r - 255) b ++ post)).tail)) ∧
  (rleEnc [] = [0xE0] ∧ ∀ s : List Byte, (rleEnc s).head? = some 0xE0) ∧
  (∀ s : List Byte, rleDec (rleEnc s).tail = some s)

/-- R101 to R103: at each scan position the match is the longest candidate, the one of the smallest index on a tie, and
none exactly when there is no candidate; the dictionary encoding takes the match before anything else, escapes 0xFF,
and copies every other byte. -/
def Obligations.DictionaryEncodingTakesLongestMatch : Prop :=
  (∀ b : Byte, (0x41 ≤ b.toNat → b.toNat ≤ 0x5A → (foldByte b).toNat = b.toNat + 0x20) ∧
    (b.toNat < 0x41 ∨ 0x5A < b.toNat → foldByte b = b)) ∧
  (∀ d : Dict, dictEnc d [] = [0xD0] ∧ ∀ s : List Byte, (dictEnc d s).head? = some 0xD0) ∧
  ∀ (d : Dict) (s : List Byte) (i : Nat) (b : Byte), s[i]? = some b →
    (findMatch d (s.drop i) = none ↔ ∀ j e, ¬ isCandidate d s i j e) ∧
    (∀ e, findMatch d (s.drop i) = some e ↔ ∃ j, isMatch d s i j e) ∧
    (∀ j e, isMatch d s i j e → e.word ≠ [] → (dictEnc d (s.drop i)).tail =
      0xFF :: e.code :: (dictEnc d (s.drop (i + e.word.length))).tail) ∧
    ((∀ j e, ¬ isCandidate d s i j e) → (dictEnc d (s.drop i)).tail =
      (if b = 0xFF then [0xFF, 0xFF] else [b]) ++ (dictEnc d (s.drop (i + 1))).tail)

/-! ### reed_solomon_syndrome_detector -/

/-- R140: the polynomial product modulo 0x11D is the table product, and the EXP table, powers of α reduced by 0x11D,
holds every nonzero byte once, at the place LOG gives, and repeats after 255 (R141). -/
def Obligations.FieldProductAgreesWithTables : Prop :=
  (gfExp 0 = 0x01 ∧ (∀ i, (gfExp (i + 1)).setWidth 9 =
    ((gfExp i).setWidth 9 <<< 1) ^^^ (if (gfExp i).getLsbD 7 then 0x11D else 0)) ∧
    ∀ i, gfExp i = gfExp (i % 255)) ∧
  (∀ a b : Byte, gfMul a b = if a = 0 ∨ b = 0 then 0 else gfExp ((gfLog a + gfLog b) % 255)) ∧
  (∀ i < 255, gfLog (gfExp i) = i) ∧ (∀ a : Byte, a ≠ 0 → gfLog a < 255 ∧ gfExp (gfLog a) = a)

/-- RS_ENCODE at a legal level and length writes the message unchanged followed by the nsym parity bytes, and nothing
else (R144, R150); levels 1 to 3 stand for 16, 32 and 64 bytes and no other is a level (R6). -/
def Obligations.RsEncodeAppendsParity : Prop :=
  (∀ (lvl : BitVec 4) (nsym : Nat),
    nsymOf lvl = some nsym ↔ lvl = 1 ∧ nsym = 16 ∨ lvl = 2 ∧ nsym = 32 ∨ lvl = 3 ∧ nsym = 64) ∧
  ∀ (lvl : BitVec 4) (nsym : Nat) (len : Byte) (s : State),
    (lvl = 1 ∧ nsym = 16 ∨ lvl = 2 ∧ nsym = 32 ∨ lvl = 3 ∧ nsym = 64) →
    (len.toNat + nsym ≤ 255 → ∃ t, exec (.rsEncode lvl len) s = .next t ∧
      t = { s.succeeded with mem := t.mem, outLen := t.outLen } ∧ t.outLen.toNat = len.toNat + nsym ∧
      wroteOut (s.readBytes Config.bufInBase len.toNat ++
        rsParity (s.readBytes Config.bufInBase len.toNat) nsym) s t) ∧
    (255 < len.toNat + nsym → exec (.rsEncode lvl len) s = .next (s.failed 1))

/-- RS_DECODE strips the parity when every syndrome is zero, raises Uncorrectable when one is not, and InvalidInput
when the string is shorter than the parity; it never corrects (R145, R146, R155). A syndrome is the value of the
string's polynomial at a power of α, by Horner's method from the first byte (R142, R145). -/
def Obligations.RsDecodeStripsOrRejects : Prop :=
  (∀ i, syndrome [] i = 0 ∧
    ∀ (r : List Byte) (b : Byte), syndrome (r ++ [b]) i = gfMul (syndrome r i) (gfExp i) ^^^ b) ∧
  (∀ (r : List Byte) (nsym : Nat),
    ((∀ i < nsym, syndrome r i = 0) → rsDetect r nsym = some (r.take (r.length - nsym))) ∧
    ((∃ i < nsym, syndrome r i ≠ 0) → rsDetect r nsym = none)) ∧
  ∀ (lvl : BitVec 4) (nsym : Nat) (len : Byte) (s : State),
    (lvl = 1 ∧ nsym = 16 ∨ lvl = 2 ∧ nsym = 32 ∨ lvl = 3 ∧ nsym = 64) →
    (len.toNat < nsym → exec (.rsDecode lvl len) s = .next (s.failed 1)) ∧
    (nsym ≤ len.toNat → (∀ i < nsym, syndrome (s.readBytes Config.bufInBase len.toNat) i = 0) →
      ∃ t, exec (.rsDecode lvl len) s = .next t ∧
        t = { s.succeeded with mem := t.mem, outLen := t.outLen } ∧
        wroteOut (s.readBytes Config.bufInBase (len.toNat - nsym)) s t) ∧
    (nsym ≤ len.toNat → (∃ i < nsym, syndrome (s.readBytes Config.bufInBase len.toNat) i ≠ 0) →
      exec (.rsDecode lvl len) s = .next (s.failed 3))

/-- R156: an encoded message has nsym more bytes, and detection on it gives the message back. -/
def Obligations.DetectionInvertsEncoding : Prop :=
  ∀ (lvl : BitVec 4) (nsym : Nat) (m : List Byte),
    nsymOf lvl = some nsym → m.length + nsym ≤ 255 →
    (rsEncode m nsym).length = m.length + nsym ∧ rsDetect (rsEncode m nsym) nsym = some m

/-- R157: a codeword changed in exactly one byte has the change as its syndrome S_0, is always rejected, and RS_DECODE
of it raises Uncorrectable. -/
def Obligations.SingleByteCorruptionIsDetected : Prop :=
  ∀ (lvl : BitVec 4) (nsym : Nat) (m : List Byte) (k : Nat) (e : Byte),
    nsymOf lvl = some nsym → m.length + nsym ≤ 255 → k < m.length + nsym → e ≠ 0 →
    let r := (rsEncode m nsym).set k ((rsEncode m nsym).getD k 0 ^^^ e)
    syndrome r 0 = e ∧ rsDetect r nsym = none ∧
      ∀ (s : State) (len : Byte), s.readBytes Config.bufInBase len.toNat = r →
        exec (.rsDecode lvl len) s = .next (s.failed 3)

/-! ### packet_framer -/

/-- FRAME_CREATE with a legal, enabled choice that fits writes the header `0x1C 0xF0` followed by the payload, and the
mode (R170, R174). -/
def Obligations.FrameCreateWritesPacket : Prop :=
  ∀ (comp fec : BitVec 4) (len : Byte) (s : State) (mode : Mode) (body payload : List Byte),
    (comp = 0 ∧ mode = .uncompressed ∧ body = s.readBytes Config.bufInBase len.toNat ∨
      comp = 1 ∧ s.params.codecDictEn = true ∧ len ≠ 0 ∧
        (mode, body) = compress s.params.dict (s.readBytes Config.bufInBase len.toNat)) →
    (fec = 0 ∧ payload = body ∨
      ∃ nsym, nsymOf fec = some nsym ∧ s.params.codecFecEn = true ∧ body.length + nsym ≤ 255 ∧
        payload = body ++ rsParity body nsym) →
    (payload.length ≤ 235 → ∃ t, exec (.frameCreate comp fec len) s = .next t ∧
      t = { s.succeeded with mem := t.mem, outLen := t.outLen, result0 := mode.toWord } ∧
      wroteOut ((0x10 ||| comp.setWidth 8) :: (fec.setWidth 8 <<< 4) :: payload) s t) ∧
    (235 < payload.length → exec (.frameCreate comp fec len) s = .next (s.failed 4))

/-- FRAME_CREATE raises InvalidInput on a disabled codec, on an empty message with compression, and on body and parity
over 255 bytes, before it looks at the packet's length (R173, R174, R303). -/
def Obligations.FrameCreateRejectsBeforeLengthCheck : Prop :=
  ∀ (comp fec : BitVec 4) (len : Byte) (s : State),
    (comp = 1 → s.params.codecDictEn = false ∨ len = 0 →
      exec (.frameCreate comp fec len) s = .next (s.failed 1)) ∧
    (comp.toNat ≤ 1 → fec ≠ 0 → s.params.codecFecEn = false →
      exec (.frameCreate comp fec len) s = .next (s.failed 1)) ∧
    (comp = 0 → ∀ nsym, nsymOf fec = some nsym → 255 < len.toNat + nsym →
      exec (.frameCreate comp fec len) s = .next (s.failed 1)) ∧
    (comp = 1 → ∀ nsym, nsymOf fec = some nsym →
      255 < (compress s.params.dict (s.readBytes Config.bufInBase len.toNat)).2.length + nsym →
      exec (.frameCreate comp fec len) s = .next (s.failed 1))

/-- FRAME_PARSE of a version-1 packet with clean FEC and a legal compression type writes the message, the header bytes
and the mode (R170 to R172, R176). -/
def Obligations.FrameParseWritesMessage : Prop :=
  ∀ (len : Byte) (s : State) (comp fec flags : BitVec 4) (plain : List Byte) (r : Mode × List Byte),
    2 ≤ len.toNat →
    s.readByte Config.bufInBase = (1 : BitVec 4) ++ comp → s.readByte (Config.bufInBase + 1) = fec ++ flags →
    (fec = 0 ∧ plain = s.readBytes (Config.bufInBase + 2) (len.toNat - 2) ∨
      ∃ nsym, nsymOf fec = some nsym ∧ nsym ≤ len.toNat - 2 ∧
        (∀ i < nsym, syndrome (s.readBytes (Config.bufInBase + 2) (len.toNat - 2)) i = 0) ∧
        plain = s.readBytes (Config.bufInBase + 2) (len.toNat - 2 - nsym)) →
    (comp = 0 ∧ r = (.uncompressed, plain) ∨ comp = 1 ∧ decompress s.params.dict plain = some r) →
    ∃ t, exec (.frameParse len) s = .next t ∧
      t = { s.succeeded with
        mem := t.mem
        outLen := t.outLen
        result0 := (0 : BitVec 16) ++ s.readByte (Config.bufInBase + 1) ++ s.readByte Config.bufInBase
        result1 := r.1.toWord } ∧
      wroteOut r.2 s t

/-- FRAME_PARSE checks in the source's order: length, version, FEC level and length, syndromes, then the compression
type and the compressed body (R171, R176, R303). -/
def Obligations.FrameParseChecksInOrder : Prop :=
  ∀ (len : Byte) (s : State) (b0 b1 : Byte) (body : List Byte),
    (len.toNat < 2 → exec (.frameParse len) s = .next (s.failed 1)) ∧
    (s.readBytes Config.bufInBase len.toNat = b0 :: b1 :: body →
      (b0.extractLsb' 4 4 ≠ 1 → exec (.frameParse len) s = .next (s.failed 2)) ∧
      (b0.extractLsb' 4 4 = 1 → 4 ≤ (b1.extractLsb' 4 4).toNat → exec (.frameParse len) s = .next (s.failed 1)) ∧
      (b0.extractLsb' 4 4 = 1 → ∀ nsym, nsymOf (b1.extractLsb' 4 4) = some nsym →
        (body.length < nsym → exec (.frameParse len) s = .next (s.failed 1)) ∧
        (nsym ≤ body.length → (∃ i < nsym, syndrome body i ≠ 0) →
          exec (.frameParse len) s = .next (s.failed 3)) ∧
        (nsym ≤ body.length → (∀ i < nsym, syndrome body i = 0) → 2 ≤ (b0.extractLsb' 0 4).toNat →
          exec (.frameParse len) s = .next (s.failed 1)) ∧
        (nsym ≤ body.length → (∀ i < nsym, syndrome body i = 0) → b0.extractLsb' 0 4 = 1 →
          decompress s.params.dict (body.take (body.length - nsym)) = none →
          exec (.frameParse len) s = .next (s.failed 1))) ∧
      (b0.extractLsb' 4 4 = 1 → b1.extractLsb' 4 4 = 0 →
        (2 ≤ (b0.extractLsb' 0 4).toNat → exec (.frameParse len) s = .next (s.failed 1)) ∧
        (b0.extractLsb' 0 4 = 1 → decompress s.params.dict body = none →
          exec (.frameParse len) s = .next (s.failed 1))))

/-- R177: when FRAME_CREATE succeeds, FRAME_PARSE of its output succeeds in any state with the same dictionary, with
the message itself for compression type 0 and, for type 1, the message in the dictionary's spelling, which differs from
it in letter case alone; the mode is the one FRAME_CREATE reported. -/
def Obligations.CodecPacketRoundTrip : Prop :=
  ∀ (comp fec : BitVec 4) (len : Byte) (s t u : State), Dict.wellFormed s.params.dict = true →
    exec (.frameCreate comp fec len) s = .next t → t.err = 0 → u.params.dict = s.params.dict →
    u.readBytes Config.bufInBase t.outLen.toNat = t.readBytes Config.bufOutBase t.outLen.toNat →
    let m := s.readBytes Config.bufInBase len.toNat
    ∃ v, exec (.frameParse (t.outLen.setWidth 8)) u = .next v ∧ v.err = 0 ∧ v.result1 = t.result0 ∧
      wroteOut (if comp = 0 then m else respelled s.params.dict m) u v ∧
      (respelled s.params.dict m).map foldByte = m.map foldByte

/-- RELAY_SERIALIZE writes the 14-byte big-endian header and the payload, and raises TranslationError over 114 payload
bytes (R63, R180, R182). -/
def Obligations.RelaySerializeWritesPacket : Prop :=
  (∀ v : Word, be32 v = [v.extractLsb' 24 8, v.extractLsb' 16 8, v.extractLsb' 8 8, v.extractLsb' 0 8]) ∧
  ∀ (len : Byte) (s : State),
    (len.toNat ≤ 114 → ∃ t, exec (.relaySerialize len) s = .next t ∧
      t = { s.succeeded with mem := t.mem, outLen := t.outLen } ∧ t.outLen.toNat = 14 + len.toNat ∧
      wroteOut ([0x01] ++ be32 s.arg0 ++ be32 s.arg1 ++ [s.arg2.extractLsb' 0 8] ++ be32 s.arg3 ++
        s.readBytes Config.bufInBase len.toNat) s t) ∧
    (114 < len.toNat → exec (.relaySerialize len) s = .next (s.failed 4))

/-- RELAY_DESERIALIZE of 14 to 128 bytes with version byte 0x01 reports the header's fields and writes the payload; the
length below 14 is checked before the version and the length above 128 after it (R181). -/
def Obligations.RelayDeserializeReportsFields : Prop :=
  ∀ (len : Byte) (s : State),
    let b := fun k => s.readByte (Config.bufInBase + k)
    (14 ≤ len.toNat → len.toNat ≤ 128 → b 0 = 0x01 → ∃ t, exec (.relayDeserialize len) s = .next t ∧
      t = { s.succeeded with
        mem := t.mem
        outLen := t.outLen
        result0 := b 1 ++ b 2 ++ b 3 ++ b 4
        result1 := b 5 ++ b 6 ++ b 7 ++ b 8
        result2 := (b 9).setWidth 32
        result3 := b 10 ++ b 11 ++ b 12 ++ b 13 } ∧
      wroteOut (s.readBytes (Config.bufInBase + 14) (len.toNat - 14)) s t) ∧
    (len.toNat < 14 → exec (.relayDeserialize len) s = .next (s.failed 1)) ∧
    (14 ≤ len.toNat → b 0 ≠ 0x01 → exec (.relayDeserialize len) s = .next (s.failed 2)) ∧
    (128 < len.toNat → b 0 = 0x01 → exec (.relayDeserialize len) s = .next (s.failed 1))

/-! ### priority_queue_with_ttl -/

/-- Q_ENQUEUE checks capacity, then priority, then payload length; past them it appends one fresh entry at the back
with id, TTL, NOW and the relay packet, and reports id and position (R200, R202, R210, R220). -/
def Obligations.EnqueueAppendsFreshEntry : Prop :=
  ∀ (prio : BitVec 4) (len : Byte) (s : State),
    (s.queue.length = 64 →
      exec (.qEnqueue prio len) s = .next { s.failed 5 with cntQfull := s.cntQfull + 1 }) ∧
    (s.queue.length < 64 → 3 < prio.toNat → exec (.qEnqueue prio len) s = .next (s.failed 1)) ∧
    (s.queue.length < 64 → prio.toNat ≤ 3 → 114 < len.toNat →
      exec (.qEnqueue prio len) s = .next (s.failed 4)) ∧
    (s.queue.length < 64 → prio.toNat ≤ 3 → len.toNat ≤ 114 →
      exec (.qEnqueue prio len) s = .next { s.succeeded with
        queue := s.queue ++ [{
          id := s.arg0 ^^^ s.arg3
          prio := prio.setWidth 2
          tEnq := s.now
          ttlS := [86400, 43200, 21600, 7200].getD prio.toNat 0
          retry := 0
          data := [0x01] ++ be32 s.arg0 ++ be32 s.arg1 ++ [s.arg2.extractLsb' 0 8] ++ be32 s.arg3 ++
            s.readBytes Config.bufInBase len.toNat }]
        result0 := s.arg0 ^^^ s.arg3
        result1 := BitVec.ofNat 32 s.queue.length })

/-- R203: `sel` is the smallest index whose entry has the numerically lowest priority present. -/
def Obligations.SelectionIsFirstLowestPriority : Prop :=
  ∀ q : List QEntry, q ≠ [] → ∃ e, isSelected q (sel q) e ∧ ∀ k f, isSelected q k f → k = sel q

/-- Q_DEQUEUE takes the selected entry into HOLD, keeps the order of the others, and reports it (R204, R212, R221). -/
def Obligations.DequeueTakesSelectedEntry : Prop :=
  ∀ (s : State) (k : Nat) (e : QEntry), isSelected s.queue k e → e.data.length ≤ 128 →
    ∃ t, exec .qDequeue s = .next t ∧
      t = { s.succeeded with
        mem := t.mem
        outLen := t.outLen
        queue := s.queue.take k ++ s.queue.drop (k + 1)
        hold := e
        holdValid := true
        result0 := BitVec.ofNat 32 k
        result1 := e.id
        result2 := (0 : BitVec 16) ++ BitVec.ofNat 8 e.data.length ++ (0 : BitVec 2) ++ e.retry ++ (0 : BitVec 2) ++
          e.prio
        result3 := e.ttlS } ∧
      wroteOut e.data s t

/-- Q_PEEK reports the same and takes nothing (R206, R213). -/
def Obligations.PeekReportsSelectedEntry : Prop :=
  ∀ (s : State) (k : Nat) (e : QEntry), isSelected s.queue k e → e.data.length ≤ 128 →
    ∃ t, exec .qPeek s = .next t ∧
      t = { s.succeeded with
        mem := t.mem
        outLen := t.outLen
        result0 := BitVec.ofNat 32 k
        result1 := e.id
        result2 := (0 : BitVec 16) ++ BitVec.ofNat 8 e.data.length ++ (0 : BitVec 2) ++ e.retry ++ (0 : BitVec 2) ++
          e.prio
        result3 := e.ttlS } ∧
      wroteOut e.data s t

/-- On an empty queue Q_DEQUEUE and Q_PEEK complete with DONE 1, ERR 0 and RES_VALID 0 and change nothing else (R12,
R212, R213). -/
def Obligations.EmptyQueueYieldsNothing : Prop :=
  ∀ s : State, s.queue = [] →
    exec .qDequeue s = .next s.cameUpEmpty ∧ exec .qPeek s = .next s.cameUpEmpty

/-- Q_PURGE keeps, in order, exactly the entries whose age does not exceed their TTL, a negative age being no excess, and
counts the others (R205, R214, R222). -/
def Obligations.PurgeRemovesExpiredEntries : Prop :=
  ∀ s : State,
    let kept := s.queue.filter fun e => decide ((s.now.toNat : Int) - e.tEnq.toNat ≤ e.ttlS.toNat * 1000)
    exec .qPurge s = .next { s.succeeded with
      queue := kept
      cntExpired := s.cntExpired + BitVec.ofNat 32 (s.queue.length - kept.length)
      result0 := BitVec.ofNat 32 (s.queue.length - kept.length) }

/-- Q_RESULT with no entry held raises InvalidInput; with result 1 it releases the held entry (R215). -/
def Obligations.SendSuccessReleasesHold : Prop :=
  ∀ s : State,
    (∀ r : BitVec 4, r.toNat ≤ 1 → s.holdValid = false → exec (.qResult r) s = .next (s.failed 1)) ∧
    (s.holdValid = true → exec (.qResult 1) s = .next { s.succeeded with holdValid := false, result0 := 0 })

/-- A failed send re-queues the held entry at the back with one more retry and its id, priority, time, TTL and data
unchanged; on a full queue it raises QueueFull and keeps HOLD; at three retries it drops the entry with DeliveryFailed
(R215). -/
def Obligations.SendFailureRequeuesOrDrops : Prop :=
  ∀ s : State, s.holdValid = true →
    (s.hold.retry.toNat < 3 → s.queue.length < 64 →
      exec (.qResult 0) s = .next { s.succeeded with
        queue := s.queue ++ [{ s.hold with retry := BitVec.ofNat 2 (s.hold.retry.toNat + 1) }]
        holdValid := false
        result0 := 1
        result1 := BitVec.ofNat 32 (s.hold.retry.toNat + 1) }) ∧
    (s.hold.retry.toNat < 3 → s.queue.length = 64 →
      exec (.qResult 0) s = .next { s.failed 5 with cntQfull := s.cntQfull + 1 }) ∧
    (s.hold.retry.toNat = 3 →
      exec (.qResult 0) s = .next { s.failed 6 with cntDfail := s.cntDfail + 1, holdValid := false })

/-- R213, R341: Q_DEQUEUE right after Q_PEEK reports what the peek reported, and leaves it in HOLD. -/
def Obligations.DequeueTakesWhatPeekReported : Prop :=
  ∀ s t u : State, exec .qPeek s = .next t → exec .qDequeue t = .next u →
    u.result0 = t.result0 ∧ u.result1 = t.result1 ∧ u.result2 = t.result2 ∧ u.result3 = t.result3 ∧
      u.outLen = t.outLen ∧ u.resValid = t.resValid ∧
      (t.resValid = true → u.holdValid = true ∧ u.hold.id = t.result1 ∧ s.queue.Perm (u.hold :: u.queue))

/-! ### duty_cycle_rate_limiter -/

/-- DC_ESTIMATE reports R241's airtime estimate, each ceiling that of the exact quotient, without truncation for
parameters in R241's ranges, and changes neither the budget nor anything else (R241, R242). -/
def Obligations.EstimateReportsAirtime : Prop :=
  ∀ (len : Byte) (s : State), s.params.loraOk = true →
    let p := s.params
    let de : ℤ := if 11 ≤ p.loraSf ∧ p.loraBwHz = 125000 then 1 else 0
    let tsym : ℤ := ⌈(2 ^ p.loraSf * 1000000 : ℚ) / p.loraBwHz⌉
    let num : ℤ := 8 * len.toNat - 4 * p.loraSf + 28 + 16 * p.loraCrc.toNat - 20 * p.loraIh.toNat
    let q : ℤ := if 0 < num then ⌈(num : ℚ) / (4 * (p.loraSf - 2 * de))⌉ else 0
    let tq : ℤ := (4 * p.loraNPreamble + 17) * tsym + 4 * (8 + q * (p.loraCr + 4)) * tsym
    ∃ t, exec (.dcEstimate len) s = .next t ∧ t = { s.succeeded with result0 := t.result0 } ∧
      (t.result0.toNat : ℤ) = ⌈(tq : ℚ) / 4000⌉

/-- DC_POLL rolls an elapsed window (used 0, windowStart NOW), then reports what is left of the limit (R240, R243,
R247). -/
def Obligations.PollRollsAndReportsRemaining : Prop :=
  ∀ s : State, ∃ t, exec .dcPoll s = .next t ∧
    t = { s.succeeded with used := t.used, windowStart := t.windowStart, result0 := t.result0 } ∧
    (rollDue s → t.used = 0 ∧ t.windowStart = s.now) ∧
    (¬ rollDue s → t.used = s.used ∧ t.windowStart = s.windowStart) ∧
    t.result0.toNat = s.params.dcLimitMs.toNat - t.used.toNat

/-- DC_CAN_TX rolls an elapsed window, then answers 1 exactly when `used + est` does not exceed the limit, an exact sum,
and charges nothing (R240, R244). -/
def Obligations.CanTransmitComparesExactly : Prop :=
  ∀ s : State, ∃ t, exec .dcCanTx s = .next t ∧
    t = { s.succeeded with
      used := t.used, windowStart := t.windowStart, result0 := t.result0, result1 := t.result1 } ∧
    (rollDue s → t.used = 0 ∧ t.windowStart = s.now) ∧
    (¬ rollDue s → t.used = s.used ∧ t.windowStart = s.windowStart) ∧
    (t.used.toNat + s.arg0.toNat ≤ s.params.dcLimitMs.toNat → t.result0 = 1) ∧
    (s.params.dcLimitMs.toNat < t.used.toNat + s.arg0.toNat → t.result0 = 0) ∧
    t.result1.toNat = s.params.dcLimitMs.toNat - t.used.toNat

/-- DC_CONSUME rolls an elapsed window, then adds the estimate, saturating at 2^32 - 1 and not at the limit (R240,
R245). -/
def Obligations.ConsumeChargesSaturating : Prop :=
  ∀ s : State, ∃ t, exec .dcConsume s = .next t ∧
    t = { s.succeeded with used := t.used, windowStart := t.windowStart, result0 := t.used } ∧
    (rollDue s → t.windowStart = s.now ∧ t.used = s.arg0) ∧
    (¬ rollDue s → t.windowStart = s.windowStart ∧
      t.used.toNat = min (s.used.toNat + s.arg0.toNat) 4294967295)

/-! ### pass_window_fsm -/

/-- PW_TICK takes at most one edge, the one leaving the current state: Idle to Active from `next - margin` on, Active to
Idle from `next + duration` on, the next pass then a saturated `NOW + interval` (R271, R272). -/
def Obligations.TickTakesOneEdge : Prop :=
  ∀ s : State,
    (s.pwState = .idle → s.nextPassTime.toNat ≤ s.now.toNat + s.params.pwMarginMs.toNat →
      exec .pwTick s = .next { s.succeeded with pwState := .active, result0 := 1, result1 := 1 }) ∧
    (s.pwState = .idle → s.now.toNat + s.params.pwMarginMs.toNat < s.nextPassTime.toNat →
      exec .pwTick s = .next { s.succeeded with result0 := 0, result1 := 0 }) ∧
    (s.pwState = .active → s.now.toNat < s.nextPassTime.toNat + s.params.pwDurationMs.toNat →
      exec .pwTick s = .next { s.succeeded with result0 := 1, result1 := 0 }) ∧
    (s.pwState = .active → s.nextPassTime.toNat + s.params.pwDurationMs.toNat ≤ s.now.toNat →
      ∃ t, exec .pwTick s = .next t ∧
        t = { s.succeeded with
          pwState := .idle
          lastPassTime := s.nextPassTime
          nextPassTime := t.nextPassTime
          result0 := 0
          result1 := 2 } ∧
        t.nextPassTime.toNat = min (s.now.toNat + s.params.pwIntervalMs.toNat) 18446744073709551615)
end

