-- ==== Sys2Proof/Laws/State.lean ====
section
/-! SUPPORT. One lemma per field per update of State, each true by rfl, so that no proof unfolds a record update. -/

namespace Sys2Proof.Machine

section complete
variable (s : State) (c : ErrCode) (v : Bool)
@[simp] theorem State.complete_params : (s.complete c v).params = s.params := rfl
@[simp] theorem State.complete_ie : (s.complete c v).ie = s.ie := rfl
@[simp] theorem State.complete_done : (s.complete c v).done = true := rfl
@[simp] theorem State.complete_resValid : (s.complete c v).resValid = v := rfl
@[simp] theorem State.complete_ovr : (s.complete c v).ovr = s.ovr := rfl
@[simp] theorem State.complete_err : (s.complete c v).err = c.bits := rfl
@[simp] theorem State.complete_cmd : (s.complete c v).cmd = s.cmd := rfl
@[simp] theorem State.complete_pending : (s.complete c v).pending = none := rfl
@[simp] theorem State.complete_result0 : (s.complete c v).result0 = s.result0 := rfl
@[simp] theorem State.complete_result1 : (s.complete c v).result1 = s.result1 := rfl
@[simp] theorem State.complete_result2 : (s.complete c v).result2 = s.result2 := rfl
@[simp] theorem State.complete_result3 : (s.complete c v).result3 = s.result3 := rfl
@[simp] theorem State.complete_outLen : (s.complete c v).outLen = s.outLen := rfl
@[simp] theorem State.complete_now : (s.complete c v).now = s.now := rfl
@[simp] theorem State.complete_arg0 : (s.complete c v).arg0 = s.arg0 := rfl
@[simp] theorem State.complete_arg1 : (s.complete c v).arg1 = s.arg1 := rfl
@[simp] theorem State.complete_arg2 : (s.complete c v).arg2 = s.arg2 := rfl
@[simp] theorem State.complete_arg3 : (s.complete c v).arg3 = s.arg3 := rfl
@[simp] theorem State.complete_queue : (s.complete c v).queue = s.queue := rfl
@[simp] theorem State.complete_holdValid : (s.complete c v).holdValid = s.holdValid := rfl
@[simp] theorem State.complete_hold : (s.complete c v).hold = s.hold := rfl
@[simp] theorem State.complete_used : (s.complete c v).used = s.used := rfl
@[simp] theorem State.complete_windowStart : (s.complete c v).windowStart = s.windowStart := rfl
@[simp] theorem State.complete_pwState : (s.complete c v).pwState = s.pwState := rfl
@[simp] theorem State.complete_nextPassTime : (s.complete c v).nextPassTime = s.nextPassTime := rfl
@[simp] theorem State.complete_lastPassTime : (s.complete c v).lastPassTime = s.lastPassTime := rfl
@[simp] theorem State.complete_cntQfull : (s.complete c v).cntQfull = s.cntQfull := rfl
@[simp] theorem State.complete_cntDfail : (s.complete c v).cntDfail = s.cntDfail := rfl
@[simp] theorem State.complete_cntExpired : (s.complete c v).cntExpired = s.cntExpired := rfl
@[simp] theorem State.complete_mem : (s.complete c v).mem = s.mem := rfl
@[simp] theorem State.complete_boots : (s.complete c v).boots = s.boots := rfl
@[simp] theorem State.complete_inbox : (s.complete c v).inbox = s.inbox := rfl
@[simp] theorem State.complete_rdata : (s.complete c v).rdata = s.rdata := rfl
end complete

section setResult0
variable (s : State) (v : Word)
@[simp] theorem State.setResult0_params : (s.setResult0 v).params = s.params := rfl
@[simp] theorem State.setResult0_ie : (s.setResult0 v).ie = s.ie := rfl
@[simp] theorem State.setResult0_done : (s.setResult0 v).done = s.done := rfl
@[simp] theorem State.setResult0_resValid : (s.setResult0 v).resValid = s.resValid := rfl
@[simp] theorem State.setResult0_ovr : (s.setResult0 v).ovr = s.ovr := rfl
@[simp] theorem State.setResult0_err : (s.setResult0 v).err = s.err := rfl
@[simp] theorem State.setResult0_cmd : (s.setResult0 v).cmd = s.cmd := rfl
@[simp] theorem State.setResult0_pending : (s.setResult0 v).pending = s.pending := rfl
@[simp] theorem State.setResult0_result0 : (s.setResult0 v).result0 = v := rfl
@[simp] theorem State.setResult0_result1 : (s.setResult0 v).result1 = s.result1 := rfl
@[simp] theorem State.setResult0_result2 : (s.setResult0 v).result2 = s.result2 := rfl
@[simp] theorem State.setResult0_result3 : (s.setResult0 v).result3 = s.result3 := rfl
@[simp] theorem State.setResult0_outLen : (s.setResult0 v).outLen = s.outLen := rfl
@[simp] theorem State.setResult0_now : (s.setResult0 v).now = s.now := rfl
@[simp] theorem State.setResult0_arg0 : (s.setResult0 v).arg0 = s.arg0 := rfl
@[simp] theorem State.setResult0_arg1 : (s.setResult0 v).arg1 = s.arg1 := rfl
@[simp] theorem State.setResult0_arg2 : (s.setResult0 v).arg2 = s.arg2 := rfl
@[simp] theorem State.setResult0_arg3 : (s.setResult0 v).arg3 = s.arg3 := rfl
@[simp] theorem State.setResult0_queue : (s.setResult0 v).queue = s.queue := rfl
@[simp] theorem State.setResult0_holdValid : (s.setResult0 v).holdValid = s.holdValid := rfl
@[simp] theorem State.setResult0_hold : (s.setResult0 v).hold = s.hold := rfl
@[simp] theorem State.setResult0_used : (s.setResult0 v).used = s.used := rfl
@[simp] theorem State.setResult0_windowStart : (s.setResult0 v).windowStart = s.windowStart := rfl
@[simp] theorem State.setResult0_pwState : (s.setResult0 v).pwState = s.pwState := rfl
@[simp] theorem State.setResult0_nextPassTime : (s.setResult0 v).nextPassTime = s.nextPassTime := rfl
@[simp] theorem State.setResult0_lastPassTime : (s.setResult0 v).lastPassTime = s.lastPassTime := rfl
@[simp] theorem State.setResult0_cntQfull : (s.setResult0 v).cntQfull = s.cntQfull := rfl
@[simp] theorem State.setResult0_cntDfail : (s.setResult0 v).cntDfail = s.cntDfail := rfl
@[simp] theorem State.setResult0_cntExpired : (s.setResult0 v).cntExpired = s.cntExpired := rfl
@[simp] theorem State.setResult0_mem : (s.setResult0 v).mem = s.mem := rfl
@[simp] theorem State.setResult0_boots : (s.setResult0 v).boots = s.boots := rfl
@[simp] theorem State.setResult0_inbox : (s.setResult0 v).inbox = s.inbox := rfl
@[simp] theorem State.setResult0_rdata : (s.setResult0 v).rdata = s.rdata := rfl
end setResult0

section setResult1
variable (s : State) (v : Word)
@[simp] theorem State.setResult1_params : (s.setResult1 v).params = s.params := rfl
@[simp] theorem State.setResult1_ie : (s.setResult1 v).ie = s.ie := rfl
@[simp] theorem State.setResult1_done : (s.setResult1 v).done = s.done := rfl
@[simp] theorem State.setResult1_resValid : (s.setResult1 v).resValid = s.resValid := rfl
@[simp] theorem State.setResult1_ovr : (s.setResult1 v).ovr = s.ovr := rfl
@[simp] theorem State.setResult1_err : (s.setResult1 v).err = s.err := rfl
@[simp] theorem State.setResult1_cmd : (s.setResult1 v).cmd = s.cmd := rfl
@[simp] theorem State.setResult1_pending : (s.setResult1 v).pending = s.pending := rfl
@[simp] theorem State.setResult1_result0 : (s.setResult1 v).result0 = s.result0 := rfl
@[simp] theorem State.setResult1_result1 : (s.setResult1 v).result1 = v := rfl
@[simp] theorem State.setResult1_result2 : (s.setResult1 v).result2 = s.result2 := rfl
@[simp] theorem State.setResult1_result3 : (s.setResult1 v).result3 = s.result3 := rfl
@[simp] theorem State.setResult1_outLen : (s.setResult1 v).outLen = s.outLen := rfl
@[simp] theorem State.setResult1_now : (s.setResult1 v).now = s.now := rfl
@[simp] theorem State.setResult1_arg0 : (s.setResult1 v).arg0 = s.arg0 := rfl
@[simp] theorem State.setResult1_arg1 : (s.setResult1 v).arg1 = s.arg1 := rfl
@[simp] theorem State.setResult1_arg2 : (s.setResult1 v).arg2 = s.arg2 := rfl
@[simp] theorem State.setResult1_arg3 : (s.setResult1 v).arg3 = s.arg3 := rfl
@[simp] theorem State.setResult1_queue : (s.setResult1 v).queue = s.queue := rfl
@[simp] theorem State.setResult1_holdValid : (s.setResult1 v).holdValid = s.holdValid := rfl
@[simp] theorem State.setResult1_hold : (s.setResult1 v).hold = s.hold := rfl
@[simp] theorem State.setResult1_used : (s.setResult1 v).used = s.used := rfl
@[simp] theorem State.setResult1_windowStart : (s.setResult1 v).windowStart = s.windowStart := rfl
@[simp] theorem State.setResult1_pwState : (s.setResult1 v).pwState = s.pwState := rfl
@[simp] theorem State.setResult1_nextPassTime : (s.setResult1 v).nextPassTime = s.nextPassTime := rfl
@[simp] theorem State.setResult1_lastPassTime : (s.setResult1 v).lastPassTime = s.lastPassTime := rfl
@[simp] theorem State.setResult1_cntQfull : (s.setResult1 v).cntQfull = s.cntQfull := rfl
@[simp] theorem State.setResult1_cntDfail : (s.setResult1 v).cntDfail = s.cntDfail := rfl
@[simp] theorem State.setResult1_cntExpired : (s.setResult1 v).cntExpired = s.cntExpired := rfl
@[simp] theorem State.setResult1_mem : (s.setResult1 v).mem = s.mem := rfl
@[simp] theorem State.setResult1_boots : (s.setResult1 v).boots = s.boots := rfl
@[simp] theorem State.setResult1_inbox : (s.setResult1 v).inbox = s.inbox := rfl
@[simp] theorem State.setResult1_rdata : (s.setResult1 v).rdata = s.rdata := rfl
end setResult1

section setResults
variable (s : State) (a b c d : Word)
@[simp] theorem State.setResults_params : (s.setResults a b c d).params = s.params := rfl
@[simp] theorem State.setResults_ie : (s.setResults a b c d).ie = s.ie := rfl
@[simp] theorem State.setResults_done : (s.setResults a b c d).done = s.done := rfl
@[simp] theorem State.setResults_resValid : (s.setResults a b c d).resValid = s.resValid := rfl
@[simp] theorem State.setResults_ovr : (s.setResults a b c d).ovr = s.ovr := rfl
@[simp] theorem State.setResults_err : (s.setResults a b c d).err = s.err := rfl
@[simp] theorem State.setResults_cmd : (s.setResults a b c d).cmd = s.cmd := rfl
@[simp] theorem State.setResults_pending : (s.setResults a b c d).pending = s.pending := rfl
@[simp] theorem State.setResults_result0 : (s.setResults a b c d).result0 = a := rfl
@[simp] theorem State.setResults_result1 : (s.setResults a b c d).result1 = b := rfl
@[simp] theorem State.setResults_result2 : (s.setResults a b c d).result2 = c := rfl
@[simp] theorem State.setResults_result3 : (s.setResults a b c d).result3 = d := rfl
@[simp] theorem State.setResults_outLen : (s.setResults a b c d).outLen = s.outLen := rfl
@[simp] theorem State.setResults_now : (s.setResults a b c d).now = s.now := rfl
@[simp] theorem State.setResults_arg0 : (s.setResults a b c d).arg0 = s.arg0 := rfl
@[simp] theorem State.setResults_arg1 : (s.setResults a b c d).arg1 = s.arg1 := rfl
@[simp] theorem State.setResults_arg2 : (s.setResults a b c d).arg2 = s.arg2 := rfl
@[simp] theorem State.setResults_arg3 : (s.setResults a b c d).arg3 = s.arg3 := rfl
@[simp] theorem State.setResults_queue : (s.setResults a b c d).queue = s.queue := rfl
@[simp] theorem State.setResults_holdValid : (s.setResults a b c d).holdValid = s.holdValid := rfl
@[simp] theorem State.setResults_hold : (s.setResults a b c d).hold = s.hold := rfl
@[simp] theorem State.setResults_used : (s.setResults a b c d).used = s.used := rfl
@[simp] theorem State.setResults_windowStart : (s.setResults a b c d).windowStart = s.windowStart := rfl
@[simp] theorem State.setResults_pwState : (s.setResults a b c d).pwState = s.pwState := rfl
@[simp] theorem State.setResults_nextPassTime : (s.setResults a b c d).nextPassTime = s.nextPassTime := rfl
@[simp] theorem State.setResults_lastPassTime : (s.setResults a b c d).lastPassTime = s.lastPassTime := rfl
@[simp] theorem State.setResults_cntQfull : (s.setResults a b c d).cntQfull = s.cntQfull := rfl
@[simp] theorem State.setResults_cntDfail : (s.setResults a b c d).cntDfail = s.cntDfail := rfl
@[simp] theorem State.setResults_cntExpired : (s.setResults a b c d).cntExpired = s.cntExpired := rfl
@[simp] theorem State.setResults_mem : (s.setResults a b c d).mem = s.mem := rfl
@[simp] theorem State.setResults_boots : (s.setResults a b c d).boots = s.boots := rfl
@[simp] theorem State.setResults_inbox : (s.setResults a b c d).inbox = s.inbox := rfl
@[simp] theorem State.setResults_rdata : (s.setResults a b c d).rdata = s.rdata := rfl
end setResults

section putOut
variable (s : State) (bs : List Byte)
@[simp] theorem State.putOut_params : (s.putOut bs).params = s.params := rfl
@[simp] theorem State.putOut_ie : (s.putOut bs).ie = s.ie := rfl
@[simp] theorem State.putOut_done : (s.putOut bs).done = s.done := rfl
@[simp] theorem State.putOut_resValid : (s.putOut bs).resValid = s.resValid := rfl
@[simp] theorem State.putOut_ovr : (s.putOut bs).ovr = s.ovr := rfl
@[simp] theorem State.putOut_err : (s.putOut bs).err = s.err := rfl
@[simp] theorem State.putOut_cmd : (s.putOut bs).cmd = s.cmd := rfl
@[simp] theorem State.putOut_pending : (s.putOut bs).pending = s.pending := rfl
@[simp] theorem State.putOut_result0 : (s.putOut bs).result0 = s.result0 := rfl
@[simp] theorem State.putOut_result1 : (s.putOut bs).result1 = s.result1 := rfl
@[simp] theorem State.putOut_result2 : (s.putOut bs).result2 = s.result2 := rfl
@[simp] theorem State.putOut_result3 : (s.putOut bs).result3 = s.result3 := rfl
@[simp] theorem State.putOut_outLen : (s.putOut bs).outLen = BitVec.ofNat 12 bs.length := rfl
@[simp] theorem State.putOut_now : (s.putOut bs).now = s.now := rfl
@[simp] theorem State.putOut_arg0 : (s.putOut bs).arg0 = s.arg0 := rfl
@[simp] theorem State.putOut_arg1 : (s.putOut bs).arg1 = s.arg1 := rfl
@[simp] theorem State.putOut_arg2 : (s.putOut bs).arg2 = s.arg2 := rfl
@[simp] theorem State.putOut_arg3 : (s.putOut bs).arg3 = s.arg3 := rfl
@[simp] theorem State.putOut_queue : (s.putOut bs).queue = s.queue := rfl
@[simp] theorem State.putOut_holdValid : (s.putOut bs).holdValid = s.holdValid := rfl
@[simp] theorem State.putOut_hold : (s.putOut bs).hold = s.hold := rfl
@[simp] theorem State.putOut_used : (s.putOut bs).used = s.used := rfl
@[simp] theorem State.putOut_windowStart : (s.putOut bs).windowStart = s.windowStart := rfl
@[simp] theorem State.putOut_pwState : (s.putOut bs).pwState = s.pwState := rfl
@[simp] theorem State.putOut_nextPassTime : (s.putOut bs).nextPassTime = s.nextPassTime := rfl
@[simp] theorem State.putOut_lastPassTime : (s.putOut bs).lastPassTime = s.lastPassTime := rfl
@[simp] theorem State.putOut_cntQfull : (s.putOut bs).cntQfull = s.cntQfull := rfl
@[simp] theorem State.putOut_cntDfail : (s.putOut bs).cntDfail = s.cntDfail := rfl
@[simp] theorem State.putOut_cntExpired : (s.putOut bs).cntExpired = s.cntExpired := rfl
@[simp] theorem State.putOut_mem : (s.putOut bs).mem = Memory.writeBytes s.mem Config.bufOutBase bs := rfl
@[simp] theorem State.putOut_boots : (s.putOut bs).boots = s.boots := rfl
@[simp] theorem State.putOut_inbox : (s.putOut bs).inbox = s.inbox := rfl
@[simp] theorem State.putOut_rdata : (s.putOut bs).rdata = s.rdata := rfl
end putOut

section putIn
variable (s : State) (a : Nat) (bs : List Byte)
@[simp] theorem State.putIn_params : (s.putIn a bs).params = s.params := rfl
@[simp] theorem State.putIn_ie : (s.putIn a bs).ie = s.ie := rfl
@[simp] theorem State.putIn_done : (s.putIn a bs).done = s.done := rfl
@[simp] theorem State.putIn_resValid : (s.putIn a bs).resValid = s.resValid := rfl
@[simp] theorem State.putIn_ovr : (s.putIn a bs).ovr = s.ovr := rfl
@[simp] theorem State.putIn_err : (s.putIn a bs).err = s.err := rfl
@[simp] theorem State.putIn_cmd : (s.putIn a bs).cmd = s.cmd := rfl
@[simp] theorem State.putIn_pending : (s.putIn a bs).pending = s.pending := rfl
@[simp] theorem State.putIn_result0 : (s.putIn a bs).result0 = s.result0 := rfl
@[simp] theorem State.putIn_result1 : (s.putIn a bs).result1 = s.result1 := rfl
@[simp] theorem State.putIn_result2 : (s.putIn a bs).result2 = s.result2 := rfl
@[simp] theorem State.putIn_result3 : (s.putIn a bs).result3 = s.result3 := rfl
@[simp] theorem State.putIn_outLen : (s.putIn a bs).outLen = s.outLen := rfl
@[simp] theorem State.putIn_now : (s.putIn a bs).now = s.now := rfl
@[simp] theorem State.putIn_arg0 : (s.putIn a bs).arg0 = s.arg0 := rfl
@[simp] theorem State.putIn_arg1 : (s.putIn a bs).arg1 = s.arg1 := rfl
@[simp] theorem State.putIn_arg2 : (s.putIn a bs).arg2 = s.arg2 := rfl
@[simp] theorem State.putIn_arg3 : (s.putIn a bs).arg3 = s.arg3 := rfl
@[simp] theorem State.putIn_queue : (s.putIn a bs).queue = s.queue := rfl
@[simp] theorem State.putIn_holdValid : (s.putIn a bs).holdValid = s.holdValid := rfl
@[simp] theorem State.putIn_hold : (s.putIn a bs).hold = s.hold := rfl
@[simp] theorem State.putIn_used : (s.putIn a bs).used = s.used := rfl
@[simp] theorem State.putIn_windowStart : (s.putIn a bs).windowStart = s.windowStart := rfl
@[simp] theorem State.putIn_pwState : (s.putIn a bs).pwState = s.pwState := rfl
@[simp] theorem State.putIn_nextPassTime : (s.putIn a bs).nextPassTime = s.nextPassTime := rfl
@[simp] theorem State.putIn_lastPassTime : (s.putIn a bs).lastPassTime = s.lastPassTime := rfl
@[simp] theorem State.putIn_cntQfull : (s.putIn a bs).cntQfull = s.cntQfull := rfl
@[simp] theorem State.putIn_cntDfail : (s.putIn a bs).cntDfail = s.cntDfail := rfl
@[simp] theorem State.putIn_cntExpired : (s.putIn a bs).cntExpired = s.cntExpired := rfl
@[simp] theorem State.putIn_mem : (s.putIn a bs).mem = Memory.writeBytes s.mem a bs := rfl
@[simp] theorem State.putIn_boots : (s.putIn a bs).boots = s.boots := rfl
@[simp] theorem State.putIn_inbox : (s.putIn a bs).inbox = s.inbox := rfl
@[simp] theorem State.putIn_rdata : (s.putIn a bs).rdata = s.rdata := rfl
end putIn

section setQueue
variable (s : State) (q : List QEntry)
@[simp] theorem State.setQueue_params : (s.setQueue q).params = s.params := rfl
@[simp] theorem State.setQueue_ie : (s.setQueue q).ie = s.ie := rfl
@[simp] theorem State.setQueue_done : (s.setQueue q).done = s.done := rfl
@[simp] theorem State.setQueue_resValid : (s.setQueue q).resValid = s.resValid := rfl
@[simp] theorem State.setQueue_ovr : (s.setQueue q).ovr = s.ovr := rfl
@[simp] theorem State.setQueue_err : (s.setQueue q).err = s.err := rfl
@[simp] theorem State.setQueue_cmd : (s.setQueue q).cmd = s.cmd := rfl
@[simp] theorem State.setQueue_pending : (s.setQueue q).pending = s.pending := rfl
@[simp] theorem State.setQueue_result0 : (s.setQueue q).result0 = s.result0 := rfl
@[simp] theorem State.setQueue_result1 : (s.setQueue q).result1 = s.result1 := rfl
@[simp] theorem State.setQueue_result2 : (s.setQueue q).result2 = s.result2 := rfl
@[simp] theorem State.setQueue_result3 : (s.setQueue q).result3 = s.result3 := rfl
@[simp] theorem State.setQueue_outLen : (s.setQueue q).outLen = s.outLen := rfl
@[simp] theorem State.setQueue_now : (s.setQueue q).now = s.now := rfl
@[simp] theorem State.setQueue_arg0 : (s.setQueue q).arg0 = s.arg0 := rfl
@[simp] theorem State.setQueue_arg1 : (s.setQueue q).arg1 = s.arg1 := rfl
@[simp] theorem State.setQueue_arg2 : (s.setQueue q).arg2 = s.arg2 := rfl
@[simp] theorem State.setQueue_arg3 : (s.setQueue q).arg3 = s.arg3 := rfl
@[simp] theorem State.setQueue_queue : (s.setQueue q).queue = q := rfl
@[simp] theorem State.setQueue_holdValid : (s.setQueue q).holdValid = s.holdValid := rfl
@[simp] theorem State.setQueue_hold : (s.setQueue q).hold = s.hold := rfl
@[simp] theorem State.setQueue_used : (s.setQueue q).used = s.used := rfl
@[simp] theorem State.setQueue_windowStart : (s.setQueue q).windowStart = s.windowStart := rfl
@[simp] theorem State.setQueue_pwState : (s.setQueue q).pwState = s.pwState := rfl
@[simp] theorem State.setQueue_nextPassTime : (s.setQueue q).nextPassTime = s.nextPassTime := rfl
@[simp] theorem State.setQueue_lastPassTime : (s.setQueue q).lastPassTime = s.lastPassTime := rfl
@[simp] theorem State.setQueue_cntQfull : (s.setQueue q).cntQfull = s.cntQfull := rfl
@[simp] theorem State.setQueue_cntDfail : (s.setQueue q).cntDfail = s.cntDfail := rfl
@[simp] theorem State.setQueue_cntExpired : (s.setQueue q).cntExpired = s.cntExpired := rfl
@[simp] theorem State.setQueue_mem : (s.setQueue q).mem = s.mem := rfl
@[simp] theorem State.setQueue_boots : (s.setQueue q).boots = s.boots := rfl
@[simp] theorem State.setQueue_inbox : (s.setQueue q).inbox = s.inbox := rfl
@[simp] theorem State.setQueue_rdata : (s.setQueue q).rdata = s.rdata := rfl
end setQueue

section setHold
variable (s : State) (e : QEntry)
@[simp] theorem State.setHold_params : (s.setHold e).params = s.params := rfl
@[simp] theorem State.setHold_ie : (s.setHold e).ie = s.ie := rfl
@[simp] theorem State.setHold_done : (s.setHold e).done = s.done := rfl
@[simp] theorem State.setHold_resValid : (s.setHold e).resValid = s.resValid := rfl
@[simp] theorem State.setHold_ovr : (s.setHold e).ovr = s.ovr := rfl
@[simp] theorem State.setHold_err : (s.setHold e).err = s.err := rfl
@[simp] theorem State.setHold_cmd : (s.setHold e).cmd = s.cmd := rfl
@[simp] theorem State.setHold_pending : (s.setHold e).pending = s.pending := rfl
@[simp] theorem State.setHold_result0 : (s.setHold e).result0 = s.result0 := rfl
@[simp] theorem State.setHold_result1 : (s.setHold e).result1 = s.result1 := rfl
@[simp] theorem State.setHold_result2 : (s.setHold e).result2 = s.result2 := rfl
@[simp] theorem State.setHold_result3 : (s.setHold e).result3 = s.result3 := rfl
@[simp] theorem State.setHold_outLen : (s.setHold e).outLen = s.outLen := rfl
@[simp] theorem State.setHold_now : (s.setHold e).now = s.now := rfl
@[simp] theorem State.setHold_arg0 : (s.setHold e).arg0 = s.arg0 := rfl
@[simp] theorem State.setHold_arg1 : (s.setHold e).arg1 = s.arg1 := rfl
@[simp] theorem State.setHold_arg2 : (s.setHold e).arg2 = s.arg2 := rfl
@[simp] theorem State.setHold_arg3 : (s.setHold e).arg3 = s.arg3 := rfl
@[simp] theorem State.setHold_queue : (s.setHold e).queue = s.queue := rfl
@[simp] theorem State.setHold_holdValid : (s.setHold e).holdValid = true := rfl
@[simp] theorem State.setHold_hold : (s.setHold e).hold = e := rfl
@[simp] theorem State.setHold_used : (s.setHold e).used = s.used := rfl
@[simp] theorem State.setHold_windowStart : (s.setHold e).windowStart = s.windowStart := rfl
@[simp] theorem State.setHold_pwState : (s.setHold e).pwState = s.pwState := rfl
@[simp] theorem State.setHold_nextPassTime : (s.setHold e).nextPassTime = s.nextPassTime := rfl
@[simp] theorem State.setHold_lastPassTime : (s.setHold e).lastPassTime = s.lastPassTime := rfl
@[simp] theorem State.setHold_cntQfull : (s.setHold e).cntQfull = s.cntQfull := rfl
@[simp] theorem State.setHold_cntDfail : (s.setHold e).cntDfail = s.cntDfail := rfl
@[simp] theorem State.setHold_cntExpired : (s.setHold e).cntExpired = s.cntExpired := rfl
@[simp] theorem State.setHold_mem : (s.setHold e).mem = s.mem := rfl
@[simp] theorem State.setHold_boots : (s.setHold e).boots = s.boots := rfl
@[simp] theorem State.setHold_inbox : (s.setHold e).inbox = s.inbox := rfl
@[simp] theorem State.setHold_rdata : (s.setHold e).rdata = s.rdata := rfl
end setHold

section releaseHold
variable (s : State)
@[simp] theorem State.releaseHold_params : s.releaseHold.params = s.params := rfl
@[simp] theorem State.releaseHold_ie : s.releaseHold.ie = s.ie := rfl
@[simp] theorem State.releaseHold_done : s.releaseHold.done = s.done := rfl
@[simp] theorem State.releaseHold_resValid : s.releaseHold.resValid = s.resValid := rfl
@[simp] theorem State.releaseHold_ovr : s.releaseHold.ovr = s.ovr := rfl
@[simp] theorem State.releaseHold_err : s.releaseHold.err = s.err := rfl
@[simp] theorem State.releaseHold_cmd : s.releaseHold.cmd = s.cmd := rfl
@[simp] theorem State.releaseHold_pending : s.releaseHold.pending = s.pending := rfl
@[simp] theorem State.releaseHold_result0 : s.releaseHold.result0 = s.result0 := rfl
@[simp] theorem State.releaseHold_result1 : s.releaseHold.result1 = s.result1 := rfl
@[simp] theorem State.releaseHold_result2 : s.releaseHold.result2 = s.result2 := rfl
@[simp] theorem State.releaseHold_result3 : s.releaseHold.result3 = s.result3 := rfl
@[simp] theorem State.releaseHold_outLen : s.releaseHold.outLen = s.outLen := rfl
@[simp] theorem State.releaseHold_now : s.releaseHold.now = s.now := rfl
@[simp] theorem State.releaseHold_arg0 : s.releaseHold.arg0 = s.arg0 := rfl
@[simp] theorem State.releaseHold_arg1 : s.releaseHold.arg1 = s.arg1 := rfl
@[simp] theorem State.releaseHold_arg2 : s.releaseHold.arg2 = s.arg2 := rfl
@[simp] theorem State.releaseHold_arg3 : s.releaseHold.arg3 = s.arg3 := rfl
@[simp] theorem State.releaseHold_queue : s.releaseHold.queue = s.queue := rfl
@[simp] theorem State.releaseHold_holdValid : s.releaseHold.holdValid = false := rfl
@[simp] theorem State.releaseHold_hold : s.releaseHold.hold = s.hold := rfl
@[simp] theorem State.releaseHold_used : s.releaseHold.used = s.used := rfl
@[simp] theorem State.releaseHold_windowStart : s.releaseHold.windowStart = s.windowStart := rfl
@[simp] theorem State.releaseHold_pwState : s.releaseHold.pwState = s.pwState := rfl
@[simp] theorem State.releaseHold_nextPassTime : s.releaseHold.nextPassTime = s.nextPassTime := rfl
@[simp] theorem State.releaseHold_lastPassTime : s.releaseHold.lastPassTime = s.lastPassTime := rfl
@[simp] theorem State.releaseHold_cntQfull : s.releaseHold.cntQfull = s.cntQfull := rfl
@[simp] theorem State.releaseHold_cntDfail : s.releaseHold.cntDfail = s.cntDfail := rfl
@[simp] theorem State.releaseHold_cntExpired : s.releaseHold.cntExpired = s.cntExpired := rfl
@[simp] theorem State.releaseHold_mem : s.releaseHold.mem = s.mem := rfl
@[simp] theorem State.releaseHold_boots : s.releaseHold.boots = s.boots := rfl
@[simp] theorem State.releaseHold_inbox : s.releaseHold.inbox = s.inbox := rfl
@[simp] theorem State.releaseHold_rdata : s.releaseHold.rdata = s.rdata := rfl
end releaseHold

section setBudget
variable (s : State) (u : Word) (w : DWord)
@[simp] theorem State.setBudget_params : (s.setBudget u w).params = s.params := rfl
@[simp] theorem State.setBudget_ie : (s.setBudget u w).ie = s.ie := rfl
@[simp] theorem State.setBudget_done : (s.setBudget u w).done = s.done := rfl
@[simp] theorem State.setBudget_resValid : (s.setBudget u w).resValid = s.resValid := rfl
@[simp] theorem State.setBudget_ovr : (s.setBudget u w).ovr = s.ovr := rfl
@[simp] theorem State.setBudget_err : (s.setBudget u w).err = s.err := rfl
@[simp] theorem State.setBudget_cmd : (s.setBudget u w).cmd = s.cmd := rfl
@[simp] theorem State.setBudget_pending : (s.setBudget u w).pending = s.pending := rfl
@[simp] theorem State.setBudget_result0 : (s.setBudget u w).result0 = s.result0 := rfl
@[simp] theorem State.setBudget_result1 : (s.setBudget u w).result1 = s.result1 := rfl
@[simp] theorem State.setBudget_result2 : (s.setBudget u w).result2 = s.result2 := rfl
@[simp] theorem State.setBudget_result3 : (s.setBudget u w).result3 = s.result3 := rfl
@[simp] theorem State.setBudget_outLen : (s.setBudget u w).outLen = s.outLen := rfl
@[simp] theorem State.setBudget_now : (s.setBudget u w).now = s.now := rfl
@[simp] theorem State.setBudget_arg0 : (s.setBudget u w).arg0 = s.arg0 := rfl
@[simp] theorem State.setBudget_arg1 : (s.setBudget u w).arg1 = s.arg1 := rfl
@[simp] theorem State.setBudget_arg2 : (s.setBudget u w).arg2 = s.arg2 := rfl
@[simp] theorem State.setBudget_arg3 : (s.setBudget u w).arg3 = s.arg3 := rfl
@[simp] theorem State.setBudget_queue : (s.setBudget u w).queue = s.queue := rfl
@[simp] theorem State.setBudget_holdValid : (s.setBudget u w).holdValid = s.holdValid := rfl
@[simp] theorem State.setBudget_hold : (s.setBudget u w).hold = s.hold := rfl
@[simp] theorem State.setBudget_used : (s.setBudget u w).used = u := rfl
@[simp] theorem State.setBudget_windowStart : (s.setBudget u w).windowStart = w := rfl
@[simp] theorem State.setBudget_pwState : (s.setBudget u w).pwState = s.pwState := rfl
@[simp] theorem State.setBudget_nextPassTime : (s.setBudget u w).nextPassTime = s.nextPassTime := rfl
@[simp] theorem State.setBudget_lastPassTime : (s.setBudget u w).lastPassTime = s.lastPassTime := rfl
@[simp] theorem State.setBudget_cntQfull : (s.setBudget u w).cntQfull = s.cntQfull := rfl
@[simp] theorem State.setBudget_cntDfail : (s.setBudget u w).cntDfail = s.cntDfail := rfl
@[simp] theorem State.setBudget_cntExpired : (s.setBudget u w).cntExpired = s.cntExpired := rfl
@[simp] theorem State.setBudget_mem : (s.setBudget u w).mem = s.mem := rfl
@[simp] theorem State.setBudget_boots : (s.setBudget u w).boots = s.boots := rfl
@[simp] theorem State.setBudget_inbox : (s.setBudget u w).inbox = s.inbox := rfl
@[simp] theorem State.setBudget_rdata : (s.setBudget u w).rdata = s.rdata := rfl
end setBudget

section setPass
variable (s : State) (st : PwState) (n l : DWord)
@[simp] theorem State.setPass_params : (s.setPass st n l).params = s.params := rfl
@[simp] theorem State.setPass_ie : (s.setPass st n l).ie = s.ie := rfl
@[simp] theorem State.setPass_done : (s.setPass st n l).done = s.done := rfl
@[simp] theorem State.setPass_resValid : (s.setPass st n l).resValid = s.resValid := rfl
@[simp] theorem State.setPass_ovr : (s.setPass st n l).ovr = s.ovr := rfl
@[simp] theorem State.setPass_err : (s.setPass st n l).err = s.err := rfl
@[simp] theorem State.setPass_cmd : (s.setPass st n l).cmd = s.cmd := rfl
@[simp] theorem State.setPass_pending : (s.setPass st n l).pending = s.pending := rfl
@[simp] theorem State.setPass_result0 : (s.setPass st n l).result0 = s.result0 := rfl
@[simp] theorem State.setPass_result1 : (s.setPass st n l).result1 = s.result1 := rfl
@[simp] theorem State.setPass_result2 : (s.setPass st n l).result2 = s.result2 := rfl
@[simp] theorem State.setPass_result3 : (s.setPass st n l).result3 = s.result3 := rfl
@[simp] theorem State.setPass_outLen : (s.setPass st n l).outLen = s.outLen := rfl
@[simp] theorem State.setPass_now : (s.setPass st n l).now = s.now := rfl
@[simp] theorem State.setPass_arg0 : (s.setPass st n l).arg0 = s.arg0 := rfl
@[simp] theorem State.setPass_arg1 : (s.setPass st n l).arg1 = s.arg1 := rfl
@[simp] theorem State.setPass_arg2 : (s.setPass st n l).arg2 = s.arg2 := rfl
@[simp] theorem State.setPass_arg3 : (s.setPass st n l).arg3 = s.arg3 := rfl
@[simp] theorem State.setPass_queue : (s.setPass st n l).queue = s.queue := rfl
@[simp] theorem State.setPass_holdValid : (s.setPass st n l).holdValid = s.holdValid := rfl
@[simp] theorem State.setPass_hold : (s.setPass st n l).hold = s.hold := rfl
@[simp] theorem State.setPass_used : (s.setPass st n l).used = s.used := rfl
@[simp] theorem State.setPass_windowStart : (s.setPass st n l).windowStart = s.windowStart := rfl
@[simp] theorem State.setPass_pwState : (s.setPass st n l).pwState = st := rfl
@[simp] theorem State.setPass_nextPassTime : (s.setPass st n l).nextPassTime = n := rfl
@[simp] theorem State.setPass_lastPassTime : (s.setPass st n l).lastPassTime = l := rfl
@[simp] theorem State.setPass_cntQfull : (s.setPass st n l).cntQfull = s.cntQfull := rfl
@[simp] theorem State.setPass_cntDfail : (s.setPass st n l).cntDfail = s.cntDfail := rfl
@[simp] theorem State.setPass_cntExpired : (s.setPass st n l).cntExpired = s.cntExpired := rfl
@[simp] theorem State.setPass_mem : (s.setPass st n l).mem = s.mem := rfl
@[simp] theorem State.setPass_boots : (s.setPass st n l).boots = s.boots := rfl
@[simp] theorem State.setPass_inbox : (s.setPass st n l).inbox = s.inbox := rfl
@[simp] theorem State.setPass_rdata : (s.setPass st n l).rdata = s.rdata := rfl
end setPass

section countQfull
variable (s : State)
@[simp] theorem State.countQfull_params : s.countQfull.params = s.params := rfl
@[simp] theorem State.countQfull_ie : s.countQfull.ie = s.ie := rfl
@[simp] theorem State.countQfull_done : s.countQfull.done = s.done := rfl
@[simp] theorem State.countQfull_resValid : s.countQfull.resValid = s.resValid := rfl
@[simp] theorem State.countQfull_ovr : s.countQfull.ovr = s.ovr := rfl
@[simp] theorem State.countQfull_err : s.countQfull.err = s.err := rfl
@[simp] theorem State.countQfull_cmd : s.countQfull.cmd = s.cmd := rfl
@[simp] theorem State.countQfull_pending : s.countQfull.pending = s.pending := rfl
@[simp] theorem State.countQfull_result0 : s.countQfull.result0 = s.result0 := rfl
@[simp] theorem State.countQfull_result1 : s.countQfull.result1 = s.result1 := rfl
@[simp] theorem State.countQfull_result2 : s.countQfull.result2 = s.result2 := rfl
@[simp] theorem State.countQfull_result3 : s.countQfull.result3 = s.result3 := rfl
@[simp] theorem State.countQfull_outLen : s.countQfull.outLen = s.outLen := rfl
@[simp] theorem State.countQfull_now : s.countQfull.now = s.now := rfl
@[simp] theorem State.countQfull_arg0 : s.countQfull.arg0 = s.arg0 := rfl
@[simp] theorem State.countQfull_arg1 : s.countQfull.arg1 = s.arg1 := rfl
@[simp] theorem State.countQfull_arg2 : s.countQfull.arg2 = s.arg2 := rfl
@[simp] theorem State.countQfull_arg3 : s.countQfull.arg3 = s.arg3 := rfl
@[simp] theorem State.countQfull_queue : s.countQfull.queue = s.queue := rfl
@[simp] theorem State.countQfull_holdValid : s.countQfull.holdValid = s.holdValid := rfl
@[simp] theorem State.countQfull_hold : s.countQfull.hold = s.hold := rfl
@[simp] theorem State.countQfull_used : s.countQfull.used = s.used := rfl
@[simp] theorem State.countQfull_windowStart : s.countQfull.windowStart = s.windowStart := rfl
@[simp] theorem State.countQfull_pwState : s.countQfull.pwState = s.pwState := rfl
@[simp] theorem State.countQfull_nextPassTime : s.countQfull.nextPassTime = s.nextPassTime := rfl
@[simp] theorem State.countQfull_lastPassTime : s.countQfull.lastPassTime = s.lastPassTime := rfl
@[simp] theorem State.countQfull_cntQfull : s.countQfull.cntQfull = s.cntQfull + 1 := rfl
@[simp] theorem State.countQfull_cntDfail : s.countQfull.cntDfail = s.cntDfail := rfl
@[simp] theorem State.countQfull_cntExpired : s.countQfull.cntExpired = s.cntExpired := rfl
@[simp] theorem State.countQfull_mem : s.countQfull.mem = s.mem := rfl
@[simp] theorem State.countQfull_boots : s.countQfull.boots = s.boots := rfl
@[simp] theorem State.countQfull_inbox : s.countQfull.inbox = s.inbox := rfl
@[simp] theorem State.countQfull_rdata : s.countQfull.rdata = s.rdata := rfl
end countQfull

section countDfail
variable (s : State)
@[simp] theorem State.countDfail_params : s.countDfail.params = s.params := rfl
@[simp] theorem State.countDfail_ie : s.countDfail.ie = s.ie := rfl
@[simp] theorem State.countDfail_done : s.countDfail.done = s.done := rfl
@[simp] theorem State.countDfail_resValid : s.countDfail.resValid = s.resValid := rfl
@[simp] theorem State.countDfail_ovr : s.countDfail.ovr = s.ovr := rfl
@[simp] theorem State.countDfail_err : s.countDfail.err = s.err := rfl
@[simp] theorem State.countDfail_cmd : s.countDfail.cmd = s.cmd := rfl
@[simp] theorem State.countDfail_pending : s.countDfail.pending = s.pending := rfl
@[simp] theorem State.countDfail_result0 : s.countDfail.result0 = s.result0 := rfl
@[simp] theorem State.countDfail_result1 : s.countDfail.result1 = s.result1 := rfl
@[simp] theorem State.countDfail_result2 : s.countDfail.result2 = s.result2 := rfl
@[simp] theorem State.countDfail_result3 : s.countDfail.result3 = s.result3 := rfl
@[simp] theorem State.countDfail_outLen : s.countDfail.outLen = s.outLen := rfl
@[simp] theorem State.countDfail_now : s.countDfail.now = s.now := rfl
@[simp] theorem State.countDfail_arg0 : s.countDfail.arg0 = s.arg0 := rfl
@[simp] theorem State.countDfail_arg1 : s.countDfail.arg1 = s.arg1 := rfl
@[simp] theorem State.countDfail_arg2 : s.countDfail.arg2 = s.arg2 := rfl
@[simp] theorem State.countDfail_arg3 : s.countDfail.arg3 = s.arg3 := rfl
@[simp] theorem State.countDfail_queue : s.countDfail.queue = s.queue := rfl
@[simp] theorem State.countDfail_holdValid : s.countDfail.holdValid = s.holdValid := rfl
@[simp] theorem State.countDfail_hold : s.countDfail.hold = s.hold := rfl
@[simp] theorem State.countDfail_used : s.countDfail.used = s.used := rfl
@[simp] theorem State.countDfail_windowStart : s.countDfail.windowStart = s.windowStart := rfl
@[simp] theorem State.countDfail_pwState : s.countDfail.pwState = s.pwState := rfl
@[simp] theorem State.countDfail_nextPassTime : s.countDfail.nextPassTime = s.nextPassTime := rfl
@[simp] theorem State.countDfail_lastPassTime : s.countDfail.lastPassTime = s.lastPassTime := rfl
@[simp] theorem State.countDfail_cntQfull : s.countDfail.cntQfull = s.cntQfull := rfl
@[simp] theorem State.countDfail_cntDfail : s.countDfail.cntDfail = s.cntDfail + 1 := rfl
@[simp] theorem State.countDfail_cntExpired : s.countDfail.cntExpired = s.cntExpired := rfl
@[simp] theorem State.countDfail_mem : s.countDfail.mem = s.mem := rfl
@[simp] theorem State.countDfail_boots : s.countDfail.boots = s.boots := rfl
@[simp] theorem State.countDfail_inbox : s.countDfail.inbox = s.inbox := rfl
@[simp] theorem State.countDfail_rdata : s.countDfail.rdata = s.rdata := rfl
end countDfail

section countExpired
variable (s : State) (r : Nat)
@[simp] theorem State.countExpired_params : (s.countExpired r).params = s.params := rfl
@[simp] theorem State.countExpired_ie : (s.countExpired r).ie = s.ie := rfl
@[simp] theorem State.countExpired_done : (s.countExpired r).done = s.done := rfl
@[simp] theorem State.countExpired_resValid : (s.countExpired r).resValid = s.resValid := rfl
@[simp] theorem State.countExpired_ovr : (s.countExpired r).ovr = s.ovr := rfl
@[simp] theorem State.countExpired_err : (s.countExpired r).err = s.err := rfl
@[simp] theorem State.countExpired_cmd : (s.countExpired r).cmd = s.cmd := rfl
@[simp] theorem State.countExpired_pending : (s.countExpired r).pending = s.pending := rfl
@[simp] theorem State.countExpired_result0 : (s.countExpired r).result0 = s.result0 := rfl
@[simp] theorem State.countExpired_result1 : (s.countExpired r).result1 = s.result1 := rfl
@[simp] theorem State.countExpired_result2 : (s.countExpired r).result2 = s.result2 := rfl
@[simp] theorem State.countExpired_result3 : (s.countExpired r).result3 = s.result3 := rfl
@[simp] theorem State.countExpired_outLen : (s.countExpired r).outLen = s.outLen := rfl
@[simp] theorem State.countExpired_now : (s.countExpired r).now = s.now := rfl
@[simp] theorem State.countExpired_arg0 : (s.countExpired r).arg0 = s.arg0 := rfl
@[simp] theorem State.countExpired_arg1 : (s.countExpired r).arg1 = s.arg1 := rfl
@[simp] theorem State.countExpired_arg2 : (s.countExpired r).arg2 = s.arg2 := rfl
@[simp] theorem State.countExpired_arg3 : (s.countExpired r).arg3 = s.arg3 := rfl
@[simp] theorem State.countExpired_queue : (s.countExpired r).queue = s.queue := rfl
@[simp] theorem State.countExpired_holdValid : (s.countExpired r).holdValid = s.holdValid := rfl
@[simp] theorem State.countExpired_hold : (s.countExpired r).hold = s.hold := rfl
@[simp] theorem State.countExpired_used : (s.countExpired r).used = s.used := rfl
@[simp] theorem State.countExpired_windowStart : (s.countExpired r).windowStart = s.windowStart := rfl
@[simp] theorem State.countExpired_pwState : (s.countExpired r).pwState = s.pwState := rfl
@[simp] theorem State.countExpired_nextPassTime : (s.countExpired r).nextPassTime = s.nextPassTime := rfl
@[simp] theorem State.countExpired_lastPassTime : (s.countExpired r).lastPassTime = s.lastPassTime := rfl
@[simp] theorem State.countExpired_cntQfull : (s.countExpired r).cntQfull = s.cntQfull := rfl
@[simp] theorem State.countExpired_cntDfail : (s.countExpired r).cntDfail = s.cntDfail := rfl
@[simp] theorem State.countExpired_cntExpired : (s.countExpired r).cntExpired = s.cntExpired + BitVec.ofNat 32 r := rfl
@[simp] theorem State.countExpired_mem : (s.countExpired r).mem = s.mem := rfl
@[simp] theorem State.countExpired_boots : (s.countExpired r).boots = s.boots := rfl
@[simp] theorem State.countExpired_inbox : (s.countExpired r).inbox = s.inbox := rfl
@[simp] theorem State.countExpired_rdata : (s.countExpired r).rdata = s.rdata := rfl
end countExpired

section acceptCommand
variable (s : State) (w : Word)
@[simp] theorem State.acceptCommand_params : (s.acceptCommand w).params = s.params := rfl
@[simp] theorem State.acceptCommand_ie : (s.acceptCommand w).ie = s.ie := rfl
@[simp] theorem State.acceptCommand_done : (s.acceptCommand w).done = false := rfl
@[simp] theorem State.acceptCommand_resValid : (s.acceptCommand w).resValid = s.resValid := rfl
@[simp] theorem State.acceptCommand_ovr : (s.acceptCommand w).ovr = s.ovr := rfl
@[simp] theorem State.acceptCommand_err : (s.acceptCommand w).err = s.err := rfl
@[simp] theorem State.acceptCommand_cmd : (s.acceptCommand w).cmd = w := rfl
@[simp] theorem State.acceptCommand_pending : (s.acceptCommand w).pending = some w := rfl
@[simp] theorem State.acceptCommand_result0 : (s.acceptCommand w).result0 = s.result0 := rfl
@[simp] theorem State.acceptCommand_result1 : (s.acceptCommand w).result1 = s.result1 := rfl
@[simp] theorem State.acceptCommand_result2 : (s.acceptCommand w).result2 = s.result2 := rfl
@[simp] theorem State.acceptCommand_result3 : (s.acceptCommand w).result3 = s.result3 := rfl
@[simp] theorem State.acceptCommand_outLen : (s.acceptCommand w).outLen = s.outLen := rfl
@[simp] theorem State.acceptCommand_now : (s.acceptCommand w).now = s.now := rfl
@[simp] theorem State.acceptCommand_arg0 : (s.acceptCommand w).arg0 = s.arg0 := rfl
@[simp] theorem State.acceptCommand_arg1 : (s.acceptCommand w).arg1 = s.arg1 := rfl
@[simp] theorem State.acceptCommand_arg2 : (s.acceptCommand w).arg2 = s.arg2 := rfl
@[simp] theorem State.acceptCommand_arg3 : (s.acceptCommand w).arg3 = s.arg3 := rfl
@[simp] theorem State.acceptCommand_queue : (s.acceptCommand w).queue = s.queue := rfl
@[simp] theorem State.acceptCommand_holdValid : (s.acceptCommand w).holdValid = s.holdValid := rfl
@[simp] theorem State.acceptCommand_hold : (s.acceptCommand w).hold = s.hold := rfl
@[simp] theorem State.acceptCommand_used : (s.acceptCommand w).used = s.used := rfl
@[simp] theorem State.acceptCommand_windowStart : (s.acceptCommand w).windowStart = s.windowStart := rfl
@[simp] theorem State.acceptCommand_pwState : (s.acceptCommand w).pwState = s.pwState := rfl
@[simp] theorem State.acceptCommand_nextPassTime : (s.acceptCommand w).nextPassTime = s.nextPassTime := rfl
@[simp] theorem State.acceptCommand_lastPassTime : (s.acceptCommand w).lastPassTime = s.lastPassTime := rfl
@[simp] theorem State.acceptCommand_cntQfull : (s.acceptCommand w).cntQfull = s.cntQfull := rfl
@[simp] theorem State.acceptCommand_cntDfail : (s.acceptCommand w).cntDfail = s.cntDfail := rfl
@[simp] theorem State.acceptCommand_cntExpired : (s.acceptCommand w).cntExpired = s.cntExpired := rfl
@[simp] theorem State.acceptCommand_mem : (s.acceptCommand w).mem = s.mem := rfl
@[simp] theorem State.acceptCommand_boots : (s.acceptCommand w).boots = s.boots := rfl
@[simp] theorem State.acceptCommand_inbox : (s.acceptCommand w).inbox = s.inbox := rfl
@[simp] theorem State.acceptCommand_rdata : (s.acceptCommand w).rdata = s.rdata := rfl
end acceptCommand

section writeStatus
variable (s : State) (v : Word)
@[simp] theorem State.writeStatus_params : (s.writeStatus v).params = s.params := rfl
@[simp] theorem State.writeStatus_ie : (s.writeStatus v).ie = s.ie := rfl
@[simp] theorem State.writeStatus_done : (s.writeStatus v).done = (s.done && !v.getLsbD 1) := rfl
@[simp] theorem State.writeStatus_resValid : (s.writeStatus v).resValid = s.resValid := rfl
@[simp] theorem State.writeStatus_ovr : (s.writeStatus v).ovr = (s.ovr && !v.getLsbD 3) := rfl
@[simp] theorem State.writeStatus_err : (s.writeStatus v).err = s.err := rfl
@[simp] theorem State.writeStatus_cmd : (s.writeStatus v).cmd = s.cmd := rfl
@[simp] theorem State.writeStatus_pending : (s.writeStatus v).pending = s.pending := rfl
@[simp] theorem State.writeStatus_result0 : (s.writeStatus v).result0 = s.result0 := rfl
@[simp] theorem State.writeStatus_result1 : (s.writeStatus v).result1 = s.result1 := rfl
@[simp] theorem State.writeStatus_result2 : (s.writeStatus v).result2 = s.result2 := rfl
@[simp] theorem State.writeStatus_result3 : (s.writeStatus v).result3 = s.result3 := rfl
@[simp] theorem State.writeStatus_outLen : (s.writeStatus v).outLen = s.outLen := rfl
@[simp] theorem State.writeStatus_now : (s.writeStatus v).now = s.now := rfl
@[simp] theorem State.writeStatus_arg0 : (s.writeStatus v).arg0 = s.arg0 := rfl
@[simp] theorem State.writeStatus_arg1 : (s.writeStatus v).arg1 = s.arg1 := rfl
@[simp] theorem State.writeStatus_arg2 : (s.writeStatus v).arg2 = s.arg2 := rfl
@[simp] theorem State.writeStatus_arg3 : (s.writeStatus v).arg3 = s.arg3 := rfl
@[simp] theorem State.writeStatus_queue : (s.writeStatus v).queue = s.queue := rfl
@[simp] theorem State.writeStatus_holdValid : (s.writeStatus v).holdValid = s.holdValid := rfl
@[simp] theorem State.writeStatus_hold : (s.writeStatus v).hold = s.hold := rfl
@[simp] theorem State.writeStatus_used : (s.writeStatus v).used = s.used := rfl
@[simp] theorem State.writeStatus_windowStart : (s.writeStatus v).windowStart = s.windowStart := rfl
@[simp] theorem State.writeStatus_pwState : (s.writeStatus v).pwState = s.pwState := rfl
@[simp] theorem State.writeStatus_nextPassTime : (s.writeStatus v).nextPassTime = s.nextPassTime := rfl
@[simp] theorem State.writeStatus_lastPassTime : (s.writeStatus v).lastPassTime = s.lastPassTime := rfl
@[simp] theorem State.writeStatus_cntQfull : (s.writeStatus v).cntQfull = s.cntQfull := rfl
@[simp] theorem State.writeStatus_cntDfail : (s.writeStatus v).cntDfail = s.cntDfail := rfl
@[simp] theorem State.writeStatus_cntExpired : (s.writeStatus v).cntExpired = s.cntExpired := rfl
@[simp] theorem State.writeStatus_mem : (s.writeStatus v).mem = s.mem := rfl
@[simp] theorem State.writeStatus_boots : (s.writeStatus v).boots = s.boots := rfl
@[simp] theorem State.writeStatus_inbox : (s.writeStatus v).inbox = s.inbox := rfl
@[simp] theorem State.writeStatus_rdata : (s.writeStatus v).rdata = s.rdata := rfl
end writeStatus

section setOvr
variable (s : State)
@[simp] theorem State.setOvr_params : s.setOvr.params = s.params := rfl
@[simp] theorem State.setOvr_ie : s.setOvr.ie = s.ie := rfl
@[simp] theorem State.setOvr_done : s.setOvr.done = s.done := rfl
@[simp] theorem State.setOvr_resValid : s.setOvr.resValid = s.resValid := rfl
@[simp] theorem State.setOvr_ovr : s.setOvr.ovr = true := rfl
@[simp] theorem State.setOvr_err : s.setOvr.err = s.err := rfl
@[simp] theorem State.setOvr_cmd : s.setOvr.cmd = s.cmd := rfl
@[simp] theorem State.setOvr_pending : s.setOvr.pending = s.pending := rfl
@[simp] theorem State.setOvr_result0 : s.setOvr.result0 = s.result0 := rfl
@[simp] theorem State.setOvr_result1 : s.setOvr.result1 = s.result1 := rfl
@[simp] theorem State.setOvr_result2 : s.setOvr.result2 = s.result2 := rfl
@[simp] theorem State.setOvr_result3 : s.setOvr.result3 = s.result3 := rfl
@[simp] theorem State.setOvr_outLen : s.setOvr.outLen = s.outLen := rfl
@[simp] theorem State.setOvr_now : s.setOvr.now = s.now := rfl
@[simp] theorem State.setOvr_arg0 : s.setOvr.arg0 = s.arg0 := rfl
@[simp] theorem State.setOvr_arg1 : s.setOvr.arg1 = s.arg1 := rfl
@[simp] theorem State.setOvr_arg2 : s.setOvr.arg2 = s.arg2 := rfl
@[simp] theorem State.setOvr_arg3 : s.setOvr.arg3 = s.arg3 := rfl
@[simp] theorem State.setOvr_queue : s.setOvr.queue = s.queue := rfl
@[simp] theorem State.setOvr_holdValid : s.setOvr.holdValid = s.holdValid := rfl
@[simp] theorem State.setOvr_hold : s.setOvr.hold = s.hold := rfl
@[simp] theorem State.setOvr_used : s.setOvr.used = s.used := rfl
@[simp] theorem State.setOvr_windowStart : s.setOvr.windowStart = s.windowStart := rfl
@[simp] theorem State.setOvr_pwState : s.setOvr.pwState = s.pwState := rfl
@[simp] theorem State.setOvr_nextPassTime : s.setOvr.nextPassTime = s.nextPassTime := rfl
@[simp] theorem State.setOvr_lastPassTime : s.setOvr.lastPassTime = s.lastPassTime := rfl
@[simp] theorem State.setOvr_cntQfull : s.setOvr.cntQfull = s.cntQfull := rfl
@[simp] theorem State.setOvr_cntDfail : s.setOvr.cntDfail = s.cntDfail := rfl
@[simp] theorem State.setOvr_cntExpired : s.setOvr.cntExpired = s.cntExpired := rfl
@[simp] theorem State.setOvr_mem : s.setOvr.mem = s.mem := rfl
@[simp] theorem State.setOvr_boots : s.setOvr.boots = s.boots := rfl
@[simp] theorem State.setOvr_inbox : s.setOvr.inbox = s.inbox := rfl
@[simp] theorem State.setOvr_rdata : s.setOvr.rdata = s.rdata := rfl
end setOvr

section setIe
variable (s : State) (b : Bool)
@[simp] theorem State.setIe_params : (s.setIe b).params = s.params := rfl
@[simp] theorem State.setIe_ie : (s.setIe b).ie = b := rfl
@[simp] theorem State.setIe_done : (s.setIe b).done = s.done := rfl
@[simp] theorem State.setIe_resValid : (s.setIe b).resValid = s.resValid := rfl
@[simp] theorem State.setIe_ovr : (s.setIe b).ovr = s.ovr := rfl
@[simp] theorem State.setIe_err : (s.setIe b).err = s.err := rfl
@[simp] theorem State.setIe_cmd : (s.setIe b).cmd = s.cmd := rfl
@[simp] theorem State.setIe_pending : (s.setIe b).pending = s.pending := rfl
@[simp] theorem State.setIe_result0 : (s.setIe b).result0 = s.result0 := rfl
@[simp] theorem State.setIe_result1 : (s.setIe b).result1 = s.result1 := rfl
@[simp] theorem State.setIe_result2 : (s.setIe b).result2 = s.result2 := rfl
@[simp] theorem State.setIe_result3 : (s.setIe b).result3 = s.result3 := rfl
@[simp] theorem State.setIe_outLen : (s.setIe b).outLen = s.outLen := rfl
@[simp] theorem State.setIe_now : (s.setIe b).now = s.now := rfl
@[simp] theorem State.setIe_arg0 : (s.setIe b).arg0 = s.arg0 := rfl
@[simp] theorem State.setIe_arg1 : (s.setIe b).arg1 = s.arg1 := rfl
@[simp] theorem State.setIe_arg2 : (s.setIe b).arg2 = s.arg2 := rfl
@[simp] theorem State.setIe_arg3 : (s.setIe b).arg3 = s.arg3 := rfl
@[simp] theorem State.setIe_queue : (s.setIe b).queue = s.queue := rfl
@[simp] theorem State.setIe_holdValid : (s.setIe b).holdValid = s.holdValid := rfl
@[simp] theorem State.setIe_hold : (s.setIe b).hold = s.hold := rfl
@[simp] theorem State.setIe_used : (s.setIe b).used = s.used := rfl
@[simp] theorem State.setIe_windowStart : (s.setIe b).windowStart = s.windowStart := rfl
@[simp] theorem State.setIe_pwState : (s.setIe b).pwState = s.pwState := rfl
@[simp] theorem State.setIe_nextPassTime : (s.setIe b).nextPassTime = s.nextPassTime := rfl
@[simp] theorem State.setIe_lastPassTime : (s.setIe b).lastPassTime = s.lastPassTime := rfl
@[simp] theorem State.setIe_cntQfull : (s.setIe b).cntQfull = s.cntQfull := rfl
@[simp] theorem State.setIe_cntDfail : (s.setIe b).cntDfail = s.cntDfail := rfl
@[simp] theorem State.setIe_cntExpired : (s.setIe b).cntExpired = s.cntExpired := rfl
@[simp] theorem State.setIe_mem : (s.setIe b).mem = s.mem := rfl
@[simp] theorem State.setIe_boots : (s.setIe b).boots = s.boots := rfl
@[simp] theorem State.setIe_inbox : (s.setIe b).inbox = s.inbox := rfl
@[simp] theorem State.setIe_rdata : (s.setIe b).rdata = s.rdata := rfl
end setIe

section setNow
variable (s : State) (v : DWord)
@[simp] theorem State.setNow_params : (s.setNow v).params = s.params := rfl
@[simp] theorem State.setNow_ie : (s.setNow v).ie = s.ie := rfl
@[simp] theorem State.setNow_done : (s.setNow v).done = s.done := rfl
@[simp] theorem State.setNow_resValid : (s.setNow v).resValid = s.resValid := rfl
@[simp] theorem State.setNow_ovr : (s.setNow v).ovr = s.ovr := rfl
@[simp] theorem State.setNow_err : (s.setNow v).err = s.err := rfl
@[simp] theorem State.setNow_cmd : (s.setNow v).cmd = s.cmd := rfl
@[simp] theorem State.setNow_pending : (s.setNow v).pending = s.pending := rfl
@[simp] theorem State.setNow_result0 : (s.setNow v).result0 = s.result0 := rfl
@[simp] theorem State.setNow_result1 : (s.setNow v).result1 = s.result1 := rfl
@[simp] theorem State.setNow_result2 : (s.setNow v).result2 = s.result2 := rfl
@[simp] theorem State.setNow_result3 : (s.setNow v).result3 = s.result3 := rfl
@[simp] theorem State.setNow_outLen : (s.setNow v).outLen = s.outLen := rfl
@[simp] theorem State.setNow_now : (s.setNow v).now = v := rfl
@[simp] theorem State.setNow_arg0 : (s.setNow v).arg0 = s.arg0 := rfl
@[simp] theorem State.setNow_arg1 : (s.setNow v).arg1 = s.arg1 := rfl
@[simp] theorem State.setNow_arg2 : (s.setNow v).arg2 = s.arg2 := rfl
@[simp] theorem State.setNow_arg3 : (s.setNow v).arg3 = s.arg3 := rfl
@[simp] theorem State.setNow_queue : (s.setNow v).queue = s.queue := rfl
@[simp] theorem State.setNow_holdValid : (s.setNow v).holdValid = s.holdValid := rfl
@[simp] theorem State.setNow_hold : (s.setNow v).hold = s.hold := rfl
@[simp] theorem State.setNow_used : (s.setNow v).used = s.used := rfl
@[simp] theorem State.setNow_windowStart : (s.setNow v).windowStart = s.windowStart := rfl
@[simp] theorem State.setNow_pwState : (s.setNow v).pwState = s.pwState := rfl
@[simp] theorem State.setNow_nextPassTime : (s.setNow v).nextPassTime = s.nextPassTime := rfl
@[simp] theorem State.setNow_lastPassTime : (s.setNow v).lastPassTime = s.lastPassTime := rfl
@[simp] theorem State.setNow_cntQfull : (s.setNow v).cntQfull = s.cntQfull := rfl
@[simp] theorem State.setNow_cntDfail : (s.setNow v).cntDfail = s.cntDfail := rfl
@[simp] theorem State.setNow_cntExpired : (s.setNow v).cntExpired = s.cntExpired := rfl
@[simp] theorem State.setNow_mem : (s.setNow v).mem = s.mem := rfl
@[simp] theorem State.setNow_boots : (s.setNow v).boots = s.boots := rfl
@[simp] theorem State.setNow_inbox : (s.setNow v).inbox = s.inbox := rfl
@[simp] theorem State.setNow_rdata : (s.setNow v).rdata = s.rdata := rfl
end setNow

section setArg0
variable (s : State) (v : Word)
@[simp] theorem State.setArg0_params : (s.setArg0 v).params = s.params := rfl
@[simp] theorem State.setArg0_ie : (s.setArg0 v).ie = s.ie := rfl
@[simp] theorem State.setArg0_done : (s.setArg0 v).done = s.done := rfl
@[simp] theorem State.setArg0_resValid : (s.setArg0 v).resValid = s.resValid := rfl
@[simp] theorem State.setArg0_ovr : (s.setArg0 v).ovr = s.ovr := rfl
@[simp] theorem State.setArg0_err : (s.setArg0 v).err = s.err := rfl
@[simp] theorem State.setArg0_cmd : (s.setArg0 v).cmd = s.cmd := rfl
@[simp] theorem State.setArg0_pending : (s.setArg0 v).pending = s.pending := rfl
@[simp] theorem State.setArg0_result0 : (s.setArg0 v).result0 = s.result0 := rfl
@[simp] theorem State.setArg0_result1 : (s.setArg0 v).result1 = s.result1 := rfl
@[simp] theorem State.setArg0_result2 : (s.setArg0 v).result2 = s.result2 := rfl
@[simp] theorem State.setArg0_result3 : (s.setArg0 v).result3 = s.result3 := rfl
@[simp] theorem State.setArg0_outLen : (s.setArg0 v).outLen = s.outLen := rfl
@[simp] theorem State.setArg0_now : (s.setArg0 v).now = s.now := rfl
@[simp] theorem State.setArg0_arg0 : (s.setArg0 v).arg0 = v := rfl
@[simp] theorem State.setArg0_arg1 : (s.setArg0 v).arg1 = s.arg1 := rfl
@[simp] theorem State.setArg0_arg2 : (s.setArg0 v).arg2 = s.arg2 := rfl
@[simp] theorem State.setArg0_arg3 : (s.setArg0 v).arg3 = s.arg3 := rfl
@[simp] theorem State.setArg0_queue : (s.setArg0 v).queue = s.queue := rfl
@[simp] theorem State.setArg0_holdValid : (s.setArg0 v).holdValid = s.holdValid := rfl
@[simp] theorem State.setArg0_hold : (s.setArg0 v).hold = s.hold := rfl
@[simp] theorem State.setArg0_used : (s.setArg0 v).used = s.used := rfl
@[simp] theorem State.setArg0_windowStart : (s.setArg0 v).windowStart = s.windowStart := rfl
@[simp] theorem State.setArg0_pwState : (s.setArg0 v).pwState = s.pwState := rfl
@[simp] theorem State.setArg0_nextPassTime : (s.setArg0 v).nextPassTime = s.nextPassTime := rfl
@[simp] theorem State.setArg0_lastPassTime : (s.setArg0 v).lastPassTime = s.lastPassTime := rfl
@[simp] theorem State.setArg0_cntQfull : (s.setArg0 v).cntQfull = s.cntQfull := rfl
@[simp] theorem State.setArg0_cntDfail : (s.setArg0 v).cntDfail = s.cntDfail := rfl
@[simp] theorem State.setArg0_cntExpired : (s.setArg0 v).cntExpired = s.cntExpired := rfl
@[simp] theorem State.setArg0_mem : (s.setArg0 v).mem = s.mem := rfl
@[simp] theorem State.setArg0_boots : (s.setArg0 v).boots = s.boots := rfl
@[simp] theorem State.setArg0_inbox : (s.setArg0 v).inbox = s.inbox := rfl
@[simp] theorem State.setArg0_rdata : (s.setArg0 v).rdata = s.rdata := rfl
end setArg0

section setArg1
variable (s : State) (v : Word)
@[simp] theorem State.setArg1_params : (s.setArg1 v).params = s.params := rfl
@[simp] theorem State.setArg1_ie : (s.setArg1 v).ie = s.ie := rfl
@[simp] theorem State.setArg1_done : (s.setArg1 v).done = s.done := rfl
@[simp] theorem State.setArg1_resValid : (s.setArg1 v).resValid = s.resValid := rfl
@[simp] theorem State.setArg1_ovr : (s.setArg1 v).ovr = s.ovr := rfl
@[simp] theorem State.setArg1_err : (s.setArg1 v).err = s.err := rfl
@[simp] theorem State.setArg1_cmd : (s.setArg1 v).cmd = s.cmd := rfl
@[simp] theorem State.setArg1_pending : (s.setArg1 v).pending = s.pending := rfl
@[simp] theorem State.setArg1_result0 : (s.setArg1 v).result0 = s.result0 := rfl
@[simp] theorem State.setArg1_result1 : (s.setArg1 v).result1 = s.result1 := rfl
@[simp] theorem State.setArg1_result2 : (s.setArg1 v).result2 = s.result2 := rfl
@[simp] theorem State.setArg1_result3 : (s.setArg1 v).result3 = s.result3 := rfl
@[simp] theorem State.setArg1_outLen : (s.setArg1 v).outLen = s.outLen := rfl
@[simp] theorem State.setArg1_now : (s.setArg1 v).now = s.now := rfl
@[simp] theorem State.setArg1_arg0 : (s.setArg1 v).arg0 = s.arg0 := rfl
@[simp] theorem State.setArg1_arg1 : (s.setArg1 v).arg1 = v := rfl
@[simp] theorem State.setArg1_arg2 : (s.setArg1 v).arg2 = s.arg2 := rfl
@[simp] theorem State.setArg1_arg3 : (s.setArg1 v).arg3 = s.arg3 := rfl
@[simp] theorem State.setArg1_queue : (s.setArg1 v).queue = s.queue := rfl
@[simp] theorem State.setArg1_holdValid : (s.setArg1 v).holdValid = s.holdValid := rfl
@[simp] theorem State.setArg1_hold : (s.setArg1 v).hold = s.hold := rfl
@[simp] theorem State.setArg1_used : (s.setArg1 v).used = s.used := rfl
@[simp] theorem State.setArg1_windowStart : (s.setArg1 v).windowStart = s.windowStart := rfl
@[simp] theorem State.setArg1_pwState : (s.setArg1 v).pwState = s.pwState := rfl
@[simp] theorem State.setArg1_nextPassTime : (s.setArg1 v).nextPassTime = s.nextPassTime := rfl
@[simp] theorem State.setArg1_lastPassTime : (s.setArg1 v).lastPassTime = s.lastPassTime := rfl
@[simp] theorem State.setArg1_cntQfull : (s.setArg1 v).cntQfull = s.cntQfull := rfl
@[simp] theorem State.setArg1_cntDfail : (s.setArg1 v).cntDfail = s.cntDfail := rfl
@[simp] theorem State.setArg1_cntExpired : (s.setArg1 v).cntExpired = s.cntExpired := rfl
@[simp] theorem State.setArg1_mem : (s.setArg1 v).mem = s.mem := rfl
@[simp] theorem State.setArg1_boots : (s.setArg1 v).boots = s.boots := rfl
@[simp] theorem State.setArg1_inbox : (s.setArg1 v).inbox = s.inbox := rfl
@[simp] theorem State.setArg1_rdata : (s.setArg1 v).rdata = s.rdata := rfl
end setArg1

section setArg2
variable (s : State) (v : Word)
@[simp] theorem State.setArg2_params : (s.setArg2 v).params = s.params := rfl
@[simp] theorem State.setArg2_ie : (s.setArg2 v).ie = s.ie := rfl
@[simp] theorem State.setArg2_done : (s.setArg2 v).done = s.done := rfl
@[simp] theorem State.setArg2_resValid : (s.setArg2 v).resValid = s.resValid := rfl
@[simp] theorem State.setArg2_ovr : (s.setArg2 v).ovr = s.ovr := rfl
@[simp] theorem State.setArg2_err : (s.setArg2 v).err = s.err := rfl
@[simp] theorem State.setArg2_cmd : (s.setArg2 v).cmd = s.cmd := rfl
@[simp] theorem State.setArg2_pending : (s.setArg2 v).pending = s.pending := rfl
@[simp] theorem State.setArg2_result0 : (s.setArg2 v).result0 = s.result0 := rfl
@[simp] theorem State.setArg2_result1 : (s.setArg2 v).result1 = s.result1 := rfl
@[simp] theorem State.setArg2_result2 : (s.setArg2 v).result2 = s.result2 := rfl
@[simp] theorem State.setArg2_result3 : (s.setArg2 v).result3 = s.result3 := rfl
@[simp] theorem State.setArg2_outLen : (s.setArg2 v).outLen = s.outLen := rfl
@[simp] theorem State.setArg2_now : (s.setArg2 v).now = s.now := rfl
@[simp] theorem State.setArg2_arg0 : (s.setArg2 v).arg0 = s.arg0 := rfl
@[simp] theorem State.setArg2_arg1 : (s.setArg2 v).arg1 = s.arg1 := rfl
@[simp] theorem State.setArg2_arg2 : (s.setArg2 v).arg2 = v := rfl
@[simp] theorem State.setArg2_arg3 : (s.setArg2 v).arg3 = s.arg3 := rfl
@[simp] theorem State.setArg2_queue : (s.setArg2 v).queue = s.queue := rfl
@[simp] theorem State.setArg2_holdValid : (s.setArg2 v).holdValid = s.holdValid := rfl
@[simp] theorem State.setArg2_hold : (s.setArg2 v).hold = s.hold := rfl
@[simp] theorem State.setArg2_used : (s.setArg2 v).used = s.used := rfl
@[simp] theorem State.setArg2_windowStart : (s.setArg2 v).windowStart = s.windowStart := rfl
@[simp] theorem State.setArg2_pwState : (s.setArg2 v).pwState = s.pwState := rfl
@[simp] theorem State.setArg2_nextPassTime : (s.setArg2 v).nextPassTime = s.nextPassTime := rfl
@[simp] theorem State.setArg2_lastPassTime : (s.setArg2 v).lastPassTime = s.lastPassTime := rfl
@[simp] theorem State.setArg2_cntQfull : (s.setArg2 v).cntQfull = s.cntQfull := rfl
@[simp] theorem State.setArg2_cntDfail : (s.setArg2 v).cntDfail = s.cntDfail := rfl
@[simp] theorem State.setArg2_cntExpired : (s.setArg2 v).cntExpired = s.cntExpired := rfl
@[simp] theorem State.setArg2_mem : (s.setArg2 v).mem = s.mem := rfl
@[simp] theorem State.setArg2_boots : (s.setArg2 v).boots = s.boots := rfl
@[simp] theorem State.setArg2_inbox : (s.setArg2 v).inbox = s.inbox := rfl
@[simp] theorem State.setArg2_rdata : (s.setArg2 v).rdata = s.rdata := rfl
end setArg2

section setArg3
variable (s : State) (v : Word)
@[simp] theorem State.setArg3_params : (s.setArg3 v).params = s.params := rfl
@[simp] theorem State.setArg3_ie : (s.setArg3 v).ie = s.ie := rfl
@[simp] theorem State.setArg3_done : (s.setArg3 v).done = s.done := rfl
@[simp] theorem State.setArg3_resValid : (s.setArg3 v).resValid = s.resValid := rfl
@[simp] theorem State.setArg3_ovr : (s.setArg3 v).ovr = s.ovr := rfl
@[simp] theorem State.setArg3_err : (s.setArg3 v).err = s.err := rfl
@[simp] theorem State.setArg3_cmd : (s.setArg3 v).cmd = s.cmd := rfl
@[simp] theorem State.setArg3_pending : (s.setArg3 v).pending = s.pending := rfl
@[simp] theorem State.setArg3_result0 : (s.setArg3 v).result0 = s.result0 := rfl
@[simp] theorem State.setArg3_result1 : (s.setArg3 v).result1 = s.result1 := rfl
@[simp] theorem State.setArg3_result2 : (s.setArg3 v).result2 = s.result2 := rfl
@[simp] theorem State.setArg3_result3 : (s.setArg3 v).result3 = s.result3 := rfl
@[simp] theorem State.setArg3_outLen : (s.setArg3 v).outLen = s.outLen := rfl
@[simp] theorem State.setArg3_now : (s.setArg3 v).now = s.now := rfl
@[simp] theorem State.setArg3_arg0 : (s.setArg3 v).arg0 = s.arg0 := rfl
@[simp] theorem State.setArg3_arg1 : (s.setArg3 v).arg1 = s.arg1 := rfl
@[simp] theorem State.setArg3_arg2 : (s.setArg3 v).arg2 = s.arg2 := rfl
@[simp] theorem State.setArg3_arg3 : (s.setArg3 v).arg3 = v := rfl
@[simp] theorem State.setArg3_queue : (s.setArg3 v).queue = s.queue := rfl
@[simp] theorem State.setArg3_holdValid : (s.setArg3 v).holdValid = s.holdValid := rfl
@[simp] theorem State.setArg3_hold : (s.setArg3 v).hold = s.hold := rfl
@[simp] theorem State.setArg3_used : (s.setArg3 v).used = s.used := rfl
@[simp] theorem State.setArg3_windowStart : (s.setArg3 v).windowStart = s.windowStart := rfl
@[simp] theorem State.setArg3_pwState : (s.setArg3 v).pwState = s.pwState := rfl
@[simp] theorem State.setArg3_nextPassTime : (s.setArg3 v).nextPassTime = s.nextPassTime := rfl
@[simp] theorem State.setArg3_lastPassTime : (s.setArg3 v).lastPassTime = s.lastPassTime := rfl
@[simp] theorem State.setArg3_cntQfull : (s.setArg3 v).cntQfull = s.cntQfull := rfl
@[simp] theorem State.setArg3_cntDfail : (s.setArg3 v).cntDfail = s.cntDfail := rfl
@[simp] theorem State.setArg3_cntExpired : (s.setArg3 v).cntExpired = s.cntExpired := rfl
@[simp] theorem State.setArg3_mem : (s.setArg3 v).mem = s.mem := rfl
@[simp] theorem State.setArg3_boots : (s.setArg3 v).boots = s.boots := rfl
@[simp] theorem State.setArg3_inbox : (s.setArg3 v).inbox = s.inbox := rfl
@[simp] theorem State.setArg3_rdata : (s.setArg3 v).rdata = s.rdata := rfl
end setArg3

section setRdata
variable (s : State) (v : Word)
@[simp] theorem State.setRdata_params : (s.setRdata v).params = s.params := rfl
@[simp] theorem State.setRdata_ie : (s.setRdata v).ie = s.ie := rfl
@[simp] theorem State.setRdata_done : (s.setRdata v).done = s.done := rfl
@[simp] theorem State.setRdata_resValid : (s.setRdata v).resValid = s.resValid := rfl
@[simp] theorem State.setRdata_ovr : (s.setRdata v).ovr = s.ovr := rfl
@[simp] theorem State.setRdata_err : (s.setRdata v).err = s.err := rfl
@[simp] theorem State.setRdata_cmd : (s.setRdata v).cmd = s.cmd := rfl
@[simp] theorem State.setRdata_pending : (s.setRdata v).pending = s.pending := rfl
@[simp] theorem State.setRdata_result0 : (s.setRdata v).result0 = s.result0 := rfl
@[simp] theorem State.setRdata_result1 : (s.setRdata v).result1 = s.result1 := rfl
@[simp] theorem State.setRdata_result2 : (s.setRdata v).result2 = s.result2 := rfl
@[simp] theorem State.setRdata_result3 : (s.setRdata v).result3 = s.result3 := rfl
@[simp] theorem State.setRdata_outLen : (s.setRdata v).outLen = s.outLen := rfl
@[simp] theorem State.setRdata_now : (s.setRdata v).now = s.now := rfl
@[simp] theorem State.setRdata_arg0 : (s.setRdata v).arg0 = s.arg0 := rfl
@[simp] theorem State.setRdata_arg1 : (s.setRdata v).arg1 = s.arg1 := rfl
@[simp] theorem State.setRdata_arg2 : (s.setRdata v).arg2 = s.arg2 := rfl
@[simp] theorem State.setRdata_arg3 : (s.setRdata v).arg3 = s.arg3 := rfl
@[simp] theorem State.setRdata_queue : (s.setRdata v).queue = s.queue := rfl
@[simp] theorem State.setRdata_holdValid : (s.setRdata v).holdValid = s.holdValid := rfl
@[simp] theorem State.setRdata_hold : (s.setRdata v).hold = s.hold := rfl
@[simp] theorem State.setRdata_used : (s.setRdata v).used = s.used := rfl
@[simp] theorem State.setRdata_windowStart : (s.setRdata v).windowStart = s.windowStart := rfl
@[simp] theorem State.setRdata_pwState : (s.setRdata v).pwState = s.pwState := rfl
@[simp] theorem State.setRdata_nextPassTime : (s.setRdata v).nextPassTime = s.nextPassTime := rfl
@[simp] theorem State.setRdata_lastPassTime : (s.setRdata v).lastPassTime = s.lastPassTime := rfl
@[simp] theorem State.setRdata_cntQfull : (s.setRdata v).cntQfull = s.cntQfull := rfl
@[simp] theorem State.setRdata_cntDfail : (s.setRdata v).cntDfail = s.cntDfail := rfl
@[simp] theorem State.setRdata_cntExpired : (s.setRdata v).cntExpired = s.cntExpired := rfl
@[simp] theorem State.setRdata_mem : (s.setRdata v).mem = s.mem := rfl
@[simp] theorem State.setRdata_boots : (s.setRdata v).boots = s.boots := rfl
@[simp] theorem State.setRdata_inbox : (s.setRdata v).inbox = s.inbox := rfl
@[simp] theorem State.setRdata_rdata : (s.setRdata v).rdata = v := rfl
end setRdata

section setInbox
variable (s : State) (es : List Arrival)
@[simp] theorem State.setInbox_params : (s.setInbox es).params = s.params := rfl
@[simp] theorem State.setInbox_ie : (s.setInbox es).ie = s.ie := rfl
@[simp] theorem State.setInbox_done : (s.setInbox es).done = s.done := rfl
@[simp] theorem State.setInbox_resValid : (s.setInbox es).resValid = s.resValid := rfl
@[simp] theorem State.setInbox_ovr : (s.setInbox es).ovr = s.ovr := rfl
@[simp] theorem State.setInbox_err : (s.setInbox es).err = s.err := rfl
@[simp] theorem State.setInbox_cmd : (s.setInbox es).cmd = s.cmd := rfl
@[simp] theorem State.setInbox_pending : (s.setInbox es).pending = s.pending := rfl
@[simp] theorem State.setInbox_result0 : (s.setInbox es).result0 = s.result0 := rfl
@[simp] theorem State.setInbox_result1 : (s.setInbox es).result1 = s.result1 := rfl
@[simp] theorem State.setInbox_result2 : (s.setInbox es).result2 = s.result2 := rfl
@[simp] theorem State.setInbox_result3 : (s.setInbox es).result3 = s.result3 := rfl
@[simp] theorem State.setInbox_outLen : (s.setInbox es).outLen = s.outLen := rfl
@[simp] theorem State.setInbox_now : (s.setInbox es).now = s.now := rfl
@[simp] theorem State.setInbox_arg0 : (s.setInbox es).arg0 = s.arg0 := rfl
@[simp] theorem State.setInbox_arg1 : (s.setInbox es).arg1 = s.arg1 := rfl
@[simp] theorem State.setInbox_arg2 : (s.setInbox es).arg2 = s.arg2 := rfl
@[simp] theorem State.setInbox_arg3 : (s.setInbox es).arg3 = s.arg3 := rfl
@[simp] theorem State.setInbox_queue : (s.setInbox es).queue = s.queue := rfl
@[simp] theorem State.setInbox_holdValid : (s.setInbox es).holdValid = s.holdValid := rfl
@[simp] theorem State.setInbox_hold : (s.setInbox es).hold = s.hold := rfl
@[simp] theorem State.setInbox_used : (s.setInbox es).used = s.used := rfl
@[simp] theorem State.setInbox_windowStart : (s.setInbox es).windowStart = s.windowStart := rfl
@[simp] theorem State.setInbox_pwState : (s.setInbox es).pwState = s.pwState := rfl
@[simp] theorem State.setInbox_nextPassTime : (s.setInbox es).nextPassTime = s.nextPassTime := rfl
@[simp] theorem State.setInbox_lastPassTime : (s.setInbox es).lastPassTime = s.lastPassTime := rfl
@[simp] theorem State.setInbox_cntQfull : (s.setInbox es).cntQfull = s.cntQfull := rfl
@[simp] theorem State.setInbox_cntDfail : (s.setInbox es).cntDfail = s.cntDfail := rfl
@[simp] theorem State.setInbox_cntExpired : (s.setInbox es).cntExpired = s.cntExpired := rfl
@[simp] theorem State.setInbox_mem : (s.setInbox es).mem = s.mem := rfl
@[simp] theorem State.setInbox_boots : (s.setInbox es).boots = s.boots := rfl
@[simp] theorem State.setInbox_inbox : (s.setInbox es).inbox = es := rfl
@[simp] theorem State.setInbox_rdata : (s.setInbox es).rdata = s.rdata := rfl
end setInbox

section powerOn
variable (p : Params) (n : Nat) (es : List Arrival) (r : Word)
@[simp] theorem State.powerOn_params : (State.powerOn p n es r).params = p := rfl
@[simp] theorem State.powerOn_ie : (State.powerOn p n es r).ie = false := rfl
@[simp] theorem State.powerOn_done : (State.powerOn p n es r).done = false := rfl
@[simp] theorem State.powerOn_resValid : (State.powerOn p n es r).resValid = false := rfl
@[simp] theorem State.powerOn_ovr : (State.powerOn p n es r).ovr = false := rfl
@[simp] theorem State.powerOn_err : (State.powerOn p n es r).err = 0 := rfl
@[simp] theorem State.powerOn_cmd : (State.powerOn p n es r).cmd = 0 := rfl
@[simp] theorem State.powerOn_pending : (State.powerOn p n es r).pending = none := rfl
@[simp] theorem State.powerOn_result0 : (State.powerOn p n es r).result0 = 0 := rfl
@[simp] theorem State.powerOn_result1 : (State.powerOn p n es r).result1 = 0 := rfl
@[simp] theorem State.powerOn_result2 : (State.powerOn p n es r).result2 = 0 := rfl
@[simp] theorem State.powerOn_result3 : (State.powerOn p n es r).result3 = 0 := rfl
@[simp] theorem State.powerOn_outLen : (State.powerOn p n es r).outLen = 0 := rfl
@[simp] theorem State.powerOn_now : (State.powerOn p n es r).now = 0 := rfl
@[simp] theorem State.powerOn_arg0 : (State.powerOn p n es r).arg0 = 0 := rfl
@[simp] theorem State.powerOn_arg1 : (State.powerOn p n es r).arg1 = 0 := rfl
@[simp] theorem State.powerOn_arg2 : (State.powerOn p n es r).arg2 = 0 := rfl
@[simp] theorem State.powerOn_arg3 : (State.powerOn p n es r).arg3 = 0 := rfl
@[simp] theorem State.powerOn_queue : (State.powerOn p n es r).queue = [] := rfl
@[simp] theorem State.powerOn_holdValid : (State.powerOn p n es r).holdValid = false := rfl
@[simp] theorem State.powerOn_hold : (State.powerOn p n es r).hold = QEntry.reset := rfl
@[simp] theorem State.powerOn_used : (State.powerOn p n es r).used = 0 := rfl
@[simp] theorem State.powerOn_windowStart : (State.powerOn p n es r).windowStart = 0 := rfl
@[simp] theorem State.powerOn_pwState : (State.powerOn p n es r).pwState = .idle := rfl
@[simp] theorem State.powerOn_nextPassTime : (State.powerOn p n es r).nextPassTime = p.pwFirstPassMs := rfl
@[simp] theorem State.powerOn_lastPassTime : (State.powerOn p n es r).lastPassTime = 0 := rfl
@[simp] theorem State.powerOn_cntQfull : (State.powerOn p n es r).cntQfull = 0 := rfl
@[simp] theorem State.powerOn_cntDfail : (State.powerOn p n es r).cntDfail = 0 := rfl
@[simp] theorem State.powerOn_cntExpired : (State.powerOn p n es r).cntExpired = 0 := rfl
@[simp] theorem State.powerOn_mem : (State.powerOn p n es r).mem = [] := rfl
@[simp] theorem State.powerOn_boots : (State.powerOn p n es r).boots = n := rfl
@[simp] theorem State.powerOn_inbox : (State.powerOn p n es r).inbox = es := rfl
@[simp] theorem State.powerOn_rdata : (State.powerOn p n es r).rdata = r := rfl
end powerOn

section softReset
variable (s : State)
@[simp] theorem State.softReset_params : s.softReset.params = s.params := rfl
@[simp] theorem State.softReset_ie : s.softReset.ie = false := rfl
@[simp] theorem State.softReset_done : s.softReset.done = false := rfl
@[simp] theorem State.softReset_resValid : s.softReset.resValid = false := rfl
@[simp] theorem State.softReset_ovr : s.softReset.ovr = false := rfl
@[simp] theorem State.softReset_err : s.softReset.err = 0 := rfl
@[simp] theorem State.softReset_cmd : s.softReset.cmd = 0 := rfl
@[simp] theorem State.softReset_pending : s.softReset.pending = none := rfl
@[simp] theorem State.softReset_result0 : s.softReset.result0 = 0 := rfl
@[simp] theorem State.softReset_result1 : s.softReset.result1 = 0 := rfl
@[simp] theorem State.softReset_result2 : s.softReset.result2 = 0 := rfl
@[simp] theorem State.softReset_result3 : s.softReset.result3 = 0 := rfl
@[simp] theorem State.softReset_outLen : s.softReset.outLen = 0 := rfl
@[simp] theorem State.softReset_now : s.softReset.now = 0 := rfl
@[simp] theorem State.softReset_arg0 : s.softReset.arg0 = 0 := rfl
@[simp] theorem State.softReset_arg1 : s.softReset.arg1 = 0 := rfl
@[simp] theorem State.softReset_arg2 : s.softReset.arg2 = 0 := rfl
@[simp] theorem State.softReset_arg3 : s.softReset.arg3 = 0 := rfl
@[simp] theorem State.softReset_queue : s.softReset.queue = [] := rfl
@[simp] theorem State.softReset_holdValid : s.softReset.holdValid = false := rfl
@[simp] theorem State.softReset_hold : s.softReset.hold = QEntry.reset := rfl
@[simp] theorem State.softReset_used : s.softReset.used = 0 := rfl
@[simp] theorem State.softReset_windowStart : s.softReset.windowStart = 0 := rfl
@[simp] theorem State.softReset_pwState : s.softReset.pwState = .idle := rfl
@[simp] theorem State.softReset_nextPassTime : s.softReset.nextPassTime = s.params.pwFirstPassMs := rfl
@[simp] theorem State.softReset_lastPassTime : s.softReset.lastPassTime = 0 := rfl
@[simp] theorem State.softReset_cntQfull : s.softReset.cntQfull = 0 := rfl
@[simp] theorem State.softReset_cntDfail : s.softReset.cntDfail = 0 := rfl
@[simp] theorem State.softReset_cntExpired : s.softReset.cntExpired = 0 := rfl
@[simp] theorem State.softReset_mem : s.softReset.mem = s.mem := rfl
@[simp] theorem State.softReset_boots : s.softReset.boots = s.boots := rfl
@[simp] theorem State.softReset_inbox : s.softReset.inbox = s.inbox := rfl
@[simp] theorem State.softReset_rdata : s.softReset.rdata = s.rdata := rfl
end softReset

section powerOnReset
variable (s : State)
@[simp] theorem State.powerOnReset_params : s.powerOnReset.params = s.params := rfl
@[simp] theorem State.powerOnReset_ie : s.powerOnReset.ie = false := rfl
@[simp] theorem State.powerOnReset_done : s.powerOnReset.done = false := rfl
@[simp] theorem State.powerOnReset_resValid : s.powerOnReset.resValid = false := rfl
@[simp] theorem State.powerOnReset_ovr : s.powerOnReset.ovr = false := rfl
@[simp] theorem State.powerOnReset_err : s.powerOnReset.err = 0 := rfl
@[simp] theorem State.powerOnReset_cmd : s.powerOnReset.cmd = 0 := rfl
@[simp] theorem State.powerOnReset_pending : s.powerOnReset.pending = none := rfl
@[simp] theorem State.powerOnReset_result0 : s.powerOnReset.result0 = 0 := rfl
@[simp] theorem State.powerOnReset_result1 : s.powerOnReset.result1 = 0 := rfl
@[simp] theorem State.powerOnReset_result2 : s.powerOnReset.result2 = 0 := rfl
@[simp] theorem State.powerOnReset_result3 : s.powerOnReset.result3 = 0 := rfl
@[simp] theorem State.powerOnReset_outLen : s.powerOnReset.outLen = 0 := rfl
@[simp] theorem State.powerOnReset_now : s.powerOnReset.now = 0 := rfl
@[simp] theorem State.powerOnReset_arg0 : s.powerOnReset.arg0 = 0 := rfl
@[simp] theorem State.powerOnReset_arg1 : s.powerOnReset.arg1 = 0 := rfl
@[simp] theorem State.powerOnReset_arg2 : s.powerOnReset.arg2 = 0 := rfl
@[simp] theorem State.powerOnReset_arg3 : s.powerOnReset.arg3 = 0 := rfl
@[simp] theorem State.powerOnReset_queue : s.powerOnReset.queue = [] := rfl
@[simp] theorem State.powerOnReset_holdValid : s.powerOnReset.holdValid = false := rfl
@[simp] theorem State.powerOnReset_hold : s.powerOnReset.hold = QEntry.reset := rfl
@[simp] theorem State.powerOnReset_used : s.powerOnReset.used = 0 := rfl
@[simp] theorem State.powerOnReset_windowStart : s.powerOnReset.windowStart = 0 := rfl
@[simp] theorem State.powerOnReset_pwState : s.powerOnReset.pwState = .idle := rfl
@[simp] theorem State.powerOnReset_nextPassTime : s.powerOnReset.nextPassTime = s.params.pwFirstPassMs := rfl
@[simp] theorem State.powerOnReset_lastPassTime : s.powerOnReset.lastPassTime = 0 := rfl
@[simp] theorem State.powerOnReset_cntQfull : s.powerOnReset.cntQfull = 0 := rfl
@[simp] theorem State.powerOnReset_cntDfail : s.powerOnReset.cntDfail = 0 := rfl
@[simp] theorem State.powerOnReset_cntExpired : s.powerOnReset.cntExpired = 0 := rfl
@[simp] theorem State.powerOnReset_mem : s.powerOnReset.mem = [] := rfl
@[simp] theorem State.powerOnReset_boots : s.powerOnReset.boots = s.boots + 1 := rfl
@[simp] theorem State.powerOnReset_inbox : s.powerOnReset.inbox = s.inbox := rfl
@[simp] theorem State.powerOnReset_rdata : s.powerOnReset.rdata = s.rdata := rfl
end powerOnReset

end Sys2Proof.Machine
end

