-- ==== Sys2Proof/Laws/Memory.lean ====
section
/-! SUPPORT. What the buffer operations do: reading after a block write, the canonical form, and the lengths of the byte
sequences a command reads. -/

namespace Sys2Proof.Machine

theorem cellsFrom_length (a : Nat) (bs : List Byte) : (cellsFrom a bs).length = bs.length := by
  induction bs generalizing a with
  | nil => rfl
  | cons b bs ih => simp [cellsFrom, ih]

/-- A cell laid down from `base` lies inside the block. -/
theorem mem_cellsFrom {base : Nat} {bs : List Byte} {c : Host.Cell} (h : c ∈ cellsFrom base bs) :
    base ≤ c.1 ∧ c.1 < base + bs.length := by
  induction bs generalizing base with
  | nil => simp [cellsFrom] at h
  | cons b bs ih =>
    simp only [cellsFrom, List.mem_cons] at h
    rcases h with rfl | h
    · simp
    · have := ih h
      simp only [List.length_cons]
      omega

theorem cellsFrom_pairwise (base : Nat) (bs : List Byte) :
    (cellsFrom base bs).Pairwise fun c d => c.1 < d.1 := by
  induction bs generalizing base with
  | nil => exact .nil
  | cons b bs ih => exact .cons (fun c hc => (mem_cellsFrom hc).1) (ih _)

theorem read_cellsFrom (base : Nat) (bs : List Byte) (a : Nat) :
    Memory.read (cellsFrom base bs) a = if base ≤ a then bs[a - base]? else none := by
  induction bs generalizing base with
  | nil => simp [cellsFrom, Memory.read]
  | cons b bs ih =>
    have ih' := ih (base + 1)
    simp only [Memory.read] at ih' ⊢
    by_cases hab : base = a
    · subst hab
      simp [cellsFrom]
    · rw [cellsFrom, List.find?_cons_of_neg (by simpa using hab), ih']
      by_cases hlt : base ≤ a
      · have h1 : base + 1 ≤ a := by omega
        have h2 : a - base = (a - (base + 1)) + 1 := by omega
        simp [hlt, h1, h2]
      · have h1 : ¬ base + 1 ≤ a := by omega
        simp [hlt, h1]

theorem read_append (m n : Memory) (a : Nat) :
    Memory.read (m ++ n) a = (Memory.read m a).or (Memory.read n a) := by
  simp only [Memory.read, List.find?_append]
  cases List.find? (fun c => c.1 == a) m <;> rfl

theorem read_filter_of (m : Memory) (p : Host.Cell → Bool) (a : Nat) (h : ∀ c : Host.Cell, c.1 = a → p c = true) :
    Memory.read (m.filter p) a = Memory.read m a := by
  unfold Memory.read
  congr 1
  rw [List.find?_filter]
  congr 1
  funext c
  by_cases hc : c.1 = a
  · simp [hc, h c hc]
  · simp [hc]

theorem read_filter_none (m : Memory) (p : Host.Cell → Bool) (a : Nat) (h : ∀ c : Host.Cell, c.1 = a → p c = false) :
    Memory.read (m.filter p) a = none := by
  simp only [Memory.read, Option.map_eq_none_iff, List.find?_eq_none, List.mem_filter, and_imp]
  intro c _ hp hca
  simp [h c (by simpa using hca)] at hp

/-- Reading after a block write: the block's byte inside it, the old byte outside. -/
theorem Memory.read_writeBytes (m : Memory) (base : Nat) (bs : List Byte) (a : Nat) :
    Memory.read (Memory.writeBytes m base bs) a =
      if base ≤ a ∧ a < base + bs.length then bs[a - base]? else Memory.read m a := by
  rw [Memory.writeBytes, read_append, read_append, read_cellsFrom]
  by_cases h1 : a < base
  · rw [read_filter_of _ _ _ (fun c hc => by simpa [hc] using h1),
      read_filter_none _ _ _ (fun c hc => by simp [hc]; omega)]
    have h2 : ¬ base ≤ a := by omega
    simp [h2]
  · rw [read_filter_none _ _ _ (fun c hc => by simp [hc]; omega)]
    by_cases h2 : a < base + bs.length
    · rw [read_filter_none _ _ _ (fun c hc => by simp [hc]; omega)]
      have h3 : base ≤ a := by omega
      simp [h2, h3]
    · rw [read_filter_of _ _ _ (fun c hc => by simp [hc]; omega)]
      have h3 : base ≤ a := by omega
      have h4 : bs[a - base]? = none := List.getElem?_eq_none (by omega)
      simp [h2, h3, h4]

/-- The buffers' window offsets (R23). -/
theorem isBufferOffset_iff (a : Nat) :
    isBufferOffset a = true ↔ 0x400 ≤ a ∧ a < 0x500 ∨ 0x800 ≤ a ∧ a < 0x1000 := by
  simp only [isBufferOffset, Bool.or_eq_true, Bool.and_eq_true, decide_eq_true_eq]
  rfl

theorem Memory.wf_iff (m : Memory) :
    Memory.wf m = true ↔ (m.Pairwise fun c d => c.1 < d.1) ∧ ∀ c ∈ m, isBufferOffset c.1 = true := by
  simp [Memory.wf]

/-- Every write of buffer bytes keeps the canonical form. -/
theorem Memory.wf_writeBytes {m : Memory} {base : Nat} {bs : List Byte} (hm : Memory.wf m = true)
    (hb : ∀ a, base ≤ a → a < base + bs.length → isBufferOffset a = true) :
    Memory.wf (Memory.writeBytes m base bs) = true := by
  rw [Memory.wf_iff] at hm ⊢
  obtain ⟨hp, ho⟩ := hm
  refine ⟨?_, ?_⟩
  · rw [Memory.writeBytes, List.pairwise_append, List.pairwise_append]
    refine ⟨⟨hp.filter _, cellsFrom_pairwise _ _, ?_⟩, hp.filter _, ?_⟩
    · intro c hc d hd
      have := mem_cellsFrom hd
      have hc2 : c.1 < base := by simpa using (List.mem_filter.1 hc).2
      omega
    · intro c hc d hd
      have hd2 : base + bs.length ≤ d.1 := by simpa using (List.mem_filter.1 hd).2
      rcases List.mem_append.1 hc with hc | hc
      · have hc2 : c.1 < base := by simpa using (List.mem_filter.1 hc).2
        omega
      · have := mem_cellsFrom hc
        omega
  · intro c hc
    rw [Memory.writeBytes, List.mem_append, List.mem_append] at hc
    rcases hc with (hc | hc) | hc
    · exact ho c (List.mem_of_mem_filter hc)
    · exact hb _ (mem_cellsFrom hc).1 (mem_cellsFrom hc).2
    · exact ho c (List.mem_of_mem_filter hc)

theorem Memory.wf_nil : Memory.wf [] = true := rfl

@[simp] theorem State.readBytes_length (s : State) (base n : Nat) : (s.readBytes base n).length = n := by
  simp [State.readBytes]

@[simp] theorem State.input_length (s : State) (len : Byte) : (s.input len).length = len.toNat := by
  simp [State.input]

/-- A byte depends on the written bytes and the power-on number alone. -/
theorem State.readByte_congr {s t : State} (hm : t.mem = s.mem) (hb : t.boots = s.boots) (a : Nat) :
    t.readByte a = s.readByte a := by
  simp [State.readByte, hm, hb]

/-- Reading a byte after a command's output: the output inside it, the old byte outside. -/
theorem State.readByte_putOut (bs : List Byte) (s : State) (a : Nat) :
    (s.putOut bs).readByte a =
      if Config.bufOutBase ≤ a ∧ a < Config.bufOutBase + bs.length then bs.getD (a - Config.bufOutBase) 0
      else s.readByte a := by
  simp only [State.readByte, State.putOut_mem, State.putOut_boots, Memory.read_writeBytes]
  by_cases h : Config.bufOutBase ≤ a ∧ a < Config.bufOutBase + bs.length
  · have h2 : a - Config.bufOutBase < bs.length := by omega
    rw [if_pos h, if_pos h]
    simp [List.getElem?_eq_getElem h2, List.getD_eq_getElem?_getD]
  · rw [if_neg h, if_neg h]

/-- A command's output stands at the front of BUF_OUT. -/
theorem State.readBytes_putOut (bs : List Byte) (s : State) :
    (s.putOut bs).readBytes Config.bufOutBase bs.length = bs := by
  refine List.ext_getElem (by simp) fun k h1 h2 => ?_
  simp only [State.readBytes, List.getElem_map, List.getElem_range, State.readByte_putOut]
  rw [if_pos (by omega)]
  simp [List.getD_eq_getElem?_getD, List.getElem?_eq_getElem h2]

/-- Reading a byte after a host write of BUF_IN. -/
theorem State.readByte_putIn (base : Nat) (bs : List Byte) (s : State) (a : Nat) :
    (s.putIn base bs).readByte a =
      if base ≤ a ∧ a < base + bs.length then bs.getD (a - base) 0 else s.readByte a := by
  simp only [State.readByte, State.putIn_mem, State.putIn_boots, Memory.read_writeBytes]
  by_cases h : base ≤ a ∧ a < base + bs.length
  · have h2 : a - base < bs.length := by omega
    rw [if_pos h, if_pos h]
    simp [List.getElem?_eq_getElem h2, List.getD_eq_getElem?_getD]
  · rw [if_neg h, if_neg h]

@[simp] theorem be32_length (v : Word) : (be32 v).length = 4 := rfl

@[simp] theorem leBytes_length (v : Word) : (leBytes v).length = 4 := rfl

end Sys2Proof.Machine
end

