-- ==== Sys2Proof/Laws/Units.lean ====
section
/-! SUPPORT. For each shared operation of the units, what it can do, said once: lengths, bounds and inversions. -/

namespace Sys2Proof.Machine

/-! ### Completion -/

theorem finishOk_eq_next {s t : State} (h : finishOk s = .next t) : t = s.complete .none true := by
  simpa [finishOk, eq_comm] using h

theorem finishNone_eq_next {s t : State} (h : finishNone s = .next t) : t = s.complete .none false := by
  simpa [finishNone, eq_comm] using h

theorem raise_eq_next {c : ErrCode} {s t : State} (h : raise c s = .next t) : t = s.complete c false := by
  simpa [raise, eq_comm] using h

/-! ### Rounding up -/

/-- `ceilDiv` is the ceiling of the exact quotient (R9). -/
theorem ceilDiv_eq_ceil (a b : Nat) (hb : 0 < b) : (ceilDiv a b : ℤ) = ⌈(a : ℚ) / b⌉ := by
  symm
  rw [Int.ceil_eq_iff]
  have hbq : (0 : ℚ) < b := by exact_mod_cast hb
  have h := Nat.div_add_mod (a + b - 1) b
  have hm := Nat.mod_lt (a + b - 1) hb
  unfold ceilDiv
  set k := (a + b - 1) / b
  have h1 : a ≤ b * k := by omega
  have h2 : b * k < a + b := by omega
  constructor
  · rw [lt_div_iff₀ hbq]
    have : (b : ℚ) * k < a + b := by exact_mod_cast h2
    push_cast
    nlinarith
  · rw [div_le_iff₀ hbq]
    have : (a : ℚ) ≤ b * k := by exact_mod_cast h1
    push_cast
    nlinarith

/-! ### Operands -/

/-- The three parity levels and their lengths (R6). -/
theorem nsymOf_cases {lvl : BitVec 4} {n : Nat} (h : nsymOf lvl = some n) :
    lvl = 1 ∧ n = 16 ∨ lvl = 2 ∧ n = 32 ∨ lvl = 3 ∧ n = 64 := by
  unfold nsymOf at h
  split at h <;> simp_all [← BitVec.toNat_inj]

theorem nsymOf_pos {lvl : BitVec 4} {n : Nat} (h : nsymOf lvl = some n) : 0 < n := by
  rcases nsymOf_cases h with ⟨-, rfl⟩ | ⟨-, rfl⟩ | ⟨-, rfl⟩ <;> decide

/-! ### Compressor -/

theorem matchesFront_length {w s : List Byte} (h : matchesFront w s = true) : w.length ≤ s.length := by
  induction w generalizing s with
  | nil => simp
  | cons b w ih =>
    cases s with
    | nil => simp [matchesFront] at h
    | cons c s =>
      simp only [matchesFront, Bool.and_eq_true] at h
      simpa using ih h.2

/-- `compress` never adds more than its two magic bytes (R109). -/
theorem compress_length (d : Dict) (s : List Byte) : (compress d s).2.length ≤ s.length + 2 := by
  unfold compress
  split
  · dsimp only; omega
  · split
    · dsimp only; omega
    · simp

/-- A form other than raw is chosen only when it shrinks the input (R105). -/
theorem compress_shrinks {d : Dict} {s : List Byte} (h : (compress d s).1 ≠ .raw) :
    (compress d s).2.length < s.length := by
  unfold compress at *
  split
  · assumption
  · split
    · assumption
    · simp_all

/-- The output bound and the mode of a bounded output (R109). -/
theorem boundOutput_some {m : Mode} {o : Option (List Byte)} {r : Mode × List Byte} (h : boundOutput m o = some r) :
    o = some r.2 ∧ r.1 = m ∧ r.2.length ≤ Config.bufOutSize := by
  unfold boundOutput at h
  split at h
  · split at h
    · simp at h
    · cases h
      exact ⟨rfl, rfl, by dsimp only; omega⟩
  · simp at h

/-- What `decompress` answers never exceeds BUF_OUT (R109). -/
theorem decompress_length {d : Dict} {c : List Byte} {r : Mode × List Byte} (h : decompress d c = some r) :
    r.2.length ≤ Config.bufOutSize := by
  unfold decompress at h
  split at h
  · simp at h
  · split at h
    · exact (boundOutput_some h).2.2
    · split at h
      · exact (boundOutput_some h).2.2
      · split at h
        · simp at h
        · split at h
          · exact (boundOutput_some h).2.2
          · simp at h

/-! ### Reed-Solomon -/

@[simp] theorem addPoly_length (a b : List Byte) : (addPoly a b).length = min a.length b.length := by
  simp [addPoly]

@[simp] theorem scalePoly_length (c : Byte) (g : List Byte) : (scalePoly c g).length = g.length := by
  simp [scalePoly]

@[simp] theorem genStep_length (g : List Byte) (i : Nat) : (genStep g i).length = g.length + 1 := by
  simp [genStep]

theorem gen_succ (n : Nat) : gen (n + 1) = genStep (gen n) n := by
  simp [gen, List.range_succ]

@[simp] theorem gen_length (n : Nat) : (gen n).length = n + 1 := by
  induction n with
  | zero => rfl
  | succ n ih => simp [gen_succ, ih]

theorem lfsrStep_length {g p : List Byte} (m : Byte) (h : g.length = p.length) (hp : p ≠ []) :
    (lfsrStep g p m).length = p.length := by
  have : 0 < p.length := List.length_pos_iff.2 hp
  simp [lfsrStep, h]
  omega

/-- The parity has nsym bytes (R144). -/
theorem rsParity_length (m : List Byte) {n : Nat} (hn : 0 < n) : (rsParity m n).length = n := by
  unfold rsParity
  have key : ∀ (m p : List Byte), p.length = n → (m.foldl (lfsrStep (gen n).tail) p).length = n := by
    intro m
    induction m with
    | nil => intro p hp; simpa using hp
    | cons b m ih =>
      intro p hp
      refine ih _ ?_
      rw [lfsrStep_length b (by simp [hp]) (by rintro rfl; simp at hp; omega), hp]
  exact key m _ (by simp)

theorem rsEncode_length (m : List Byte) {n : Nat} (hn : 0 < n) : (rsEncode m n).length = m.length + n := by
  simp [rsEncode, rsParity_length m hn]

/-- `rs_detect` answers the string less its parity, exactly when every syndrome is zero (R146). -/
theorem rsDetect_eq_some {r m : List Byte} {n : Nat} :
    rsDetect r n = some m ↔ (∀ i < n, syndrome r i = 0) ∧ m = r.take (r.length - n) := by
  have hz : syndromesZero r n = true ↔ ∀ i < n, syndrome r i = 0 := by
    simp [syndromesZero]
  unfold rsDetect
  by_cases h : syndromesZero r n = true
  · rw [if_pos h, Option.some.injEq]
    exact ⟨fun e => ⟨hz.1 h, e.symm⟩, fun e => e.2.symm⟩
  · simp only [h, Bool.false_eq_true, if_false, reduceCtorEq, false_iff, not_and]
    exact fun hs => absurd (hz.2 hs) h

/-! ### Framer -/

/-- The relay packet: 14 header bytes and the payload, for at most 114 payload bytes (R180). -/
theorem relaySer_eq_some {src dst ts : Word} {ch : Byte} {pl pkt : List Byte} :
    relaySer src dst ch ts pl = some pkt ↔
      pl.length ≤ 114 ∧ pkt = [1] ++ be32 src ++ be32 dst ++ [ch] ++ be32 ts ++ pl := by
  unfold relaySer
  simp only [Config.relayPayloadCap, relayVersion]
  by_cases h : 114 < pl.length
  · have h2 : ¬ pl.length ≤ 114 := by omega
    simp [h, h2]
  · have h2 : pl.length ≤ 114 := by omega
    simp [h, h2, eq_comm]

theorem relaySer_length {src dst ts : Word} {ch : Byte} {pl pkt : List Byte}
    (h : relaySer src dst ch ts pl = some pkt) : pkt.length = 14 + pl.length ∧ pkt.length ≤ 128 := by
  obtain ⟨h1, rfl⟩ := relaySer_eq_some.1 h
  have h2 : ([1] ++ be32 src ++ be32 dst ++ [ch] ++ be32 ts ++ pl).length = 14 + pl.length := by
    simp [be32]; omega
  omega

/-- Every packet `create` answers is within the 237-byte cap (R174). -/
theorem frameBuild_length {p : Params} {comp fec : BitVec 4} {m : List Byte} {r : Mode × List Byte}
    (h : frameBuild p comp fec m = .ok r) : r.2.length ≤ Config.pktCap := by
  unfold frameBuild at h
  split at h
  · cases h
  · split at h
    · cases h
    · dsimp only at h
      split at h
      · cases h
      · cases h
        dsimp only
        omega

/-- What FEC detection passes on is no longer than the body (R176). -/
theorem frameUnprotect_length {fec : BitVec 4} {body m : List Byte} (h : frameUnprotect fec body = .ok m) :
    m.length ≤ body.length := by
  unfold frameUnprotect at h
  split at h
  · cases h; exact le_refl _
  · split at h
    · cases h
    · split at h
      · cases h
      · split at h
        · cases h
        · rename_i hd
          cases h
          rw [(rsDetect_eq_some.1 hd).2]
          simp

/-- Every message `parse` answers fits BUF_OUT, for a packet that fits BUF_IN (R109, R176). -/
theorem frameRead_length {d : Dict} {p : List Byte} {r : Parsed} (hp : p.length ≤ Config.bufOutSize)
    (h : frameRead d p = .ok r) : r.msg.length ≤ Config.bufOutSize := by
  unfold frameRead at h
  split at h
  · split at h
    · cases h
    · split at h
      · cases h
      · rename_i hu
        split at h
        · cases h
        · rename_i hm
          cases h
          unfold frameUnpack at hm
          split at hm
          · cases hm
            have := frameUnprotect_length hu
            simp only [List.length_cons] at hp
            dsimp only
            omega
          · split at hm
            · cases hm
            · cases hm
              rename_i hd
              exact decompress_length hd
          · cases hm
  · cases h

/-! ### Queue, duty cycle, pass window -/

theorem State.selected_mem {s : State} {e : QEntry} (h : s.selected = some e) : e ∈ s.queue :=
  List.mem_of_getElem? h

/-- The report of an entry is its bytes in BUF_OUT and four result words (R212, R213). -/
@[simp] theorem State.reportEntry_eq (s : State) (e : QEntry) :
    s.reportEntry e = (s.putOut e.data).setResults (BitVec.ofNat 32 (sel s.queue)) e.id (metaWord e) e.ttlS := rfl

theorem removeAt_sublist (q : List QEntry) (k : Nat) : (removeAt q k).Sublist q := by
  rw [removeAt, ← List.eraseIdx_eq_take_drop_succ]
  exact List.eraseIdx_sublist q k

/-- The roll restarts the window at NOW, or does nothing (R240). -/
theorem State.roll_cases (s : State) :
    s.windowElapsed = true ∧ s.roll = s.setBudget 0 s.now ∨ s.windowElapsed = false ∧ s.roll = s := by
  unfold State.roll
  cases s.windowElapsed <;> simp

/-- A tick stays, wakes or sleeps (R271). -/
theorem State.takeEdge_cases (s : State) :
    s.passEdge = .stay ∧ s.takeEdge s.passEdge = s ∨
    s.passEdge = .wake ∧ s.pwState = .idle ∧
      s.takeEdge s.passEdge = s.setPass .active s.nextPassTime s.lastPassTime ∨
    s.passEdge = .sleep ∧ s.pwState = .active ∧
      s.takeEdge s.passEdge =
        s.setPass .idle (satBits 64 (s.now.toNat + s.params.pwIntervalMs.toNat)) s.nextPassTime := by
  unfold State.passEdge
  cases s.pwState <;> dsimp only <;> split <;> simp [State.takeEdge]

/-! ### Bus -/

/-- A word write of BUF_IN stays inside BUF_IN (R61, R62). -/
theorem target_bufIn {off : BitVec 12} {a : Nat} (h : target off = .bufIn a) :
    Config.bufInBase ≤ a ∧ a + 4 ≤ Config.bufInBase + Config.bufInSize := by
  have h4 : wordOffset off % 4 = 0 := by
    clear h
    revert off
    decide +kernel
  unfold target at h
  dsimp only at h
  split at h
  · cases h
  · split at h
    · cases h
      simp only [Config.bufInBase, Config.bufInSize] at *
      omega
    · split at h <;> cases h

end Sys2Proof.Machine
end

