-- ==== Sys2Proof/Laws/Exec.lean ====
section
/-! SUPPORT. What a command can do, said once for all commands: `exec` answers a next state, and the state is one of
twelve forms. A proof about every command is a case analysis on `Effect`. -/

namespace Sys2Proof.Machine

/-- The commands that write the budget (R240 to R245). -/
def chargesBudget (i : Instr) : Prop := i = .dcPoll ∨ i = .dcCanTx ∨ i = .dcConsume

/-- The forms of the state after a command. -/
inductive Effect (s : State) (i : Instr) : State → Prop where
  /-- A failure that commits STATUS alone (R302). -/
  | fails (c : ErrCode) (raised : c.bits ∈ errorsOf i) (notNone : c ≠ .none) (notFull : c ≠ .queueFull)
      (notDropped : c ≠ .deliveryFailed) : Effect s i (s.complete c false)
  /-- QueueFull, with its counter (R35). -/
  | full (raised : (5 : BitVec 4) ∈ errorsOf i) (capacity : s.queue.length = 64) :
      Effect s i (s.countQfull.complete .queueFull false)
  /-- DeliveryFailed, with its counter and HOLD_VALID (R215). -/
  | dropped (r : BitVec 4) (isResult : i = .qResult r) :
      Effect s i (s.releaseHold.countDfail.complete .deliveryFailed false)
  /-- Nothing to take (R212, R213). -/
  | empty (isTake : i = .qDequeue ∨ i = .qPeek) (noEntry : s.queue = []) : Effect s i (s.complete .none false)
  /-- Bytes in BUF_OUT and words in the result registers, and nothing else. -/
  | output (bs : List Byte) (r0 r1 r2 r3 : Word)
      (bound : (∀ e ∈ s.queue, e.data.length ≤ 128) → bs.length ≤ Config.bufOutSize) :
      Effect s i (((s.putOut bs).setResults r0 r1 r2 r3).complete .none true)
  /-- Words in the result registers alone. -/
  | answers (r0 r1 : Word) : Effect s i (((s.setResult0 r0).setResult1 r1).complete .none true)
  /-- Q_ENQUEUE (R210). -/
  | enqueued (p : BitVec 4) (n : Byte) (isEnqueue : i = .qEnqueue p n) (prio : BitVec 2) (data : List Byte)
      (dataLength : 14 ≤ data.length ∧ data.length ≤ 128) (room : s.queue.length ≠ 64) (r0 r1 : Word) :
      Effect s i ((((s.setQueue (s.queue ++ [s.newEntry prio data])).setResult0 r0).setResult1 r1).complete .none true)
  /-- Q_DEQUEUE (R212). -/
  | dequeued (isDequeue : i = .qDequeue) (e : QEntry) (taken : s.selected = some e) :
      Effect s i
        ((((s.reportEntry e).setQueue (removeAt s.queue (sel s.queue))).setHold e).complete .none true)
  /-- Q_PURGE (R214). -/
  | purged (isPurge : i = .qPurge) (kept : List QEntry) (sub : kept.Sublist s.queue) (n : Nat) (r0 : Word) :
      Effect s i ((((s.setQueue kept).countExpired n).setResult0 r0).complete .none true)
  /-- Q_RESULT 1 (R215). -/
  | delivered (r : BitVec 4) (isResult : i = .qResult r) (r0 : Word) :
      Effect s i ((s.releaseHold.setResult0 r0).complete .none true)
  /-- Q_RESULT 0 with retries left (R215). -/
  | requeued (r : BitVec 4) (isResult : i = .qResult r) (held : s.holdValid = true) (retry : BitVec 2)
      (room : s.queue.length ≠ 64) (r0 r1 : Word) :
      Effect s i (((((s.setQueue (s.queue ++ [{ s.hold with retry := retry }])).releaseHold).setResult0 r0).setResult1
        r1).complete .none true)
  /-- A command of the duty-cycle limiter (R243 to R245). -/
  | charged (isCharge : chargesBudget i) (used : Word) (windowStart : DWord) (r0 r1 : Word) :
      Effect s i ((((s.setBudget used windowStart).setResult0 r0).setResult1 r1).complete .none true)
  /-- PW_TICK (R271). -/
  | ticked (isTick : i = .pwTick) (st : PwState) (next last : DWord) (r0 r1 : Word) :
      Effect s i ((((s.setPass st next last).setResult0 r0).setResult1 r1).complete .none true)

/-- A state with the output of `putOut bs` has `bs` at the front of BUF_OUT, and every other byte as before (R29). -/
theorem wroteOut_of {s t : State} {bs : List Byte} (h : bs.length ≤ 2048) (hm : t.mem = (s.putOut bs).mem)
    (ho : t.outLen = (s.putOut bs).outLen) (hb : t.boots = s.boots) : wroteOut bs s t := by
  have hr : ∀ a, t.readByte a = (s.putOut bs).readByte a := fun a => State.readByte_congr hm (by simp [hb]) a
  refine ⟨?_, ?_, fun a ha => ?_⟩
  · rw [ho, State.putOut_outLen, BitVec.toNat_ofNat]
    omega
  · conv_rhs => rw [← State.readBytes_putOut bs s]
    unfold State.readBytes
    simp only [hr]
  · rw [hr, State.readByte_putOut, if_neg (by omega)]

/-- The command answers a next state of one of the forms. -/
def hasEffect (s : State) (i : Instr) (o : Host.Outcome State Fault Refusal) : Prop :=
  ∃ t, o = .next t ∧ Effect s i t

theorem hasEffect_invalid {s : State} {i : Instr} (h : (1 : BitVec 4) ∈ errorsOf i) :
    hasEffect s i (raise .invalidInput s) :=
  ⟨_, rfl, .fails _ h (by decide) (by decide) (by decide)⟩

theorem hasEffect_output {s : State} {i : Instr} {bs : List Byte} (r0 r1 r2 r3 : Word)
    (h : bs.length ≤ Config.bufOutSize) : hasEffect s i (finishOk ((s.putOut bs).setResults r0 r1 r2 r3)) :=
  ⟨_, rfl, .output bs r0 r1 r2 r3 fun _ => h⟩

theorem effect_compress (len : Byte) (s : State) : hasEffect s (.compress len) (execCompress len s) := by
  unfold execCompress
  split
  · exact hasEffect_invalid (by simp [errorsOf])
  · have := compress_length s.params.dict (s.input len)
    have hl := len.isLt
    rw [State.input_length] at this
    exact hasEffect_output _ s.result1 s.result2 s.result3 (by simp only [Config.bufOutSize]; omega)

theorem effect_decompress (len : Byte) (s : State) : hasEffect s (.decompress len) (execDecompress len s) := by
  unfold execDecompress
  split
  · exact hasEffect_invalid (by simp [errorsOf])
  · exact hasEffect_output _ s.result1 s.result2 s.result3 (decompress_length ‹_›)

theorem effect_rsEncode (lvl : BitVec 4) (len : Byte) (s : State) :
    hasEffect s (.rsEncode lvl len) (execRsEncode lvl len s) := by
  unfold execRsEncode
  split
  · exact hasEffect_invalid (by simp [errorsOf])
  · rename_i nsym hn
    split
    · exact hasEffect_invalid (by simp [errorsOf])
    · refine hasEffect_output s.result0 s.result1 s.result2 s.result3 ?_
      rw [rsEncode_length _ (nsymOf_pos hn), State.input_length]
      simp only [Config.rsMaxN, Config.bufOutSize] at *
      omega

theorem effect_rsDecode (lvl : BitVec 4) (len : Byte) (s : State) :
    hasEffect s (.rsDecode lvl len) (execRsDecode lvl len s) := by
  unfold execRsDecode
  split
  · exact hasEffect_invalid (by simp [errorsOf])
  · split
    · exact hasEffect_invalid (by simp [errorsOf])
    · split
      · exact ⟨_, rfl, .fails _ (by simp [errorsOf, ErrCode.bits]) (by decide) (by decide) (by decide)⟩
      · rename_i m hm
        refine hasEffect_output s.result0 s.result1 s.result2 s.result3 ?_
        have hl := len.isLt
        rw [(rsDetect_eq_some.1 hm).2, List.length_take, State.input_length]
        simp only [Config.bufOutSize]
        omega

/-- What `create` can answer instead of a packet (R174). -/
theorem frameBuild_error {p : Params} {comp fec : BitVec 4} {m : List Byte} {e : ErrCode}
    (h : frameBuild p comp fec m = .error e) : e = .invalidInput ∨ e = .translationError := by
  unfold frameBuild at h
  split at h
  · rename_i hb
    cases h
    unfold frameBody at hb
    split at hb
    · cases hb
    · split at hb
      · cases hb; exact .inl rfl
      · split at hb
        · cases hb; exact .inl rfl
        · cases hb
    · cases hb; exact .inl rfl
  · split at h
    · rename_i hb
      cases h
      unfold framePayload at hb
      split at hb
      · cases hb
      · split at hb
        · cases hb; exact .inl rfl
        · split at hb
          · cases hb; exact .inl rfl
          · split at hb
            · cases hb; exact .inl rfl
            · cases hb
    · dsimp only at h
      split at h
      · cases h; exact .inr rfl
      · cases h

/-- What `parse` can answer instead of a message (R176). -/
theorem frameRead_error {d : Dict} {p : List Byte} {e : ErrCode} (h : frameRead d p = .error e) :
    e = .invalidInput ∨ e = .unsupportedVersion ∨ e = .uncorrectable := by
  unfold frameRead at h
  split at h
  · split at h
    · cases h; exact .inr (.inl rfl)
    · split at h
      · rename_i hb
        cases h
        unfold frameUnprotect at hb
        split at hb
        · cases hb
        · split at hb
          · cases hb; exact .inl rfl
          · split at hb
            · cases hb; exact .inl rfl
            · split at hb
              · cases hb; exact .inr (.inr rfl)
              · cases hb
      · split at h
        · rename_i hb
          cases h
          unfold frameUnpack at hb
          split at hb
          · cases hb
          · split at hb
            · cases hb; exact .inl rfl
            · cases hb
          · cases hb; exact .inl rfl
        · cases h
  · cases h; exact .inl rfl

theorem effect_frameCreate (comp fec : BitVec 4) (len : Byte) (s : State) :
    hasEffect s (.frameCreate comp fec len) (execFrameCreate comp fec len s) := by
  unfold execFrameCreate
  split
  · rename_i h
    rcases frameBuild_error h with rfl | rfl
    · exact hasEffect_invalid (by simp [errorsOf])
    · exact ⟨_, rfl, .fails _ (by simp [errorsOf, ErrCode.bits]) (by decide) (by decide) (by decide)⟩
  · rename_i h
    have := frameBuild_length h
    exact hasEffect_output _ s.result1 s.result2 s.result3
      (by simp only [Config.pktCap, Config.bufOutSize] at *; omega)

theorem effect_frameParse (len : Byte) (s : State) : hasEffect s (.frameParse len) (execFrameParse len s) := by
  unfold execFrameParse
  split
  · rename_i h
    rcases frameRead_error h with rfl | rfl | rfl
    · exact hasEffect_invalid (by simp [errorsOf])
    · exact ⟨_, rfl, .fails _ (by simp [errorsOf, ErrCode.bits]) (by decide) (by decide) (by decide)⟩
    · exact ⟨_, rfl, .fails _ (by simp [errorsOf, ErrCode.bits]) (by decide) (by decide) (by decide)⟩
  · rename_i h
    have hl := len.isLt
    exact hasEffect_output _ _ s.result2 s.result3
      (frameRead_length (by simp only [State.input_length, Config.bufOutSize]; omega) h)

theorem effect_relaySerialize (len : Byte) (s : State) :
    hasEffect s (.relaySerialize len) (execRelaySerialize len s) := by
  unfold execRelaySerialize
  split
  · exact ⟨_, rfl, .fails _ (by simp [errorsOf, ErrCode.bits]) (by decide) (by decide) (by decide)⟩
  · rename_i h
    have := relaySer_length h
    exact hasEffect_output s.result0 s.result1 s.result2 s.result3 (by simp only [Config.bufOutSize]; omega)

theorem effect_relayDeserialize (len : Byte) (s : State) :
    hasEffect s (.relayDeserialize len) (execRelayDeserialize len s) := by
  unfold execRelayDeserialize
  dsimp only
  split
  · exact hasEffect_invalid (by simp [errorsOf])
  · split
    · exact ⟨_, rfl, .fails _ (by simp [errorsOf, ErrCode.bits]) (by decide) (by decide) (by decide)⟩
    · split
      · exact hasEffect_invalid (by simp [errorsOf])
      · have hl := len.isLt
        exact hasEffect_output _ _ _ _ (by simp only [List.length_drop, State.input_length, Config.bufOutSize]; omega)

theorem effect_qEnqueue (prio : BitVec 4) (len : Byte) (s : State) :
    hasEffect s (.qEnqueue prio len) (execQEnqueue prio len s) := by
  unfold execQEnqueue
  split
  · exact ⟨_, rfl, .full (by simp [errorsOf]) ‹_›⟩
  · rename_i hq
    split
    · exact hasEffect_invalid (by simp [errorsOf])
    · split
      · exact ⟨_, rfl, .fails _ (by simp [errorsOf, ErrCode.bits]) (by decide) (by decide) (by decide)⟩
      · rename_i h
        have := relaySer_length h
        exact ⟨_, rfl, .enqueued _ _ rfl _ _ (by omega) hq _ _⟩

theorem sel_lt {q : List QEntry} (h : q ≠ []) : sel q < q.length := by
  have key : ∀ (es : List QEntry) (b : QEntry) (k i : Nat), k < i → selectFrom b k i es < i + es.length := by
    intro es
    induction es with
    | nil => intro b k i hk; simpa [selectFrom] using hk
    | cons e es ih =>
      intro b k i hk
      simp only [selectFrom, List.length_cons]
      split
      · have := ih e i (i + 1) (by omega); omega
      · have := ih b k (i + 1) (by omega); omega
  cases q with
  | nil => exact absurd rfl h
  | cons e es => have := key es e 0 1 (by omega); simp only [sel, List.length_cons]; omega

theorem State.selected_eq_none {s : State} (h : s.selected = none) : s.queue = [] := by
  by_contra hne
  rw [State.selected, List.getElem?_eq_none_iff] at h
  exact absurd (sel_lt hne) (by omega)

theorem effect_qDequeue (s : State) : hasEffect s .qDequeue (execQDequeue s) := by
  unfold execQDequeue
  split
  · exact ⟨_, rfl, .empty (.inl rfl) (State.selected_eq_none ‹_›)⟩
  · exact ⟨_, rfl, .dequeued rfl _ ‹_›⟩

theorem effect_qPeek (s : State) : hasEffect s .qPeek (execQPeek s) := by
  unfold execQPeek
  split
  · exact ⟨_, rfl, .empty (.inr rfl) (State.selected_eq_none ‹_›)⟩
  · rename_i e h
    refine ⟨_, rfl, .output e.data _ _ _ _ fun hq => ?_⟩
    have := hq e (State.selected_mem h)
    simp only [Config.bufOutSize]
    omega

theorem effect_qPurge (s : State) : hasEffect s .qPurge (execQPurge s) :=
  ⟨_, rfl, .purged rfl _ List.filter_sublist _ _⟩

theorem effect_qResult (r : BitVec 4) (s : State) : hasEffect s (.qResult r) (execQResult r s) := by
  unfold execQResult
  split
  · exact hasEffect_invalid (by simp [errorsOf])
  · split
    · exact hasEffect_invalid (by simp [errorsOf])
    · rename_i hv
      split
      · exact ⟨_, rfl, .delivered r rfl _⟩
      · unfold retryHold
        split
        · split
          · exact ⟨_, rfl, .full (by simp [errorsOf]) ‹_›⟩
          · exact ⟨_, rfl, .requeued r rfl (by simpa using hv) _ ‹_› _ _⟩
        · exact ⟨_, rfl, .dropped r rfl⟩

/-- Words in the result registers alone. -/
theorem hasEffect_answer (s : State) (i : Instr) (a : Word) : hasEffect s i (finishOk (s.setResult0 a)) :=
  ⟨_, rfl, Effect.answers (s := s) a s.result1⟩

theorem effect_dcEstimate (len : Byte) (s : State) : hasEffect s (.dcEstimate len) (execDcEstimate len s) :=
  hasEffect_answer s (.dcEstimate len) _

theorem effect_dcPoll (s : State) : hasEffect s .dcPoll (execDcPoll s) := by
  unfold execDcPoll
  rcases s.roll_cases with ⟨-, h⟩ | ⟨-, h⟩ <;> rw [h]
  · exact ⟨_, rfl, Effect.charged (s := s) (.inl rfl) 0 s.now (s.setBudget 0 s.now).remaining s.result1⟩
  · exact ⟨_, rfl, Effect.charged (s := s) (.inl rfl) s.used s.windowStart s.remaining s.result1⟩

theorem effect_dcCanTx (s : State) : hasEffect s .dcCanTx (execDcCanTx s) := by
  unfold execDcCanTx
  rcases s.roll_cases with ⟨-, h⟩ | ⟨-, h⟩ <;> rw [h]
  · exact ⟨_, rfl, Effect.charged (s := s) (.inr (.inl rfl)) 0 s.now _ _⟩
  · exact ⟨_, rfl, Effect.charged (s := s) (.inr (.inl rfl)) s.used s.windowStart _ _⟩

theorem effect_dcConsume (s : State) : hasEffect s .dcConsume (execDcConsume s) := by
  unfold execDcConsume
  dsimp only
  generalize satBits 32 (s.roll.used.toNat + s.arg0.toNat) = u
  rcases s.roll_cases with ⟨-, h⟩ | ⟨-, h⟩ <;> rw [h]
  · exact ⟨_, rfl, Effect.charged (s := s) (.inr (.inr rfl)) u s.now u s.result1⟩
  · exact ⟨_, rfl, Effect.charged (s := s) (.inr (.inr rfl)) u s.windowStart u s.result1⟩

theorem effect_pwTick (s : State) : hasEffect s .pwTick (execPwTick s) := by
  unfold execPwTick
  rcases s.takeEdge_cases with ⟨-, h⟩ | ⟨-, -, h⟩ | ⟨-, -, h⟩ <;> rw [h]
  · exact ⟨_, rfl, .ticked rfl s.pwState s.nextPassTime s.lastPassTime _ _⟩
  · exact ⟨_, rfl, .ticked rfl _ _ _ _ _⟩
  · exact ⟨_, rfl, .ticked rfl _ _ _ _ _⟩

/-- Every command answers a next state of one of the forms (R301). -/
theorem exec_hasEffect (i : Instr) (s : State) : hasEffect s i (exec i s) := by
  cases i with
  | compress len => exact effect_compress len s
  | decompress len => exact effect_decompress len s
  | rsEncode lvl len => exact effect_rsEncode lvl len s
  | rsDecode lvl len => exact effect_rsDecode lvl len s
  | frameCreate comp fec len => exact effect_frameCreate comp fec len s
  | frameParse len => exact effect_frameParse len s
  | relaySerialize len => exact effect_relaySerialize len s
  | relayDeserialize len => exact effect_relayDeserialize len s
  | qEnqueue prio len => exact effect_qEnqueue prio len s
  | qDequeue => exact effect_qDequeue s
  | qPeek => exact effect_qPeek s
  | qPurge => exact effect_qPurge s
  | qResult result => exact effect_qResult result s
  | dcEstimate len => exact effect_dcEstimate len s
  | dcPoll => exact effect_dcPoll s
  | dcCanTx => exact effect_dcCanTx s
  | dcConsume => exact effect_dcConsume s
  | pwTick => exact effect_pwTick s

/-- If a command answers a next state, it is one of the forms. -/
theorem exec_effect {i : Instr} {s t : State} (h : exec i s = .next t) : Effect s i t := by
  obtain ⟨u, hu, he⟩ := exec_hasEffect i s
  rw [h] at hu
  cases hu
  exact he

end Sys2Proof.Machine
end

