-- ==== Sys2Proof/Laws/Gf.lean ====
section
/-! SUPPORT. The arithmetic of GF(256) (spec/42_rs_fec.md R140, R141): `gfMul` is bilinear, commutative and associative,
and `gfExp` gives a basis of the bytes. -/

namespace Sys2Proof.Machine

theorem xtime_xor (a b : Byte) : xtime (a ^^^ b) = xtime a ^^^ xtime b := by
  unfold xtime
  rw [BitVec.getLsbD_xor, BitVec.shiftLeft_xor_distrib]
  cases a.getLsbD 7 <;> cases b.getLsbD 7
  · rfl
  · simp [BitVec.xor_assoc]
  · have h : ∀ x y c : Byte, x ^^^ y ^^^ c = x ^^^ c ^^^ y := by
      intro x y c
      rw [BitVec.xor_assoc, BitVec.xor_comm y c, BitVec.xor_assoc]
    simpa using h _ _ _
  · have h : ∀ x y c : Byte, x ^^^ y = x ^^^ c ^^^ (y ^^^ c) := by
      intro x y c
      rw [BitVec.xor_assoc, BitVec.xor_comm y c, ← BitVec.xor_assoc c, BitVec.xor_self, BitVec.zero_xor]
    exact h _ _ _

@[simp] theorem xtime_zero : xtime 0#8 = 0#8 := by decide

/-- The sum of four terms, regrouped. -/
theorem xor_swap (a b c d : Byte) : (a ^^^ b) ^^^ (c ^^^ d) = (a ^^^ c) ^^^ (b ^^^ d) := by
  rw [BitVec.xor_assoc, BitVec.xor_assoc, ← BitVec.xor_assoc b, BitVec.xor_comm b c, BitVec.xor_assoc]

theorem gfMulFrom_xor_left (a a' b : Byte) (k : Nat) (x x' : Byte) :
    gfMulFrom (a ^^^ a') b k (x ^^^ x') = gfMulFrom a b k x ^^^ gfMulFrom a' b k x' := by
  induction k generalizing x x' with
  | zero => rfl
  | succ k ih =>
    have h : xtime (x ^^^ x') ^^^ (if b.getLsbD k then a ^^^ a' else 0) =
        (xtime x ^^^ (if b.getLsbD k then a else 0)) ^^^ (xtime x' ^^^ (if b.getLsbD k then a' else 0)) := by
      rw [xtime_xor, xor_swap]
      cases b.getLsbD k <;> simp
    simp only [gfMulFrom, h, ih]

theorem gfMulFrom_xor_right (a b b' : Byte) (k : Nat) (x x' : Byte) :
    gfMulFrom a (b ^^^ b') k (x ^^^ x') = gfMulFrom a b k x ^^^ gfMulFrom a b' k x' := by
  induction k generalizing x x' with
  | zero => rfl
  | succ k ih =>
    have h : xtime (x ^^^ x') ^^^ (if (b ^^^ b').getLsbD k then a else 0) =
        (xtime x ^^^ (if b.getLsbD k then a else 0)) ^^^ (xtime x' ^^^ (if b'.getLsbD k then a else 0)) := by
      rw [xtime_xor, xor_swap, BitVec.getLsbD_xor]
      cases b.getLsbD k <;> cases b'.getLsbD k <;> simp
    simp only [gfMulFrom, h, ih]

theorem gfMulFrom_xtime (a b : Byte) (k : Nat) (x : Byte) :
    gfMulFrom (xtime a) b k (xtime x) = xtime (gfMulFrom a b k x) := by
  induction k generalizing x with
  | zero => rfl
  | succ k ih =>
    have h : xtime (xtime x) ^^^ (if b.getLsbD k then xtime a else 0) =
        xtime (xtime x ^^^ (if b.getLsbD k then a else 0)) := by
      rw [xtime_xor]
      cases b.getLsbD k <;> simp
    simp only [gfMulFrom, h, ih]

theorem gfMul_xor_left (a a' b : Byte) : gfMul (a ^^^ a') b = gfMul a b ^^^ gfMul a' b := by
  simpa [gfMul] using gfMulFrom_xor_left a a' b 8 0 0

theorem gfMul_xor_right (a b b' : Byte) : gfMul a (b ^^^ b') = gfMul a b ^^^ gfMul a b' := by
  simpa [gfMul] using gfMulFrom_xor_right a b b' 8 0 0

theorem gfMul_xtime_left (a b : Byte) : gfMul (xtime a) b = xtime (gfMul a b) := by
  simpa [gfMul] using gfMulFrom_xtime a b 8 0

@[simp] theorem gfMul_zero_left (b : Byte) : gfMul 0#8 b = 0#8 := by
  have h := gfMul_xor_left 0#8 0#8 b
  rwa [BitVec.xor_self, BitVec.xor_self] at h

@[simp] theorem gfMul_zero_right (a : Byte) : gfMul a 0#8 = 0#8 := by
  have h := gfMul_xor_right a 0#8 0#8
  rwa [BitVec.xor_self, BitVec.xor_self] at h

@[simp] theorem gfMul_one_left (b : Byte) : gfMul 1#8 b = b := by
  revert b; decide +kernel

@[simp] theorem gfMul_one_right (a : Byte) : gfMul a 1#8 = a := by
  revert a; decide +kernel

/-- The powers α^0 .. α^7 span the bytes: a property closed under sums holds of every byte once it holds of them. -/
theorem byte_span {P : Byte → Prop} (h0 : P 0) (hx : ∀ a b, P a → P b → P (a ^^^ b)) (he : ∀ i, P (gfExp i))
    (a : Byte) : P a := by
  have hbit : ∀ i, P (if a.getLsbD i then gfExp i else 0) := by
    intro i
    split
    · exact he i
    · exact h0
  have hsum : a = (List.range 8).foldl (fun acc i => acc ^^^ (if a.getLsbD i then gfExp i else 0)) 0 := by
    clear hbit
    revert a
    decide +kernel
  rw [hsum]
  have hfold : ∀ (l : List Nat) (acc : Byte), P acc →
      P (l.foldl (fun acc i => acc ^^^ (if a.getLsbD i then gfExp i else 0)) acc) := by
    intro l
    induction l with
    | nil => exact fun acc h => h
    | cons i l ih => exact fun acc h => ih _ (hx _ _ h (hbit i))
  exact hfold _ _ h0

theorem gfMul_exp_left (i : Nat) (b : Byte) : gfMul (gfExp i) b = xtime^[i] b := by
  induction i with
  | zero => simp [gfExp]
  | succ i ih => rw [gfExp, gfMul_xtime_left, ih, Function.iterate_succ_apply']

theorem gfMul_xtime_right (a b : Byte) : gfMul a (xtime b) = xtime (gfMul a b) := by
  induction a using byte_span with
  | h0 => simp
  | hx a a' iha iha' => rw [gfMul_xor_left, gfMul_xor_left, xtime_xor, iha, iha']
  | he i => rw [gfMul_exp_left, gfMul_exp_left, ← Function.iterate_succ_apply, Function.iterate_succ_apply']

theorem gfMul_exp_right (a : Byte) (i : Nat) : gfMul a (gfExp i) = xtime^[i] a := by
  induction i with
  | zero => simp [gfExp]
  | succ i ih => rw [gfExp, gfMul_xtime_right, ih, Function.iterate_succ_apply']

theorem gfMul_comm (a b : Byte) : gfMul a b = gfMul b a := by
  induction a using byte_span with
  | h0 => simp
  | hx a a' iha iha' => rw [gfMul_xor_left, gfMul_xor_right, iha, iha']
  | he i => rw [gfMul_exp_left, gfMul_exp_right]

theorem gfMul_assoc (a b c : Byte) : gfMul (gfMul a b) c = gfMul a (gfMul b c) := by
  induction a using byte_span with
  | h0 => simp
  | hx a a' iha iha' => rw [gfMul_xor_left, gfMul_xor_left, gfMul_xor_left, iha, iha']
  | he i =>
    rw [gfMul_exp_left, gfMul_exp_left]
    induction i with
    | zero => rfl
    | succ i ih =>
      rw [Function.iterate_succ_apply', gfMul_xtime_left, ih, Function.iterate_succ_apply']

end Sys2Proof.Machine
end

