-- ==== Sys2Proof/Laws/PerInstr.lean ====
section
/-! SUPPORT. Statements made per instruction. -/

namespace Sys2Proof.Laws

/-- What `EncodeFields` says of an encoding: the reserved byte is 0 (R80), the opcode is one of R82's, and a bit the
command's row gives no meaning is 0 (R87). -/
def EncodeFields.Statement (i : Instr) : Prop :=
  rsvField (encode i) = 0 ∧ opcField (encode i) ∈ [(0x10 : Byte), 0x11, 0x20, 0x21, 0x30, 0x31, 0x32, 0x33, 0x40, 0x41,
    0x42, 0x43, 0x44, 0x50, 0x51, 0x52, 0x53, 0x60] ∧ encode i &&& significantBits i = encode i

/-- The fields of a packed word are the ones packed (R80). -/
theorem packWord_fields (opc : Byte) (fa fb : BitVec 4) (len : Byte) :
    rsvField (packWord opc fa fb len) = 0 ∧ opcField (packWord opc fa fb len) = opc ∧
    faField (packWord opc fa fb len) = fa ∧ fbField (packWord opc fa fb len) = fb ∧
    lenField (packWord opc fa fb len) = len := by
  refine ⟨?_, ?_, ?_, ?_, ?_⟩ <;>
  · apply BitVec.eq_of_getLsbD_eq
    intro k hk
    unfold packWord
    simp only [rsvField, opcField, faField, fbField, lenField, BitVec.getLsbD_extractLsb', BitVec.getLsbD_append]
    interval_cases k <;> simp

/-- A packed word lies inside a mask of R80's fields when each field lies inside the mask's part. -/
theorem packWord_and (opc : Byte) (fa fb : BitVec 4) (len : Byte) (mopc : Byte) (mfa mfb : BitVec 4) (mlen : Byte)
    (ho : opc &&& mopc = opc) (ha : fa &&& mfa = fa) (hb : fb &&& mfb = fb) (hl : len &&& mlen = len) :
    packWord opc fa fb len &&& ((0xFF : Byte) ++ mlen ++ mfb ++ mfa ++ mopc) = packWord opc fa fb len := by
  unfold packWord
  rw [BitVec.and_append, BitVec.and_append, BitVec.and_append, BitVec.and_append, ho, ha, hb, hl]
  congr 1

/-- The three parts at once, for the word of an opcode of R82 whose fields lie inside its row's mask. -/
theorem encodeFields_of {i : Instr} (opc : Byte) (fa fb : BitVec 4) (len : Byte) (mfa mfb : BitVec 4) (mlen : Byte)
    (he : encode i = packWord opc fa fb len)
    (hm : significantBits i = (0xFF : Byte) ++ mlen ++ mfb ++ mfa ++ (0xFF : Byte))
    (ho : opc ∈ [(0x10 : Byte), 0x11, 0x20, 0x21, 0x30, 0x31, 0x32, 0x33, 0x40, 0x41, 0x42, 0x43, 0x44, 0x50, 0x51, 0x52,
      0x53, 0x60])
    (ha : fa &&& mfa = fa) (hb : fb &&& mfb = fb) (hl : len &&& mlen = len) : EncodeFields.Statement i := by
  unfold EncodeFields.Statement
  rw [he, hm, (packWord_fields ..).2.1]
  exact ⟨(packWord_fields ..).1, ho, packWord_and _ _ _ _ _ _ _ _ BitVec.and_allOnes ha hb hl⟩

theorem EncodeFields.compress (len : Byte) : EncodeFields.Statement (.compress len) :=
  encodeFields_of 0x10 0 0 len 0 0 0xFF rfl rfl (by decide) rfl rfl BitVec.and_allOnes

theorem EncodeFields.decompress (len : Byte) : EncodeFields.Statement (.decompress len) :=
  encodeFields_of 0x11 0 0 len 0 0 0xFF rfl rfl (by decide) rfl rfl BitVec.and_allOnes

theorem EncodeFields.rsEncode (lvl : BitVec 4) (len : Byte) : EncodeFields.Statement (.rsEncode lvl len) :=
  encodeFields_of 0x20 lvl 0 len 0xF 0 0xFF rfl rfl (by decide) BitVec.and_allOnes rfl BitVec.and_allOnes

theorem EncodeFields.rsDecode (lvl : BitVec 4) (len : Byte) : EncodeFields.Statement (.rsDecode lvl len) :=
  encodeFields_of 0x21 lvl 0 len 0xF 0 0xFF rfl rfl (by decide) BitVec.and_allOnes rfl BitVec.and_allOnes

theorem EncodeFields.frameCreate (comp : BitVec 4) (fec : BitVec 4) (len : Byte) : EncodeFields.Statement (.frameCreate comp fec len) :=
  encodeFields_of 0x30 comp fec len 0xF 0xF 0xFF rfl rfl (by decide) BitVec.and_allOnes BitVec.and_allOnes BitVec.and_allOnes

theorem EncodeFields.frameParse (len : Byte) : EncodeFields.Statement (.frameParse len) :=
  encodeFields_of 0x31 0 0 len 0 0 0xFF rfl rfl (by decide) rfl rfl BitVec.and_allOnes

theorem EncodeFields.relaySerialize (len : Byte) : EncodeFields.Statement (.relaySerialize len) :=
  encodeFields_of 0x32 0 0 len 0 0 0xFF rfl rfl (by decide) rfl rfl BitVec.and_allOnes

theorem EncodeFields.relayDeserialize (len : Byte) : EncodeFields.Statement (.relayDeserialize len) :=
  encodeFields_of 0x33 0 0 len 0 0 0xFF rfl rfl (by decide) rfl rfl BitVec.and_allOnes

theorem EncodeFields.qEnqueue (prio : BitVec 4) (len : Byte) : EncodeFields.Statement (.qEnqueue prio len) :=
  encodeFields_of 0x40 prio 0 len 0xF 0 0xFF rfl rfl (by decide) BitVec.and_allOnes rfl BitVec.and_allOnes

theorem EncodeFields.qDequeue : EncodeFields.Statement .qDequeue :=
  encodeFields_of 0x41 0 0 0 0 0 0 rfl rfl (by decide) rfl rfl rfl

theorem EncodeFields.qPeek : EncodeFields.Statement .qPeek :=
  encodeFields_of 0x42 0 0 0 0 0 0 rfl rfl (by decide) rfl rfl rfl

theorem EncodeFields.qPurge : EncodeFields.Statement .qPurge :=
  encodeFields_of 0x43 0 0 0 0 0 0 rfl rfl (by decide) rfl rfl rfl

theorem EncodeFields.qResult (result : BitVec 4) : EncodeFields.Statement (.qResult result) :=
  encodeFields_of 0x44 result 0 0 0xF 0 0 rfl rfl (by decide) BitVec.and_allOnes rfl rfl

theorem EncodeFields.dcEstimate (len : Byte) : EncodeFields.Statement (.dcEstimate len) :=
  encodeFields_of 0x50 0 0 len 0 0 0xFF rfl rfl (by decide) rfl rfl BitVec.and_allOnes

theorem EncodeFields.dcPoll : EncodeFields.Statement .dcPoll :=
  encodeFields_of 0x51 0 0 0 0 0 0 rfl rfl (by decide) rfl rfl rfl

theorem EncodeFields.dcCanTx : EncodeFields.Statement .dcCanTx :=
  encodeFields_of 0x52 0 0 0 0 0 0 rfl rfl (by decide) rfl rfl rfl

theorem EncodeFields.dcConsume : EncodeFields.Statement .dcConsume :=
  encodeFields_of 0x53 0 0 0 0 0 0 rfl rfl (by decide) rfl rfl rfl

theorem EncodeFields.pwTick : EncodeFields.Statement .pwTick :=
  encodeFields_of 0x60 0 0 0 0 0 0 rfl rfl (by decide) rfl rfl rfl

end Sys2Proof.Laws
end

