-- ==== Sys2Proof/Laws/Step.lean ====
section
/-! SUPPORT. What a step, a port event and a bus write can do, said once. -/

namespace Sys2Proof.Machine

/-- A command word completes as its command does, or with IllegalCommand (R84, R301). -/
theorem runCommand_cases (w : Word) (s : State) :
    (∃ i, decode w = .ok i ∧ runCommand w s = exec i s) ∨
    (∃ r, decode w = .error r) ∧ runCommand w s = .next (s.complete .illegalCommand false) := by
  unfold runCommand
  cases h : decode w with
  | ok i => exact .inl ⟨i, rfl, rfl⟩
  | error r => exact .inr ⟨⟨r, rfl⟩, rfl⟩

/-- A step that answers a next state waits, executes the pending command, or takes the oldest arrival; each case says
that it was this one's turn. -/
theorem step_next_cases {s t : State} (h : step s = .next t) :
    t = s ∧ s.pending = none ∧ s.inbox = [] ∨
    (∃ w, s.aboutToExecute w ∧ runCommand w s = .next t) ∨
    ∃ e rest, s.aboutToTake e rest ∧ portStep e (s.setInbox rest) = .next t := by
  unfold step guardedStep errReserved at h
  split at h
  · cases h
  · rename_i herr
    have he : s.err.toNat < 10 := by simpa using herr
    unfold blockStep at h
    split at h
    · rename_i w hp hi
      exact .inr (.inl ⟨w, ⟨he, hp, by simp [hi]⟩, h⟩)
    · rename_i w a rest hp hi
      split at h
      · rename_i ha
        exact .inr (.inr ⟨a.event, rest, ⟨he, a.early, hi, .inr ha⟩, h⟩)
      · rename_i ha
        refine .inr (.inl ⟨w, ⟨he, hp, fun b r hb => ?_⟩, h⟩)
        rw [hi] at hb
        cases hb
        simpa using ha
    · rename_i a rest hp hi
      exact .inr (.inr ⟨a.event, rest, ⟨he, a.early, hi, .inl hp⟩, h⟩)
    · rename_i hp hi
      cases h
      exact .inl ⟨rfl, hp, hi⟩

/-- A port event that answers a next state does nothing, reads, writes, or resets (R347). -/
theorem portStep_next_cases {e : PortEvent} {s t : State} (h : portStep e s = .next t) :
    t = s ∨ (∃ off, t = s.setRdata (s.busRead off)) ∨ (∃ off v, t = s.busWrite off v) ∨
      e = .rst ∧ t = s.powerOnReset := by
  have access_cases : ∀ (addr : Nat) (size : AccessSize) (act : BitVec 12 → State),
      s.access addr size act = .next t → t = s ∨ ∃ off, t = act off := by
    intro addr size act ha
    unfold State.access at ha
    split at ha
    · cases ha; exact .inl rfl
    · split at ha
      · cases ha; exact .inr ⟨_, rfl⟩
      · cases ha
      · cases ha
  cases e with
  | read size addr =>
    rcases access_cases _ _ _ h with h | ⟨off, h⟩
    · exact .inl h
    · exact .inr (.inl ⟨off, h⟩)
  | write size addr v =>
    rcases access_cases _ _ _ h with h | ⟨off, h⟩
    · exact .inl h
    · exact .inr (.inr (.inl ⟨off, v, h⟩))
  | rst => cases h; exact .inr (.inr (.inr ⟨rfl, rfl⟩))

/-- What a word write does to the block (R23, R25 to R27, R331, R336, R337). -/
theorem State.busWrite_cases (off : BitVec 12) (v : Word) (s : State) :
    s.busWrite off v = s.softReset ∨ s.busWrite off v = s.setIe (v.getLsbD 0) ∨
    s.busWrite off v = s.writeStatus v ∨ s.busy = true ∧ s.busWrite off v = s.setOvr ∨
    s.busy = false ∧ (s.busWrite off v = s.acceptCommand v ∨ (∃ n, s.busWrite off v = s.setNow n) ∨
      s.busWrite off v = s.setArg0 v ∨ s.busWrite off v = s.setArg1 v ∨ s.busWrite off v = s.setArg2 v ∨
      s.busWrite off v = s.setArg3 v ∨
      (∃ a, target off = .bufIn a ∧ s.busWrite off v = s.putIn a (leBytes v)) ∨ s.busWrite off v = s) := by
  unfold State.busWrite
  split
  · unfold State.writeCtrl
    split
    · exact .inl rfl
    · exact .inr (.inl rfl)
  · exact .inr (.inr (.inl rfl))
  · cases hb : s.busy with
    | true => exact .inr (.inr (.inr (.inl ⟨rfl, by simp⟩)))
    | false =>
      refine .inr (.inr (.inr (.inr ⟨rfl, ?_⟩)))
      simp only [Bool.false_eq_true, if_false]
      unfold State.writeIdle
      split
      · exact .inl rfl
      · exact .inr (.inl ⟨_, rfl⟩)
      · exact .inr (.inl ⟨_, rfl⟩)
      · exact .inr (.inr (.inl rfl))
      · exact .inr (.inr (.inr (.inl rfl)))
      · exact .inr (.inr (.inr (.inr (.inl rfl))))
      · exact .inr (.inr (.inr (.inr (.inr (.inl rfl)))))
      · rename_i a ht
        exact .inr (.inr (.inr (.inr (.inr (.inr (.inl ⟨a, ht, rfl⟩))))))
      · exact .inr (.inr (.inr (.inr (.inr (.inr (.inr rfl))))))

end Sys2Proof.Machine
end

