-- ==== Sys2Proof/Tests/Slice0.lean ====
section
/-! SUPPORT. Tests. Expected values are those of spec/95_test_vectors.md (the vector is named at each test) or worked
out by hand from the rule named; none is the model's own answer. The witnesses show that the hypotheses of each
obligation can be met. -/

-- One theorem at a time: elaborated side by side, this many evaluations exhaust the threads' memory.
set_option Elab.async false

namespace Sys2Proof.Machine.Tests

open Sys2Proof

/-! ### Helpers -/

/-- The reset state with bytes written at the front of BUF_IN. -/
def holding (bs : List Byte) : State := { State.reset with mem := cellsFrom Config.bufInBase bs }

/-- The state after the execution step of a command word; the reset state, whose DONE is 0, if there is none. -/
def ran (w : Word) (s : State) : State :=
  match step (s.withPending w) with
  | .next t => t
  | _ => State.reset

/-- The next state of an outcome; the reset state if there is none. -/
def finished : Host.Outcome State Fault Refusal → State
  | .next t => t
  | _ => State.reset

/-- `BUF_OUT[0 : OUT_LEN]`. -/
def shown (s : State) : List Byte := s.readBytes Config.bufOutBase s.outLen.toNat

/-- A header-only Normal relay packet's entry. -/
def plainEntry : QEntry := ⟨0, 2, 0, 21600, 0, List.replicate 14 0⟩

/-- A full queue (vector Q7). -/
def fullQueue : List QEntry := List.replicate 64 plainEntry

/-- The queue of vector Q2, front first: Normal, Emergency, High. -/
def threeEntries : List QEntry :=
  [⟨0x101, 2, 1000, 21600, 0, List.replicate 16 1⟩, ⟨0x201, 0, 1000, 86400, 0, List.replicate 16 2⟩,
   ⟨0x301, 1, 1000, 43200, 0, List.replicate 16 3⟩]

/-- Program P5's entry in HOLD after this many retries, with another High entry queued. -/
def sending (retry : BitVec 2) : State :=
  { State.reset with
    holdValid := true
    hold := ⟨0x0F, 1, 2000, 43200, retry, List.replicate 14 0⟩
    queue := [⟨7, 1, 0, 43200, 0, List.replicate 14 0⟩] }

/-! ### WellFormed refuses (R83, R100, R241) -/

theorem test_wf_refuses_rsEncode_level0 : Instr.wellFormed (.rsEncode 0 1) = false := by decide

theorem test_wf_refuses_rsEncode_level4 : Instr.wellFormed (.rsEncode 4 1) = false := by decide

theorem test_wf_refuses_rsDecode_level0 : Instr.wellFormed (.rsDecode 0 16) = false := by decide

theorem test_wf_refuses_rsDecode_level4 : Instr.wellFormed (.rsDecode 4 16) = false := by decide

theorem test_wf_refuses_frameCreate_codebook : Instr.wellFormed (.frameCreate 2 0 1) = false := by decide

theorem test_wf_refuses_frameCreate_fec4 : Instr.wellFormed (.frameCreate 0 4 1) = false := by decide

theorem test_wf_refuses_qEnqueue_priority4 : Instr.wellFormed (.qEnqueue 4 0) = false := by decide

theorem test_wf_refuses_qResult_2 : Instr.wellFormed (.qResult 2) = false := by decide

theorem test_wf_accepts_legal :
    ([.rsEncode 1 1, .rsDecode 3 64, .frameCreate 1 3 1, .qEnqueue 3 0, .qResult 1] : List Instr).all Instr.wellFormed =
      true := by decide

theorem test_dict_exDict_ok : Dict.wellFormed Config.exDict = true := by decide

theorem test_dict_refuses_empty : Dict.sizeOk [] = false := by decide

theorem test_dict_refuses_256_entries : Dict.sizeOk (List.replicate 256 ⟨[1], 1⟩) = false := by decide +kernel

theorem test_dict_refuses_escape_code : Dict.codesNotEscape [⟨[0x53, 0x4F, 0x53], 0xFF⟩] = false := by decide

theorem test_dict_refuses_equal_codes :
    Dict.codesDistinct [⟨[0x53, 0x4F, 0x53], 1⟩, ⟨[0x4F, 0x4B], 1⟩] = false := by decide

theorem test_dict_refuses_empty_word : Dict.wordLengthsOk [⟨[], 1⟩] = false := by decide

theorem test_dict_refuses_long_word : Dict.wordLengthsOk [⟨List.replicate 33 1, 1⟩] = false := by decide

theorem test_dict_refuses_without_sos : Dict.hasSos [⟨[0x4F, 0x4B], 4⟩] = false := by decide

theorem test_lora_refuses :
    Params.loraOk { Config.defaultParams with loraSf := 6 } = false ∧
    Params.loraOk { Config.defaultParams with loraSf := 13 } = false ∧
    Params.loraOk { Config.defaultParams with loraCr := 0 } = false ∧
    Params.loraOk { Config.defaultParams with loraCr := 5 } = false ∧
    Params.loraOk { Config.defaultParams with loraBwHz := 7799 } = false ∧
    Params.loraOk { Config.defaultParams with loraNPreamble := 65536 } = false := by decide

theorem test_params_default_ok : Config.defaultParams.wellFormed = true := by decide

/-! ### Decoding: each word written out from R80 and R82, `{RSV, LEN, FB, FA, OPC}` -/

theorem test_decode_compress : decode 0x000B0010 = .ok (.compress 11) := by rfl

theorem test_decode_decompress : decode 0x00090011 = .ok (.decompress 9) := by rfl

theorem test_decode_rsEncode : decode 0x00110120 = .ok (.rsEncode 1 17) := by rfl

theorem test_decode_rsDecode : decode 0x00210321 = .ok (.rsDecode 3 33) := by rfl

theorem test_decode_frameCreate : decode 0x000B2130 = .ok (.frameCreate 1 2 11) := by rfl

theorem test_decode_frameParse : decode 0x001B0031 = .ok (.frameParse 27) := by rfl

theorem test_decode_relaySerialize : decode 0x00720032 = .ok (.relaySerialize 114) := by rfl

theorem test_decode_relayDeserialize : decode 0x00800033 = .ok (.relayDeserialize 128) := by rfl

theorem test_decode_qEnqueue : decode 0x00020240 = .ok (.qEnqueue 2 2) := by rfl

theorem test_decode_qDequeue : decode 0x00000041 = .ok .qDequeue := by rfl

theorem test_decode_qPeek : decode 0x00000042 = .ok .qPeek := by rfl

theorem test_decode_qPurge : decode 0x00000043 = .ok .qPurge := by rfl

theorem test_decode_qResult : decode 0x00000144 = .ok (.qResult 1) := by rfl

theorem test_decode_dcEstimate : decode 0x00180050 = .ok (.dcEstimate 24) := by rfl

theorem test_decode_dcPoll : decode 0x00FFFF51 = .ok .dcPoll := by rfl

theorem test_decode_dcCanTx : decode 0x00000052 = .ok .dcCanTx := by rfl

theorem test_decode_dcConsume : decode 0x00000053 = .ok .dcConsume := by rfl

theorem test_decode_pwTick : decode 0x00000060 = .ok .pwTick := by rfl

/-- Vectors E1, E2. -/
theorem test_decode_illegal :
    decode 0x01000010 = .error .reservedBits ∧ decode 0x000000FF = .error .unassignedOpcode := ⟨rfl, rfl⟩

/-- Reserved bits are tested before the opcode (R84). -/
theorem test_decode_reserved_first : decode 0x800000FF = .error .reservedBits := by rfl

theorem test_decodeTableWord : decodeTableWord 32 0x00110120 = some (.rsEncode 1 17) := by rfl

theorem test_withFetchWord_runs :
    step (State.reset.withFetchWord 32 0x00000060) = exec .pwTick (State.reset.withPending 0x00000060) := by rfl

/-! ### Commands -/

/-- Vector C1. -/
theorem test_compress_dictionary :
    (let t := ran 0x000B0010 (holding
      [0x53, 0x4F, 0x53, 0x20, 0x53, 0x4F, 0x53, 0x20, 0x53, 0x4F, 0x53])
    (shown t, t.result0, t.statusWord)) =
      ([0xD0, 0xFF, 0x01, 0x20, 0xFF, 0x01, 0x20, 0xFF, 0x01], 1, 6) := by
  decide +kernel

/-- Vector C19. -/
theorem test_compress_empty :
    (let t := ran 0x00000010 State.reset
    (t.outLen, t.statusWord)) =
      (0, 0x102) := by
  decide +kernel

/-- Vector D3. -/
theorem test_decompress_escaped_literal :
    (let t := ran 0x00040011 (holding [0xD0, 0xFF, 0xFF, 0x41])
    (shown t, t.result0, t.statusWord)) =
      ([0xFF, 0x41], 1, 6) := by
  decide +kernel

/-- Vector D10. -/
theorem test_decompress_unknown_code :
    (ran 0x00030011 (holding [0xD0, 0xFF, 0x07])).statusWord =
      0x102 := by
  decide +kernel

/-- Vector RS7. -/
theorem test_rsEncode_one_byte :
    shown (ran 0x00010120 (holding [0x01])) =
      [0x01, 0x3B, 0x0D, 0x68, 0xBD, 0x44, 0xD1, 0x1E, 0x08, 0xA3, 0x41, 0x29, 0xE5, 0x62, 0x32, 0x24, 0x3B] := by
  decide +kernel

/-- Vector RS1. -/
theorem test_rsEncode_hello :
    shown (ran 0x00110120 (holding
      [0x48, 0x65, 0x6C, 0x6C, 0x6F, 0x20, 0x4D, 0x65, 0x73, 0x68, 0x58, 0x54, 0x20, 0x73, 0x61, 0x74, 0x21])) =
      [0x48, 0x65, 0x6C, 0x6C, 0x6F, 0x20, 0x4D, 0x65, 0x73, 0x68, 0x58, 0x54, 0x20, 0x73, 0x61, 0x74, 0x21, 0xDE,
        0x2A, 0x8B, 0x50, 0x85, 0xF9, 0x3A, 0xCE, 0xEC, 0xED, 0x88, 0x99, 0x00, 0x4A, 0x03, 0xC4] := by
  decide +kernel

/-- Vector RS18. -/
theorem test_rsDecode_clean :
    shown (ran 0x00210121 (holding
      [0x48, 0x65, 0x6C, 0x6C, 0x6F, 0x20, 0x4D, 0x65, 0x73, 0x68, 0x58, 0x54, 0x20, 0x73, 0x61, 0x74, 0x21, 0xDE,
        0x2A, 0x8B, 0x50, 0x85, 0xF9, 0x3A, 0xCE, 0xEC, 0xED, 0x88, 0x99, 0x00, 0x4A, 0x03, 0xC4])) =
      [0x48, 0x65, 0x6C, 0x6C, 0x6F, 0x20, 0x4D, 0x65, 0x73, 0x68, 0x58, 0x54, 0x20, 0x73, 0x61, 0x74, 0x21] := by
  decide +kernel

/-- Vector RS3: ERR 3. -/
theorem test_rsDecode_corrupted :
    (ran 0x00210121 (holding
      [0x49, 0x65, 0x6C, 0x6C, 0x6F, 0x20, 0x4D, 0x65, 0x73, 0x68, 0x58, 0x54, 0x20, 0x73, 0x61, 0x74, 0x21, 0xDE,
        0x2A, 0x8B, 0x50, 0x85, 0xF9, 0x3A, 0xCE, 0xEC, 0xED, 0x88, 0x99, 0x00, 0x4A, 0x03, 0xC4])).statusWord =
      0x302 := by
  decide +kernel

/-- Vector F2. -/
theorem test_frameCreate_dictionary_fec :
    (let t := ran 0x000B1130 (holding
      [0x53, 0x4F, 0x53, 0x20, 0x53, 0x4F, 0x53, 0x20, 0x53, 0x4F, 0x53])
    (shown t, t.result0)) =
      ([0x11, 0x10, 0xD0, 0xFF, 0x01, 0x20, 0xFF, 0x01, 0x20, 0xFF, 0x01, 0xD3, 0xA4, 0x61, 0x07, 0xBC, 0x46, 0x1C,
        0x04, 0xCF, 0xC0, 0x32, 0x0B, 0xA6, 0x72, 0x21, 0x1E], 1) := by
  decide +kernel

/-- Vector F7. -/
theorem test_frameCreate_codebook :
    (ran 0x00020230 (holding [0x48, 0x49])).statusWord =
      0x102 := by
  decide +kernel

/-- Vector P3v. -/
theorem test_frameParse_dictionary :
    (let t := ran 0x000B0031 (holding [0x11, 0x00, 0xD0, 0xFF, 0x01, 0x20, 0xFF, 0x01, 0x20, 0xFF, 0x01])
    (shown t, t.result0, t.result1)) =
      ([0x53, 0x4F, 0x53, 0x20, 0x53, 0x4F, 0x53, 0x20, 0x53, 0x4F, 0x53], 0x11, 1) := by
  decide +kernel

/-- Vector P14v: ERR 3 although the compression type is illegal too. -/
theorem test_frameParse_fec_before_type :
    (ran 0x00130031 (holding ([0x13, 0x10, 0x01] ++ List.replicate 16 0))).statusWord =
      0x302 := by
  decide +kernel

/-- Vector RL1. -/
theorem test_relaySerialize :
    shown (ran 0x00020032 { holding [0x48, 0x49] with
      arg0 := 0x11223344, arg1 := 0xAABBCCDD, arg2 := 0xFFFFFF05, arg3 := 0x65000000 }) =
      [0x01, 0x11, 0x22, 0x33, 0x44, 0xAA, 0xBB, 0xCC, 0xDD, 0x05, 0x65, 0x00, 0x00, 0x00, 0x48, 0x49] := by
  decide +kernel

/-- Vector RL2. -/
theorem test_relayDeserialize :
    (let t := ran 0x00100033 (holding
      [0x01, 0x11, 0x22, 0x33, 0x44, 0xAA, 0xBB, 0xCC, 0xDD, 0x05, 0x65, 0x00, 0x00, 0x00, 0x48, 0x49])
    (t.result0, t.result1, t.result2, t.result3, shown t)) =
      (0x11223344, 0xAABBCCDD, 5, 0x65000000, [0x48, 0x49]) := by
  decide +kernel

/-- Vector RL6: ERR 2. -/
theorem test_relayDeserialize_version :
    (ran 0x000E0033 (holding (0x02 :: List.replicate 13 0))).statusWord =
      0x202 := by
  decide +kernel

/-- Vector Q1. -/
theorem test_qEnqueue :
    (let t := ran 0x00020240 { holding [0x48, 0x49] with now := 1000, arg0 := 1, arg1 := 2, arg3 := 0x100 }
    (t.result0, t.result1, t.queue.map QEntry.ttlS, t.queue.map QEntry.tEnq, t.statusWord)) =
      (0x101, 0, [21600], [1000], 0x10006) := by
  decide +kernel

/-- Vectors Q7, Q8: capacity before the priority's range. -/
theorem test_qEnqueue_full :
    (let t := ran 0x00000440 { State.reset with queue := fullQueue, result0 := 63 }
    (t.statusWord, t.cntQfull, t.queue == fullQueue, t.result0)) =
      (0x00400502, 1, true, 63) := by
  decide +kernel

/-- Vector Q3. -/
theorem test_qDequeue :
    (let t := ran 0x00000041 { State.reset with queue := threeEntries }
    ((t.result0, t.result1, t.result2, t.result3), t.statusWord, t.queue.map QEntry.id, t.hold.id, shown t)) =
      ((1, 0x201, 0x1000, 86400), 0x02020006, [0x101, 0x301], 0x201, List.replicate 16 2) := by
  decide +kernel

/-- Vector Q4. -/
theorem test_qDequeue_empty :
    (ran 0x00000041 State.reset).statusWord =
      0x00000002 := by
  decide +kernel

/-- Vector Q2. -/
theorem test_qPeek :
    (let t := ran 0x00000042 { State.reset with queue := threeEntries }
    (t.result0, t.result1, t.result2, t.result3, t.statusWord)) =
      (1, 0x201, 0x1000, 86400, 0x00030006) := by
  decide +kernel

/-- Vector Q5: an age equal to the TTL is kept. -/
theorem test_qPurge_keeps :
    (let t := ran 0x00000043 { State.reset with queue := [⟨0, 3, 0, 7200, 0, []⟩], now := 7200000 }
    (t.result0, t.queue.length)) =
      (0, 1) := by
  decide +kernel

/-- Vector Q6. -/
theorem test_qPurge_removes :
    (let t := ran 0x00000043 { State.reset with queue := [⟨0, 3, 0, 7200, 0, []⟩], now := 7200001 }
    (t.result0, t.queue.length, t.cntExpired)) =
      (1, 0, 1) := by
  decide +kernel

/-- Program P5's first failed send: behind its equal peer. -/
theorem test_qResult_requeues :
    (let t := ran 0x00000044 (sending 0)
    (t.result0, t.result1, t.holdValid, t.queue.map QEntry.id, t.queue.map QEntry.retry)) =
      (1, 1, false, [7, 0x0F], [0, 1]) := by
  decide +kernel

/-- Program P5's fourth failed send: ERR 6. -/
theorem test_qResult_drops :
    (let t := ran 0x00000044 (sending 3)
    (t.statusWord, t.cntDfail, t.queue.length)) =
      (0x10602, 1, 1) := by
  decide +kernel

/-- Section 7.1, SF 7. -/
theorem test_dcEstimate :
    [0, 1, 2, 10, 14, 16, 24, 51, 128, 255].map (airtimeMs Config.defaultParams) =
      [26, 26, 31, 42, 47, 52, 62, 103, 216, 400] := by
  decide +kernel

/-- Section 7.1, SF 11 and 12. -/
theorem test_dcEstimate_low_rate :
    (airtimeMs { Config.defaultParams with loraSf := 11 } 51, airtimeMs { Config.defaultParams with loraSf := 12 } 128) =
      (1315, 4924) := by
  decide +kernel

/-- Vector DC8. -/
theorem test_dcPoll_rolls :
    (let t := ran 0x00000051 { State.reset with used := 35958, now := 3600000 }
    (t.result0, t.used, t.windowStart)) =
      (36000, 0, 3600000) := by
  decide +kernel

/-- Vector DC9: NOW before the window's start never rolls. -/
theorem test_dcPoll_early_clock :
    (let t := ran 0x00000051 { State.reset with windowStart := 3600000, now := 500 }
    (t.result0, t.windowStart)) =
      (36000, 3600000) := by
  decide +kernel

/-- Vector DC3. -/
theorem test_dcCanTx_at_limit :
    (let t := ran 0x00000052 { State.reset with used := 35958, now := 1000, arg0 := 42 }
    (t.result0, t.result1, t.used)) =
      (1, 42, 35958) := by
  decide +kernel

/-- Vector DC5. -/
theorem test_dcCanTx_no_wrap :
    (ran 0x00000052 { State.reset with used := 35958, now := 1000, arg0 := 0xFFFFFFFF }).result0 =
      0 := by
  decide +kernel

/-- Vector DC6. -/
theorem test_dcConsume :
    (let t := ran 0x00000053 { State.reset with used := 35958, now := 1000, arg0 := 100 }
    (t.result0, t.used)) =
      (36058, 36058) := by
  decide +kernel

/-- Vector DC10. -/
theorem test_dcConsume_saturates :
    (ran 0x00000053 { State.reset with used := 0xFFFFFFFF, arg0 := 0xFFFFFFFF }).used =
      0xFFFFFFFF := by
  decide +kernel

/-- Section 8, NOW 5 940 000. -/
theorem test_pwTick_wakes :
    (let t := ran 0x00000060 { State.reset with nextPassTime := 6000000, now := 5940000 }
    (t.result0, t.result1, t.pwState)) =
      (1, 1, .active) := by
  decide +kernel

/-- Section 8, NOW 600 000. -/
theorem test_pwTick_sleeps :
    (let t := ran 0x00000060 { State.reset with pwState := .active, now := 600000 }
    (t.result0, t.result1, t.nextPassTime, t.lastPassTime)) =
      (0, 2, 6000000, 0) := by
  decide +kernel

/-- Vector E1. -/
theorem test_illegal_command :
    (let t := ran 0x01000010 State.reset
    (t.statusWord, t.cmd)) =
      (0x902, 0x01000010) := by
  decide +kernel

/-! ### Bus and tables -/

/-- Vectors E5, E6. -/
theorem test_id_and_cfg :
    (State.reset.busRead 0x000, State.reset.busRead 0x0B0, State.reset.busRead 0x06C) =
      (0x4D585331, 0x00063740, 0x8CA0) := by
  decide +kernel

/-- Vector E9. -/
theorem test_bufIn_word :
    (holding [0x48, 0x65, 0x6C, 0x6C]).busRead 0x402 =
      0x6C6C6548 := by
  decide +kernel

/-- Program P6: a write while BUSY is dropped and sets OVR. -/
theorem test_dropped_write :
    (let t := (State.reset.acceptCommand 0x51).busWrite 0x030 0x12345678
    (t.arg0, t.ovr, t.cmd)) =
      (0, true, 0x51) := by
  decide +kernel

/-- Vector G3. -/
theorem test_gf :
    (gfMul 0x53 0xCA, gfMul 0x80 0x02, gfMul 0x03 0x07, gfLog 0x03, gfLog 0x1D, gfExp 254) =
      (0x8F, 0x1D, 0x09, 25, 8, 0x8E) := by
  decide +kernel

/-- Vector G4. -/
theorem test_gen16 :
    gen 16 =
      [0x01, 0x3B, 0x0D, 0x68, 0xBD, 0x44, 0xD1, 0x1E, 0x08, 0xA3, 0x41, 0x29, 0xE5, 0x62, 0x32, 0x24, 0x3B] := by
  decide +kernel

/-! ### Witnesses: the hypotheses of each obligation can be met, each clause at the ends of its range -/

/-- The idle reset state whose next step takes `e`. -/
def idleBefore (e : PortEvent) : State := { State.reset with inbox := [⟨false, e⟩] }

/-- A state with DC_POLL pending whose next step takes `e` all the same. -/
def busyBefore (e : PortEvent) : State := { State.reset with pending := some 0x51, cmd := 0x51, inbox := [⟨true, e⟩] }

theorem errZero : (0 : BitVec 4).toNat < 10 := by decide

theorem idleBefore_takes (e : PortEvent) : (idleBefore e).aboutToTake e [] := ⟨errZero, false, rfl, .inl rfl⟩

theorem busyBefore_takes (e : PortEvent) : (busyBefore e).aboutToTake e [] := ⟨errZero, true, rfl, .inr rfl⟩

/-- The reset state with BLOCK_BASE 0 before a word write, idle. -/
def idleWrite (off : BitVec 12) (v : Word) : State := idleBefore (.write .word (0 + off.toNat) v)

/-- The same with a command pending. -/
def busyWrite (off : BitVec 12) (v : Word) : State := busyBefore (.write .word (0 + off.toNat) v)

theorem idleWrite_about (off : BitVec 12) (v : Word) : (idleWrite off v).aboutToWrite off v [] := idleBefore_takes _

theorem busyWrite_about (off : BitVec 12) (v : Word) : (busyWrite off v).aboutToWrite off v [] := busyBefore_takes _

theorem withPending_executes (w : Word) : (State.reset.withPending w).aboutToExecute w :=
  ⟨errZero, rfl, fun _ _ h => by cases h⟩

theorem withPending_executes_before_late (w : Word) (e : PortEvent) :
    { State.reset.withPending w with inbox := [⟨false, e⟩] }.aboutToExecute w :=
  ⟨errZero, rfl, fun _ _ h => by cases h; rfl⟩

theorem witness_DecodeDependsOnSignificantBits :
    decode 0x00FFFF51 = .ok .dcPoll ∧ (0x00000051 : Word) &&& significantBits .dcPoll =
      0x00FFFF51 &&& significantBits .dcPoll := by decide

theorem witness_IllegalWordsAreReservedOrUnassigned :
    (0x01000010 : Word).extractLsb' 24 8 ≠ 0 ∧ (0xFF000010 : Word).extractLsb' 24 8 ≠ 0 ∧
    ∀ o ∈ [(0x00 : Word), 0x0F, 0x12, 0x1F, 0x22, 0x2F, 0x34, 0x3F, 0x45, 0x4F, 0x54, 0x5F, 0x61, 0xFF],
      o.extractLsb' 24 8 = 0 ∧ unassignedOpcodes (o.extractLsb' 0 8).toNat := by
  refine ⟨by decide, by decide, fun o h => ?_⟩
  unfold unassignedOpcodes
  fin_cases h <;> decide

theorem witness_StepRunsDecodedCommand :
    (State.reset.withPending 0x60).aboutToExecute 0x60 ∧ decode 0x60 = .ok .pwTick ∧
    { State.reset.withPending 0x60 with inbox := [⟨false, .rst⟩] }.aboutToExecute 0x60 :=
  ⟨withPending_executes _, rfl, withPending_executes_before_late _ _⟩

theorem witness_IllegalCommandCompletesWithCodeNine :
    (State.reset.withPending 0x01000010).aboutToExecute 0x01000010 ∧ (0x01000010 : Word).extractLsb' 24 8 ≠ 0 ∧
    (State.reset.withPending 0x61).aboutToExecute 0x61 ∧ unassignedOpcodes ((0x61 : Word).extractLsb' 0 8).toNat :=
  ⟨withPending_executes _, by decide, withPending_executes _, by unfold unassignedOpcodes; decide⟩

theorem witness_StepTakesHostEventsInOrder :
    (idleBefore .rst).aboutToTake .rst [] ∧ (busyBefore .rst).aboutToTake .rst [] ∧
    State.reset.err.toNat < 10 ∧ State.reset.pending = none ∧ State.reset.inbox = [] ∧
    { State.reset with err := 9 }.err.toNat < 10 ∧ 10 ≤ { State.reset with err := 10 }.err.toNat :=
  ⟨idleBefore_takes _, busyBefore_takes _, by decide, rfl, rfl, by decide, by decide⟩

/-- Vectors E1 and E2 (illegal words), E4 (ignored fields set) and a plain command, at both ends of the CMD word. -/
theorem witness_WrittenCommandIsAcceptedThenExecuted :
    (∀ off ∈ [(0x00C : BitVec 12), 0x00F], 0x00C ≤ off.toNat ∧ off.toNat < 0x010 ∧
      ∀ v : Word, (idleWrite off v).aboutToWrite off v [] ∧ (idleWrite off v).pending = none ∧
        ∀ (a : Arrival) (r : List Arrival), [] = a :: r → a.early = false) ∧
    decode 0x00FFFF51 = .ok .dcPoll ∧ decode 0x60 = .ok .pwTick ∧
    (∀ i, decode 0x01000010 ≠ .ok i) ∧ ∀ i, decode 0x000000FF ≠ .ok i := by
  refine ⟨fun off h => ?_, rfl, rfl, ?_, ?_⟩
  · fin_cases h <;> exact ⟨by decide, by decide, fun _ => ⟨idleWrite_about _ _, rfl, fun _ _ h => by cases h⟩⟩
  · rw [show decode 0x01000010 = .error .reservedBits from rfl]
    exact fun i h => by cases h
  · rw [show decode 0x000000FF = .error .unassignedOpcode from rfl]
    exact fun i h => by cases h

theorem witness_EveryStepKeepsInvariant :
    State.reset.Inv ∧ step State.reset = .next State.reset := by
  refine ⟨⟨rfl, by decide, ?_, ?_, by decide, by decide, ?_, by decide⟩, rfl⟩
  · intro e h; cases h
  · intro h; cases h
  · intro w h; cases h

/-- A step with no arrival, one with an `rst` still waiting behind the execution, and `rst` taken idle and busy. -/
theorem witness_ParametersNeverChange :
    step State.reset = .next State.reset ∧ (∀ rest, ¬ State.reset.aboutToTake .rst rest) ∧
    (∃ t, step { State.reset.withPending 0x51 with inbox := [⟨false, .rst⟩] } = .next t) ∧
    (∀ rest, ¬ { State.reset.withPending 0x51 with inbox := [⟨false, .rst⟩] }.aboutToTake .rst rest) ∧
    (idleBefore .rst).aboutToTake .rst [] ∧ (busyBefore .rst).aboutToTake .rst [] := by
  refine ⟨rfl, ?_, ⟨_, rfl⟩, ?_, idleBefore_takes _, busyBefore_takes _⟩
  · rintro rest ⟨-, early, h, -⟩
    cases h
  · rintro rest ⟨-, early, h, hp⟩
    cases h
    rcases hp with hp | hp <;> cases hp

theorem witness_CommandsLeaveInputsAlone : ∃ t, exec .qPurge State.reset = .next t := ⟨_, rfl⟩

theorem witness_FailedCommandCommitsOnlyStatus :
    (∃ t, exec (.rsEncode 0 1) State.reset = .next t ∧ t.err ≠ 0) ∧
    (∃ t, exec (.qEnqueue 0 0) { State.reset with queue := fullQueue } = .next t ∧ t.err ≠ 0) ∧
    (∃ t, exec (.qResult 0) (sending 3) = .next t ∧ t.err ≠ 0) :=
  ⟨⟨_, rfl, by decide⟩, ⟨_, rfl, by decide⟩, ⟨_, rfl, by decide⟩⟩

theorem witness_CommandsRaiseOnlyTheirErrors : ∃ t, exec (.qResult 0) (sending 3) = .next t := ⟨_, rfl⟩

theorem witness_CommandsKeepToTheirUnit : ∃ t, exec .qDequeue { State.reset with queue := threeEntries } = .next t :=
  ⟨_, rfl⟩

theorem witness_IllegalFieldValueRaisesInvalidInput :
    (.rsDecode 4 16 : Instr).wellFormed = false ∧ (.frameCreate 2 0 1 : Instr).wellFormed = false ∧
    (.qEnqueue 4 0 : Instr).wellFormed = false ∧ { State.reset with queue := fullQueue }.queue.length = 64 ∧
    State.reset.queue.length ≠ 64 := by decide

theorem witness_CtrlWriteResetsOrSetsInterruptEnable :
    ∀ off ∈ [(0x004 : BitVec 12), 0x007], 0x004 ≤ off.toNat ∧ off.toNat < 0x008 ∧
      (idleWrite off 1).aboutToWrite off 1 [] ∧ (busyWrite off 3).aboutToWrite off 3 [] := by
  intro off h
  fin_cases h <;> exact ⟨by decide, by decide, idleWrite_about _ _, busyWrite_about _ _⟩

theorem witness_WriteWhileBusyIsDropped :
    (∀ off ∈ [(0x000 : BitVec 12), 0x003, 0x00C, 0xFFF], (busyWrite off 7).aboutToWrite off 7 [] ∧
      (busyWrite off 7).pending ≠ none ∧ (off.toNat < 0x004 ∨ 0x00C ≤ off.toNat)) ∧
    (∀ off ∈ [(0x000 : BitVec 12), 0x003, 0x010, 0x023, 0x040, 0x053, 0x060, 0x073, 0x080, 0x0AB, 0x0B0, 0x0B3, 0x800,
        0xFFF, 0x024, 0x027, 0x0B4, 0x3FF, 0x500, 0x7FF],
      (idleWrite off 7).aboutToWrite off 7 [] ∧ (idleWrite off 7).pending = none ∧
      (unmappedOffsets off.toNat ∨ readOnlyOffsets off.toNat)) := by
  refine ⟨fun off h => ⟨busyWrite_about _ _, by simp [busyWrite, busyBefore], ?_⟩,
    fun off h => ⟨idleWrite_about _ _, rfl, ?_⟩⟩ <;> fin_cases h <;> first | decide | (unfold unmappedOffsets readOnlyOffsets; decide)

theorem witness_StatusWriteClearsDoneAndOverrun :
    ∀ off ∈ [(0x008 : BitVec 12), 0x00B], 0x008 ≤ off.toNat ∧ off.toNat < 0x00C ∧
      (idleWrite off 2).aboutToWrite off 2 [] ∧ (busyWrite off 8).aboutToWrite off 8 [] := by
  intro off h
  fin_cases h <;> exact ⟨by decide, by decide, idleWrite_about _ _, busyWrite_about _ _⟩

theorem witness_ReadWriteRegistersStore :
    ∀ off ∈ [(0x028 : BitVec 12), 0x02B, 0x02C, 0x02F, 0x030, 0x033, 0x034, 0x037, 0x038, 0x03B, 0x03C, 0x03F],
      0x028 ≤ off.toNat ∧ off.toNat < 0x040 ∧ (idleWrite off 7).pending = none ∧
      (idleWrite off 7).aboutToWrite off 7 [] := by
  intro off h
  fin_cases h <;> exact ⟨by decide, by decide, rfl, idleWrite_about _ _⟩

theorem witness_BufInWriteSetsFourBytes :
    ∀ off ∈ [(0x400 : BitVec 12), 0x4FF], 0x400 ≤ off.toNat ∧ off.toNat < 0x500 ∧ (idleWrite off 7).pending = none ∧
      (idleWrite off 7).aboutToWrite off 7 [] := by
  intro off h
  fin_cases h <;> exact ⟨by decide, by decide, rfl, idleWrite_about _ _⟩

/-- The state before a word read, idle or with a command pending. -/
theorem witness_ReadsHaveNoSideEffect (off : BitVec 12) :
    (idleBefore (.read .word (0 + off.toNat))).aboutToRead off [] ∧
    (busyBefore (.read .word (0 + off.toNat))).aboutToRead off [] := ⟨idleBefore_takes _, busyBefore_takes _⟩

theorem witness_UnmappedOffsetsReadZero :
    ∀ off ∈ [(0x024 : BitVec 12), 0x027, 0x054, 0x05F, 0x074, 0x07F, 0x0AC, 0x0AF, 0x0B4, 0x3FF, 0x500, 0x7FF],
      unmappedOffsets off.toNat ∧ (idleWrite off 7).pending = none ∧ (idleWrite off 7).aboutToWrite off 7 [] ∧
      (busyBefore (.read .word (0 + off.toNat))).aboutToRead off [] := by
  intro off h
  refine ⟨?_, rfl, idleWrite_about _ _, busyBefore_takes _⟩
  fin_cases h <;> (unfold unmappedOffsets; decide)

theorem witness_BufferWordsAreLittleEndian :
    ∀ off ∈ [(0x400 : BitVec 12), 0x4FF, 0x800, 0xFFF],
      0x400 ≤ off.toNat ∧ off.toNat < 0x500 ∨ 0x800 ≤ off.toNat := by
  intro off h
  fin_cases h <;> decide

theorem witness_NarrowAccessIsRefused :
    (∀ addr ∈ [0, 0xFFF], (idleBefore (.read .byte addr)).aboutToTake (.read .byte addr) [] ∧
      (idleBefore (.read .byte addr)).params.blockBase ≤ addr ∧
      addr < (idleBefore (.read .byte addr)).params.blockBase + 0x1000 ∧ AccessSize.byte ≠ .word) ∧
    (idleBefore (.write .half 0x1000 7)).aboutToTake (.write .half 0x1000 7) [] ∧
    (idleBefore (.write .half 0x1000 7)).params.blockBase + 0x1000 ≤ 0x1000 := by
  refine ⟨fun addr h => ⟨idleBefore_takes _, Nat.zero_le _, ?_, by decide⟩, idleBefore_takes _, by decide⟩
  have hp : (idleBefore (.read .byte addr)).params.blockBase = 0 := rfl
  simp only [List.mem_cons, List.not_mem_nil, or_false] at h
  omega

theorem witness_StatusWordLayout : { State.reset with queue := fullQueue }.queue.length ≤ 64 := by decide

/-- "SOSSOS" takes the dictionary form, ten equal bytes the run-length form, and three equal bytes, whose forms are no
shorter, the raw form. -/
theorem witness_CompressWritesCompressedInput :
    (1 : Byte) ≠ 0 ∧ (255 : Byte) ≠ 0 ∧
    (dictEnc Config.exDict [0x53, 0x4F, 0x53, 0x53, 0x4F, 0x53]).length < 6 ∧
    10 ≤ (dictEnc Config.exDict (List.replicate 10 0x7A)).length ∧ (rleEnc (List.replicate 10 0x7A)).length < 10 ∧
    3 ≤ (dictEnc Config.exDict (List.replicate 3 0x7A)).length ∧ 3 ≤ (rleEnc (List.replicate 3 0x7A)).length := by
  decide +kernel

/-- Vectors D3, D4, D7 to D13: every clause's own case, and both sides of the bound. -/
theorem witness_DecompressWritesDecodedInput :
    (decompress (holding [0xD0]).params.dict ((holding [0xD0]).readBytes Config.bufInBase (1 : Byte).toNat) =
      some (.dictionary, []) ∧
    decompress (holding [0x00]).params.dict ((holding [0x00]).readBytes Config.bufInBase (1 : Byte).toNat) = none) ∧
    (dictDec Config.exDict [0xFF, 0xFF, 0x41] = some [0xFF, 0x41] ∧ dictDec Config.exDict [0xFF] = none ∧
      dictDec Config.exDict [0xFF, 0x07] = none) ∧
    (rleDec [0xFE, 0x03] = none ∧ rleDec [0xFE, 0x00, 0x41] = none ∧ rleDec [0xFE, 0x01, 0x41] = some [0x41]) ∧
    ([0x00] : List Byte).head? ≠ some 0x58 ∧ (0x00 : Byte) ≠ 0xD0 ∧ (0x00 : Byte) ≠ 0xE0 ∧ (0x00 : Byte) ≠ 0x4D ∧
    Dict.codesDistinct Config.exDict = true ∧ (⟨[0x53, 0x4F, 0x53], 0x01⟩ : DictEntry) ∈ Config.exDict ∧
    (0x01 : Byte) ≠ 0xFF ∧ (0x07 : Byte) ≠ 0xFF ∧ (∀ e ∈ Config.exDict, e.code ≠ 0x07) ∧
    (0x41 : Byte) ≠ 0xFF ∧ (0x41 : Byte) ≠ 0xFE ∧ (0xFF : Byte) ≠ 0 := by decide +kernel

/-- Vector D13: eight tokens of 255 bytes stay under R109's bound, nine pass it. -/
theorem test_decompress_bound :
    (decompress Config.exDict (0xE0 :: (List.replicate 8 [0xFE, 0xFF, 0x41]).flatten)).isSome = true ∧
    decompress Config.exDict (0xE0 :: (List.replicate 9 [0xFE, 0xFF, 0x41]).flatten) = none := by decide +kernel

/-- One byte, and vector C11's 255 bytes, which take the run-length form. -/
theorem witness_CompressionRoundTrip :
    Dict.wellFormed Config.exDict = true ∧ 1 ≤ [(0x41 : Byte)].length ∧ (List.replicate 255 (0x41 : Byte)).length ≤ 255 ∧
    (compress Config.exDict (List.replicate 255 0x41)).1 ≠ .dictionary := by decide +kernel

/-- Runs between other bytes, a run of the same byte further off; each clause's run lengths at their ends. -/
theorem witness_RunLengthLaws :
    ([0x42, 0x41, 0xFE, 0x43] : List Byte).getLast? ≠ some 0x41 ∧
    ([0x43, 0x41, 0xFE] : List Byte).head? ≠ some 0x41 ∧
    ([0x42, 0x41, 0xFE, 0x43] : List Byte).getLast? ≠ some 0xFE ∧
    ([0x43, 0x41, 0xFE] : List Byte).head? ≠ some 0xFE ∧ ([] : List Byte).getLast? ≠ some 0x41 ∧
    3 ≤ 3 ∧ 3 ≤ 255 ∧ 1 ≤ 1 ∧ 1 ≤ 2 ∧ 2 ≤ 2 ∧ 255 < 256 ∧ (0x41 : Byte) ≠ 0xFE := by decide

/-- Row S5: a literal run, a token, and 0xFE tokenised whatever its length. -/
theorem test_rleEnc_runs :
    rleEnc [0x41, 0x41, 0x42, 0xFE, 0xFE, 0x42, 0x42, 0x42, 0x42] =
      [0xE0, 0x41, 0x41, 0x42, 0xFE, 0x02, 0xFE, 0xFE, 0x04, 0x42] := by decide

/-- In EX_DICT "OKAY" at position 1 is matched and the shorter "OK" is a candidate beside it; at position 0 there is no
candidate. -/
theorem witness_DictionaryEncodingTakesLongestMatch :
    let s : List Byte := [0x20, 0x6F, 0x6B, 0x61, 0x79]
    s[0]? = some 0x20 ∧ s[1]? = some 0x6F ∧ (∀ j e, ¬ isCandidate Config.exDict s 0 j e) ∧
    isCandidate Config.exDict s 1 3 ⟨[0x4F, 0x4B], 0x04⟩ ∧
    isMatch Config.exDict s 1 4 ⟨[0x4F, 0x4B, 0x41, 0x59], 0x05⟩ ∧ ([0x4F, 0x4B, 0x41, 0x59] : List Byte) ≠ [] := by
  have cand : ∀ i j e, isCandidate Config.exDict [0x20, 0x6F, 0x6B, 0x61, 0x79] i j e → j < 6 := by
    rintro i j e ⟨h, -⟩
    obtain ⟨h, -⟩ := List.getElem?_eq_some_iff.mp h
    exact h
  have only : ∀ i j e, isCandidate Config.exDict [0x20, 0x6F, 0x6B, 0x61, 0x79] i j e → i < 2 →
      i = 1 ∧ (j = 3 ∧ e.word.length = 2 ∨ j = 4 ∧ e.word.length = 4) := by
    intro i j e h hi
    have hj := cand i j e h
    obtain ⟨h1, h2, h3⟩ := h
    interval_cases j <;> cases h1 <;> interval_cases i <;> revert h2 h3 <;> decide
  refine ⟨rfl, rfl, fun j e h => ?_, by unfold isCandidate; decide, ⟨by unfold isCandidate; decide, ?_, ?_⟩, by decide⟩
  · exact absurd (only 0 j e h (by decide)).1 (by decide)
  · intro k f h
    rcases (only 1 k f h (by decide)).2 with ⟨-, hl⟩ | ⟨-, hl⟩ <;> rw [hl] <;> decide
  · intro k f h hl
    rcases (only 1 k f h (by decide)).2 with ⟨-, hk⟩ | ⟨hk, -⟩
    · rw [hk] at hl
      cases hl
    · exact hk.ge

theorem witness_FieldProductAgreesWithTables : 0 < 255 ∧ 254 < 255 ∧ (0x01 : Byte) ≠ 0 ∧ (0xFF : Byte) ≠ 0 := by decide

theorem witness_RsEncodeAppendsParity :
    nsymOf 1 = some 16 ∧ (0 : Byte).toNat + 16 ≤ 255 ∧ (239 : Byte).toNat + 16 ≤ 255 ∧ 255 < (240 : Byte).toNat + 16 ∧
    (191 : Byte).toNat + 64 ≤ 255 ∧ 255 < (192 : Byte).toNat + 64 := by decide

/-- Vectors RS16, RS17 and a corrupted RS17. -/
theorem witness_RsDecodeStripsOrRejects :
    (15 : Byte).toNat < 16 ∧ 16 ≤ (16 : Byte).toNat ∧
    (∀ i < 16, syndrome ((holding (List.replicate 16 0)).readBytes Config.bufInBase (16 : Byte).toNat) i = 0) ∧
    ∃ i < 16, syndrome ((holding (1 :: List.replicate 15 0)).readBytes Config.bufInBase (16 : Byte).toNat) i ≠ 0 := by
  decide +kernel

theorem witness_DetectionInvertsEncoding :
    nsymOf 1 = some 16 ∧ ([] : List Byte).length + 16 ≤ 255 ∧ (List.replicate 239 (7 : Byte)).length + 16 ≤ 255 := by
  decide +kernel

/-- Vector RS3, at the first byte and at the last. -/
theorem witness_SingleByteCorruptionIsDetected :
    nsymOf 1 = some 16 ∧ [(0x01 : Byte)].length + 16 ≤ 255 ∧ 0 < [(0x01 : Byte)].length + 16 ∧
    16 < [(0x01 : Byte)].length + 16 ∧ (0x80 : Byte) ≠ 0 ∧
    (holding ((rsEncode [0x01] 16).set 0 0x81)).readBytes Config.bufInBase (17 : Byte).toNat =
      (rsEncode [0x01] 16).set 0 ((rsEncode [0x01] 16).getD 0 0 ^^^ 0x80) := by decide +kernel

/-- Vectors F10 and F11 (no FEC, the last length that fits and the first that does not), and F1 and F12 (compression and
FEC). -/
theorem witness_FrameCreateWritesPacket :
    (State.reset.readBytes Config.bufInBase (235 : Byte).toNat).length ≤ 235 ∧
    235 < (State.reset.readBytes Config.bufInBase (236 : Byte).toNat).length ∧
    State.reset.params.codecDictEn = true ∧ (11 : Byte) ≠ 0 ∧ nsymOf 1 = some 16 ∧ State.reset.params.codecFecEn = true ∧
    (State.reset.readBytes Config.bufInBase (200 : Byte).toNat).length + 16 ≤ 255 := by
  simp only [State.readBytes_length]
  decide

theorem witness_FrameCreateRejectsBeforeLengthCheck :
    { State.reset with params := { Config.defaultParams with codecDictEn := false } }.params.codecDictEn = false ∧
    { State.reset with params := { Config.defaultParams with codecFecEn := false } }.params.codecFecEn = false ∧
    (0 : Byte) = 0 ∧ (3 : BitVec 4) ≠ 0 ∧ nsymOf 3 = some 64 ∧ 255 < (192 : Byte).toNat + 64 ∧
    255 < (compress Config.exDict ((holding ((List.range 190).map (BitVec.ofNat 8))).readBytes Config.bufInBase
      (190 : Byte).toNat)).2.length + 64 := by decide +kernel

/-- Vectors P7v and P12v. -/
theorem witness_FrameParseWritesMessage :
    2 ≤ (2 : Byte).toNat ∧ (holding [0x10, 0x00]).readByte Config.bufInBase = (1 : BitVec 4) ++ (0 : BitVec 4) ∧
    (holding [0x10, 0x00]).readByte (Config.bufInBase + 1) = (0 : BitVec 4) ++ (0 : BitVec 4) ∧
    nsymOf 1 = some 16 ∧ 16 ≤ (18 : Byte).toNat - 2 ∧
    (∀ i < 16, syndrome ((holding ([0x10, 0x10] ++ List.replicate 16 0)).readBytes (Config.bufInBase + 2)
      ((18 : Byte).toNat - 2)) i = 0) ∧
    decompress State.reset.params.dict [0x4D, 0x58, 0x41] = some (.raw, [0x41]) := by decide +kernel

/-- Vectors P4v, P5v, P10v, P11v, P14v, P15v, P8v. -/
theorem witness_FrameParseChecksInOrder :
    (1 : Byte).toNat < 2 ∧
    (holding [0x01, 0x00, 0x41]).readBytes Config.bufInBase (3 : Byte).toNat = 0x01 :: 0x00 :: [0x41] ∧
    (0x01 : Byte).extractLsb' 4 4 ≠ 1 ∧ (0x10 : Byte).extractLsb' 4 4 = 1 ∧
    4 ≤ ((0x40 : Byte).extractLsb' 4 4).toNat ∧ nsymOf ((0x10 : Byte).extractLsb' 4 4) = some 16 ∧
    (List.replicate 15 (0 : Byte)).length < 16 ∧ (∃ i < 16, syndrome (0x01 :: List.replicate 16 0) i ≠ 0) ∧
    (∀ i < 16, syndrome (List.replicate 16 0) i = 0) ∧ 2 ≤ ((0x13 : Byte).extractLsb' 0 4).toNat ∧
    decompress Config.exDict ([] : List Byte) = none := by decide +kernel

/-- "HI" compressed and FEC-protected, parsed in the state that holds the output. -/
theorem witness_CodecPacketRoundTrip :
    Dict.wellFormed (holding [0x48, 0x49]).params.dict = true ∧
    ∃ t, exec (.frameCreate 1 1 2) (holding [0x48, 0x49]) = .next t ∧ t.err = 0 ∧
      (holding (shown t)).params.dict = (holding [0x48, 0x49]).params.dict ∧
      (holding (shown t)).readBytes Config.bufInBase t.outLen.toNat =
        t.readBytes Config.bufOutBase t.outLen.toNat := by
  refine ⟨by decide, ?_⟩
  obtain ⟨t, ht, -⟩ := exec_hasEffect (.frameCreate 1 1 2) (holding [0x48, 0x49])
  have hd : finished (exec (.frameCreate 1 1 2) (holding [0x48, 0x49])) = t := by rw [ht]; rfl
  refine ⟨t, ht, ?_⟩
  rw [← hd]
  decide +kernel

/-- Vectors RL3 and RL4. -/
theorem witness_RelaySerializeWritesPacket :
    (0 : Byte).toNat ≤ 114 ∧ (114 : Byte).toNat ≤ 114 ∧ 114 < (115 : Byte).toNat := by decide

/-- Vectors RL5 to RL9. -/
theorem witness_RelayDeserializeReportsFields :
    14 ≤ (14 : Byte).toNat ∧ (128 : Byte).toNat ≤ 128 ∧ (holding [0x01]).readByte (Config.bufInBase + 0) = 0x01 ∧
    (13 : Byte).toNat < 14 ∧ (holding [0x02]).readByte (Config.bufInBase + 0) ≠ 0x01 ∧ 128 < (129 : Byte).toNat := by
  decide +kernel

theorem witness_EnqueueAppendsFreshEntry :
    { State.reset with queue := fullQueue }.queue.length = 64 ∧
    { State.reset with queue := fullQueue.tail }.queue.length < 64 ∧ 3 < (4 : BitVec 4).toNat ∧
    (3 : BitVec 4).toNat ≤ 3 ∧ 114 < (115 : Byte).toNat ∧ (114 : Byte).toNat ≤ 114 := by decide

theorem witness_SelectionIsFirstLowestPriority : threeEntries ≠ [] := by decide

/-- Vector Q2's queue, and a queue of one entry of the greatest length. -/
theorem witness_DequeueTakesSelectedEntry :
    isSelected threeEntries 1 ⟨0x201, 0, 1000, 86400, 0, List.replicate 16 2⟩ ∧
    isSelected [⟨1, 3, 0, 7200, 3, List.replicate 128 0⟩] 0 ⟨1, 3, 0, 7200, 3, List.replicate 128 0⟩ ∧
    (List.replicate 128 (0 : Byte)).length ≤ 128 := by
  refine ⟨⟨rfl, by decide, ?_⟩, ⟨rfl, by decide, ?_⟩, by simp⟩
  · intro j f hj hf
    obtain rfl : j = 0 := by omega
    cases hf
    decide
  · intro j f hj
    omega

theorem witness_PeekReportsSelectedEntry :
    isSelected threeEntries 1 ⟨0x201, 0, 1000, 86400, 0, List.replicate 16 2⟩ ∧ (List.replicate 16 (2 : Byte)).length ≤
      128 :=
  ⟨witness_DequeueTakesSelectedEntry.1, by decide⟩

theorem witness_EmptyQueueYieldsNothing : State.reset.queue = [] := rfl

theorem witness_SendSuccessReleasesHold :
    (1 : BitVec 4).toNat ≤ 1 ∧ State.reset.holdValid = false ∧ (sending 0).holdValid = true := by decide

theorem witness_SendFailureRequeuesOrDrops :
    (sending 2).holdValid = true ∧ (sending 2).hold.retry.toNat < 3 ∧ (sending 2).queue.length < 64 ∧
    { sending 0 with queue := fullQueue }.queue.length = 64 ∧ (sending 3).hold.retry.toNat = 3 := by decide

/-- Q_PEEK then Q_DEQUEUE, on vector Q2's queue and on the empty one. -/
theorem witness_DequeueTakesWhatPeekReported :
    (∃ t u, exec .qPeek { State.reset with queue := threeEntries } = .next t ∧ exec .qDequeue t = .next u ∧
      t.resValid = true) ∧
    ∃ t u, exec .qPeek State.reset = .next t ∧ exec .qDequeue t = .next u ∧ t.resValid = false :=
  ⟨⟨_, _, rfl, rfl, rfl⟩, _, _, rfl, rfl, rfl⟩

/-- The defaults, and both ends of R241's ranges. -/
theorem witness_EstimateReportsAirtime :
    State.reset.params.loraOk = true ∧
    Params.loraOk { Config.defaultParams with loraSf := 12, loraCr := 4, loraBwHz := 7800, loraNPreamble := 65535 } =
      true ∧
    Params.loraOk { Config.defaultParams with loraSf := 7, loraCr := 1, loraNPreamble := 0 } = true := by decide

/-- Vectors DC7, DC8 and DC9: one millisecond before the roll, at it, and before the window's start. -/
theorem witness_PollRollsAndReportsRemaining :
    ¬ rollDue { State.reset with now := 3599999 } ∧ rollDue { State.reset with now := 3600000 } ∧
    ¬ rollDue { State.reset with now := 500, windowStart := 3600000 } := by
  unfold rollDue
  decide

/-- Vectors DC3 and DC4. -/
theorem witness_CanTransmitComparesExactly :
    (35958 : Word).toNat + (42 : Word).toNat ≤ State.reset.params.dcLimitMs.toNat ∧
    State.reset.params.dcLimitMs.toNat < (35958 : Word).toNat + (43 : Word).toNat := by decide

theorem witness_ConsumeChargesSaturating :
    ¬ rollDue { State.reset with now := 3599999 } ∧ rollDue { State.reset with now := 3600000 } := by
  unfold rollDue
  decide

/-- Section 8's table: each clause at its edge. -/
theorem witness_TickTakesOneEdge :
    State.reset.pwState = .idle ∧ (6000000 : DWord).toNat ≤ (5940000 : DWord).toNat + State.reset.params.pwMarginMs.toNat ∧
    (5939999 : DWord).toNat + State.reset.params.pwMarginMs.toNat < (6000000 : DWord).toNat ∧
    { State.reset with pwState := PwState.active }.pwState = .active ∧
    (6599999 : DWord).toNat < (6000000 : DWord).toNat + State.reset.params.pwDurationMs.toNat ∧
    (6000000 : DWord).toNat + State.reset.params.pwDurationMs.toNat ≤ (6600000 : DWord).toNat := by decide

end Sys2Proof.Machine.Tests
end

/-! # Proofs of the statements on the block's scope (spec/00_scope.md): what every step keeps, how every command
completes, and three commands' results. -/

namespace Sys2Proof.Machine

/-! ### What every command does, from the forms of `Effect` -/

/-- The parameters and the power-on count are constants to a command (R6, R20; log 3). -/
theorem Effect.keeps_params_boots {s t : State} {i : Instr} (h : Effect s i t) :
    t.params = s.params ∧ t.boots = s.boots := by
  cases h <;> exact ⟨rfl, rfl⟩

theorem Effect.keeps_ie {s t : State} {i : Instr} (h : Effect s i t) : t.ie = s.ie := by
  cases h <;> rfl

/-- STATUS as R301 commits it: each form ends in `State.complete`. -/
theorem Effect.completes {s t : State} {i : Instr} (h : Effect s i t) :
    t.done = true ∧ t.pending = none ∧ (t.resValid = true → t.err = 0) := by
  cases h <;> simp [ErrCode.bits]

/-! ### Every command completes (R12, R301, R306) -/

theorem State.irq_iff (s : State) : s.irq = true ↔ s.ie = true ∧ s.done = true := by
  simp [State.irq]

theorem State.irq_of_done {s : State} (h : s.done = true) : s.irq = s.ie := by
  simp [State.irq, h]

/-- Settles O13: `exec_hasEffect` gives the next state, and every form of `Effect` is a completion. -/
theorem everyCommandCompletes : Obligations.EveryCommandCompletes := by
  unfold Obligations.EveryCommandCompletes
  refine ⟨fun i s => ?_, State.irq_iff⟩
  obtain ⟨t, ht, heff⟩ := exec_hasEffect i s
  obtain ⟨hdone, hpending, hvalid⟩ := heff.completes
  exact ⟨t, ht, hdone, hpending, hvalid, (State.irq_of_done hdone).trans heff.keeps_ie⟩

/-! ### Parameters and power-on contents (R6, R20, R330, R347) -/

theorem runCommand_keeps_params_boots {w : Word} {s t : State} (h : runCommand w s = .next t) :
    t.params = s.params ∧ t.boots = s.boots := by
  rcases runCommand_cases w s with ⟨i, -, hrun⟩ | ⟨-, hrun⟩
  · exact (exec_effect (hrun ▸ h)).keeps_params_boots
  · rw [hrun] at h
    cases h
    exact ⟨rfl, rfl⟩

/-- A host write, soft reset included, draws no new power-on contents (R331). -/
theorem State.busWrite_keeps_params_boots (off : BitVec 12) (v : Word) (s : State) :
    (s.busWrite off v).params = s.params ∧ (s.busWrite off v).boots = s.boots := by
  rcases s.busWrite_cases off v with
    h | h | h | ⟨-, h⟩ | ⟨-, h | ⟨n, h⟩ | h | h | h | h | ⟨a, -, h⟩ | h⟩ <;> simp [h]

/-- Every port event keeps the parameters, and every one but `rst` the power-on contents (R347). -/
theorem portStep_keeps_params_boots {e : PortEvent} {s t : State} (h : portStep e s = .next t) :
    t.params = s.params ∧ (e ≠ .rst → t.boots = s.boots) := by
  rcases portStep_next_cases h with rfl | ⟨off, rfl⟩ | ⟨off, v, rfl⟩ | ⟨rfl, rfl⟩
  · exact ⟨rfl, fun _ => rfl⟩
  · exact ⟨rfl, fun _ => rfl⟩
  · obtain ⟨hparams, hboots⟩ := s.busWrite_keeps_params_boots off v
    exact ⟨hparams, fun _ => hboots⟩
  · exact ⟨rfl, fun hne => absurd rfl hne⟩

theorem step_keeps_params_boots {s t : State} (h : step s = .next t) :
    t.params = s.params ∧ ((∀ rest, ¬ s.aboutToTake .rst rest) → t.boots = s.boots) := by
  rcases step_next_cases h with ⟨rfl, -, -⟩ | ⟨w, -, hrun⟩ | ⟨e, rest, htake, hport⟩
  · exact ⟨rfl, fun _ => rfl⟩
  · obtain ⟨hparams, hboots⟩ := runCommand_keeps_params_boots hrun
    exact ⟨hparams, fun _ => hboots⟩
  · obtain ⟨hparams, hboots⟩ := portStep_keeps_params_boots hport
    refine ⟨hparams, fun hno => hboots ?_⟩
    rintro rfl
    exact hno rest htake

/-- When it is an arrival's turn, idle or busy, the step is that port event (R68, R307). -/
theorem step_of_aboutToTake {e : PortEvent} {rest : List Arrival} {s : State} (h : s.aboutToTake e rest) :
    step s = portStep e (s.setInbox rest) := by
  obtain ⟨herr, early, hinbox, hturn⟩ := h
  have hres : errReserved s = false := by simpa [errReserved] using herr
  rw [step, guardedStep, hres, if_neg Bool.false_ne_true, blockStep, hinbox]
  cases hpending : s.pending with
  | none => rfl
  | some w =>
    have hearly : early = true := by simpa [hpending] using hturn
    simp [hearly, takeArrival]

/-- Settles O11: a case analysis on what a step can be; only the `rst` event draws new contents. -/
theorem parametersNeverChange : Obligations.ParametersNeverChange := by
  unfold Obligations.ParametersNeverChange
  refine ⟨fun s t h => step_keeps_params_boots h, fun s rest h => ?_⟩
  rw [step_of_aboutToTake h]
  rfl

/-! ### The empty queue (R212, R213) -/

theorem State.selected_of_queue_nil {s : State} (h : s.queue = []) : s.selected = none := by
  simp [State.selected, h]

/-- Settles O50: no entry is selected, so both commands end in `finishNone`. -/
theorem emptyQueueYieldsNothing : Obligations.EmptyQueueYieldsNothing := by
  unfold Obligations.EmptyQueueYieldsNothing
  intro s h
  have hnone := State.selected_of_queue_nil h
  have hdequeue : execQDequeue s = finishNone s := by rw [execQDequeue, hnone]
  have hpeek : execQPeek s = finishNone s := by rw [execQPeek, hnone]
  exact ⟨hdequeue, hpeek⟩

/-! ### RS_ENCODE (R6, R144, R150) -/

/-- The levels and their parity lengths, both ways (R6). -/
theorem nsymOf_eq_some_iff {lvl : BitVec 4} {n : Nat} :
    nsymOf lvl = some n ↔ lvl = 1 ∧ n = 16 ∨ lvl = 2 ∧ n = 32 ∨ lvl = 3 ∧ n = 64 := by
  refine ⟨nsymOf_cases, ?_⟩
  rintro (⟨rfl, rfl⟩ | ⟨rfl, rfl⟩ | ⟨rfl, rfl⟩) <;> rfl

/-- A command that only writes bytes to BUF_OUT: its next state, and nothing else changed (R29). -/
theorem finishOk_putOut {bs : List Byte} (s : State) (h : bs.length ≤ 2048) :
    ∃ t, finishOk (s.putOut bs) = .next t ∧ t = { s.succeeded with mem := t.mem, outLen := t.outLen } ∧
      wroteOut bs s t :=
  ⟨(s.putOut bs).complete .none true, rfl, rfl, wroteOut_of h rfl rfl rfl⟩

theorem execRsEncode_fits {lvl : BitVec 4} {n : Nat} {len : Byte} (s : State) (hn : nsymOf lvl = some n)
    (h : len.toNat + n ≤ 255) :
    execRsEncode lvl len s = finishOk (s.putOut (rsEncode (s.input len) n)) := by
  simp [execRsEncode, hn, show ¬ Config.rsMaxN < len.toNat + n from Nat.not_lt.2 h]

theorem execRsEncode_tooLong {lvl : BitVec 4} {n : Nat} {len : Byte} (s : State) (hn : nsymOf lvl = some n)
    (h : 255 < len.toNat + n) : execRsEncode lvl len s = raise .invalidInput s := by
  simp [execRsEncode, hn, show Config.rsMaxN < len.toNat + n from h]

/-- Settles O35: the output is the codeword of `rsEncode`, whose length is the message's plus the parity's. -/
theorem rsEncodeAppendsParity : Obligations.RsEncodeAppendsParity := by
  unfold Obligations.RsEncodeAppendsParity
  refine ⟨fun lvl nsym => nsymOf_eq_some_iff, fun lvl nsym len s hlevel => ?_⟩
  have hn : nsymOf lvl = some nsym := nsymOf_eq_some_iff.2 hlevel
  refine ⟨fun hfits => ?_, fun hlong => execRsEncode_tooLong s hn hlong⟩
  have hlength : (rsEncode (s.input len) nsym).length = len.toNat + nsym := by
    rw [rsEncode_length _ (nsymOf_pos hn), State.input_length]
  obtain ⟨t, hexec, hframe, hout⟩ := finishOk_putOut (bs := rsEncode (s.input len) nsym) s (by omega)
  have houtLen : t.outLen.toNat = len.toNat + nsym := hout.1.trans hlength
  exact ⟨t, (execRsEncode_fits s hn hfits).trans hexec, hframe, houtLen, hout⟩

/-! ### The airtime estimate (R241, R242) -/

/-- R241's ranges, by name. -/
theorem loraOk_iff {p : Params} :
    p.loraOk = true ↔ (7 ≤ p.loraSf ∧ p.loraSf ≤ 12) ∧ (1 ≤ p.loraCr ∧ p.loraCr ≤ 4) ∧ 7800 ≤ p.loraBwHz ∧
      p.loraNPreamble ≤ 65535 := by
  simp [Params.loraOk, and_assoc]

theorem lowDataRate_le_one (p : Params) : lowDataRate p ≤ 1 := by
  unfold lowDataRate
  split <;> omega

/-- Low-data-rate optimisation as an integer (R241). -/
theorem lowDataRate_eq_ite (p : Params) :
    (lowDataRate p : ℤ) = if 11 ≤ p.loraSf ∧ p.loraBwHz = 125000 then 1 else 0 := by
  rw [lowDataRate, Nat.cast_ite, Nat.cast_one, Nat.cast_zero]

/-- The symbol time is the ceiling of the exact quotient (R9, R241). -/
theorem symbolUs_eq_ceil {p : Params} (hbw : 0 < p.loraBwHz) :
    (symbolUs p : ℤ) = ⌈(2 ^ p.loraSf * 1000000 : ℚ) / p.loraBwHz⌉ := by
  rw [symbolUs, ceilDiv_eq_ceil _ _ hbw]
  push_cast
  rfl

/-- The payload's symbols over the integers: no subtraction is cut off for a spreading factor in range (R241). -/
theorem payloadSymbols_eq_ceil {p : Params} (hsf : 7 ≤ p.loraSf) (pl : Nat) :
    (payloadSymbols p pl : ℤ) =
      8 + (if 0 < payloadNum p pl then
        ⌈(payloadNum p pl : ℚ) / (4 * (p.loraSf - 2 * (lowDataRate p : ℤ)))⌉ else 0) * (p.loraCr + 4) := by
  have hrate := lowDataRate_le_one p
  have hle : 2 * lowDataRate p ≤ p.loraSf := by omega
  unfold payloadSymbols
  dsimp only
  split
  case isTrue hpos =>
    have hnum : ((payloadNum p pl).toNat : ℚ) = payloadNum p pl := by
      exact_mod_cast Int.toNat_of_nonneg hpos.le
    push_cast
    rw [ceilDiv_eq_ceil _ _ (by omega), hnum]
    push_cast [Nat.cast_sub hle]
    rfl
  case isFalse => push_cast; rfl

/-- The estimate is the ceiling of the exact quarter-microsecond total over 4000 (R241). -/
theorem airtimeMs_eq_ceil (p : Params) (pl : Nat) :
    (airtimeMs p pl : ℤ) =
      ⌈(((4 * p.loraNPreamble + 17) * symbolUs p + 4 * payloadSymbols p pl * symbolUs p : ℤ) : ℚ) / 4000⌉ := by
  rw [airtimeMs, ceilDiv_eq_ceil _ _ (by decide)]
  push_cast
  rfl

/-- Rounding up stays below a bound that the exact quotient keeps. -/
theorem ceilDiv_le {a b k : Nat} (hb : 0 < b) (h : a ≤ b * k) : ceilDiv a b ≤ k := by
  rw [ceilDiv, ← Nat.lt_succ_iff, Nat.div_lt_iff_lt_mul hb, Nat.succ_mul, Nat.mul_comm k b]
  omega

/-- The longest symbol is that of spreading factor 12 at 7800 Hz. -/
theorem symbolUs_le {p : Params} (hsf : p.loraSf ≤ 12) (hbw : 7800 ≤ p.loraBwHz) : symbolUs p ≤ 525129 := by
  have hpow : 2 ^ p.loraSf ≤ 4096 := Nat.pow_le_pow_right (by decide : 0 < 2) hsf
  exact ceilDiv_le (by omega) (by omega)

theorem payloadNum_le {p : Params} {pl : Nat} (hsf : 7 ≤ p.loraSf) (hpl : pl ≤ 255) : payloadNum p pl ≤ 2056 := by
  have hcrc := Bool.toNat_le p.loraCrc
  unfold payloadNum
  omega

theorem payloadSymbols_le {p : Params} {pl : Nat} (hsf : 7 ≤ p.loraSf) (hcr : p.loraCr ≤ 4) (hpl : pl ≤ 255) :
    payloadSymbols p pl ≤ 840 := by
  have hrate := lowDataRate_le_one p
  have hnum := payloadNum_le hsf hpl
  unfold payloadSymbols
  dsimp only
  split
  · have hq : ceilDiv (payloadNum p pl).toNat (4 * (p.loraSf - 2 * lowDataRate p)) ≤ 104 :=
      ceilDiv_le (by omega) (by omega)
    have := Nat.mul_le_mul hq (by omega : p.loraCr + 4 ≤ 8)
    omega
  · omega

/-- Within R241's ranges every estimate fits RESULT0. -/
theorem airtimeMs_lt {p : Params} {pl : Nat} (hp : p.loraOk = true) (hpl : pl ≤ 255) : airtimeMs p pl < 2 ^ 32 := by
  obtain ⟨⟨hsf7, hsf12⟩, ⟨-, hcr⟩, hbw, hpre⟩ := loraOk_iff.1 hp
  have hsym := symbolUs_le hsf12 hbw
  have hpay := payloadSymbols_le hsf7 hcr hpl
  have hpreamble : (4 * p.loraNPreamble + 17) * symbolUs p ≤ 262157 * 525129 := Nat.mul_le_mul (by omega) hsym
  have hpayload : 4 * payloadSymbols p pl * symbolUs p ≤ 3360 * 525129 := Nat.mul_le_mul (by omega) hsym
  have hms : airtimeMs p pl ≤ 2 ^ 32 - 1 := ceilDiv_le (by decide) (by omega)
  omega

/-- Settles O55: RESULT0 holds the whole estimate, and each rounding of it is a ceiling over the rationals. -/
theorem estimateReportsAirtime : Obligations.EstimateReportsAirtime := by
  unfold Obligations.EstimateReportsAirtime
  intro len s hp
  obtain ⟨⟨hsf, -⟩, -, hbw, -⟩ := loraOk_iff.1 hp
  refine ⟨_, rfl, rfl, ?_⟩
  have hfits := airtimeMs_lt hp (show len.toNat ≤ 255 by omega)
  change ((BitVec.ofNat 32 (airtimeMs s.params len.toNat)).toNat : ℤ) = _
  rw [BitVec.toNat_ofNat, Nat.mod_eq_of_lt hfits, airtimeMs_eq_ceil, payloadSymbols_eq_ceil hsf,
    symbolUs_eq_ceil (by omega), lowDataRate_eq_ite]
  rfl

end Sys2Proof.Machine

/-! # Proofs of the statements on the state (spec/10_state.md): the invariant every step keeps, what commands leave
alone, and the registers as the host reads and writes them. -/

namespace Sys2Proof.Machine

/-! ### The invariant, one rule per operation (R26, R27, R29, R39 to R41, R300) -/

/-- The power-on state meets the invariant, whatever the parameters (R330). -/
theorem State.powerOn_inv (p : Params) (n : Nat) (es : List Arrival) (r : Word) : (State.powerOn p n es r).Inv where
  memory := Memory.wf_nil
  capacity := by simp
  entries := by simp
  held := by simp
  errCode := by simp
  valid := by simp
  busy := by simp
  outLen := by simp

/-- What the entry's check reads: its data, its TTL and its priority, so neither id, time nor retry count (R39,
R200). -/
theorem QEntry.ok_iff (e : QEntry) :
    e.ok = true ↔ 14 ≤ e.data.length ∧ e.data.length ≤ 128 ∧ e.ttlS = ttlSeconds e.prio := by
  simp [QEntry.ok, and_assoc]

/-- Every code a command raises is one of R300's 0 to 6. -/
theorem errorsOf_le {i : Instr} {c : BitVec 4} (h : c ∈ errorsOf i) : c.toNat ≤ 6 := by
  revert c
  cases i <;> simp [errorsOf]

/-- An output of at most 2048 bytes lies inside BUF_OUT, so the canonical form stands (R23, R38). -/
theorem State.putOut_wf {s : State} {bs : List Byte} (hm : Memory.wf s.mem = true) (hbs : bs.length ≤ 2048) :
    Memory.wf (s.putOut bs).mem = true := by
  refine Memory.wf_writeBytes hm fun a hlo hhi => (isBufferOffset_iff a).2 (.inr ?_)
  simp only [Config.bufOutBase] at hlo hhi
  omega

theorem State.putIn_wf {s : State} {a : Nat} {bs : List Byte} (hm : Memory.wf s.mem = true)
    (ha : Config.bufInBase ≤ a) (hbs : a + bs.length ≤ Config.bufInBase + Config.bufInSize) :
    Memory.wf (s.putIn a bs).mem = true := by
  refine Memory.wf_writeBytes hm fun b hlo hhi => (isBufferOffset_iff b).2 (.inl ?_)
  simp only [Config.bufInBase, Config.bufInSize] at ha hbs
  omega

section Inv
variable {s : State}

/-- A completion commits a code that can occur, with RES_VALID only on success (R300, R301). -/
theorem State.Inv.complete (h : s.Inv) {c : ErrCode} {v : Bool} (hc : c.bits.toNat ≤ 6 ∨ c.bits = 9)
    (hv : v = true → c.bits = 0) : (s.complete c v).Inv :=
  { h with errCode := hc, valid := hv, busy := by simp }

/-- `finish_ok` and `finish_none` commit code 0 (R12). -/
theorem State.Inv.finish (h : s.Inv) (v : Bool) : (s.complete .none v).Inv :=
  h.complete (.inl (by decide)) fun _ => rfl

theorem State.Inv.setResults (h : s.Inv) (r0 r1 r2 r3 : Word) : (s.setResults r0 r1 r2 r3).Inv := { h with }

theorem State.Inv.setResult0 (h : s.Inv) (r0 : Word) : (s.setResult0 r0).Inv := { h with }

theorem State.Inv.setResult1 (h : s.Inv) (r1 : Word) : (s.setResult1 r1).Inv := { h with }

theorem State.Inv.putOut (h : s.Inv) {bs : List Byte} (hbs : bs.length ≤ 2048) : (s.putOut bs).Inv :=
  { h with
    memory := State.putOut_wf h.memory hbs
    outLen := by rw [State.putOut_outLen, BitVec.toNat_ofNat]; omega }

theorem State.Inv.putIn (h : s.Inv) {a : Nat} {bs : List Byte} (ha : Config.bufInBase ≤ a)
    (hbs : a + bs.length ≤ Config.bufInBase + Config.bufInSize) : (s.putIn a bs).Inv :=
  { h with memory := State.putIn_wf h.memory ha hbs }

theorem State.Inv.setQueue (h : s.Inv) {q : List QEntry} (hq : q.length ≤ 64) (hok : ∀ e ∈ q, e.ok = true) :
    (s.setQueue q).Inv :=
  { h with capacity := hq, entries := hok }

/-- Taking entries away keeps the queue's part (R204, R214). -/
theorem State.Inv.setQueue_sublist (h : s.Inv) {q : List QEntry} (hq : q.Sublist s.queue) : (s.setQueue q).Inv :=
  h.setQueue (hq.length_le.trans h.capacity) fun e he => h.entries e (hq.subset he)

/-- An append to a queue with room keeps the queue's part (R210, R215). -/
theorem State.Inv.setQueue_append (h : s.Inv) {e : QEntry} (hroom : s.queue.length ≠ 64) (he : e.ok = true) :
    (s.setQueue (s.queue ++ [e])).Inv := by
  have hcap := h.capacity
  refine h.setQueue ?_ fun f hf => ?_
  · rw [List.length_append, List.length_singleton]
    omega
  · rcases List.mem_append.1 hf with hf | hf
    · exact h.entries f hf
    · rwa [List.mem_singleton.1 hf]

theorem State.Inv.setHold (h : s.Inv) {e : QEntry} (he : e.ok = true) : (s.setHold e).Inv :=
  { h with held := fun _ => he }

theorem State.Inv.releaseHold (h : s.Inv) : s.releaseHold.Inv := { h with held := by simp }

theorem State.Inv.setBudget (h : s.Inv) (u : Word) (w : DWord) : (s.setBudget u w).Inv := { h with }

theorem State.Inv.setPass (h : s.Inv) (st : PwState) (next last : DWord) : (s.setPass st next last).Inv := { h with }

theorem State.Inv.countQfull (h : s.Inv) : s.countQfull.Inv := { h with }

theorem State.Inv.countDfail (h : s.Inv) : s.countDfail.Inv := { h with }

theorem State.Inv.countExpired (h : s.Inv) (n : Nat) : (s.countExpired n).Inv := { h with }

theorem State.Inv.acceptCommand (h : s.Inv) (w : Word) : (s.acceptCommand w).Inv :=
  { h with busy := by simp }

theorem State.Inv.writeStatus (h : s.Inv) (v : Word) : (s.writeStatus v).Inv :=
  { h with busy := fun w hw => ⟨(h.busy w hw).1, by simp [(h.busy w hw).2]⟩ }

theorem State.Inv.setOvr (h : s.Inv) : s.setOvr.Inv := { h with }

theorem State.Inv.setIe (h : s.Inv) (b : Bool) : (s.setIe b).Inv := { h with }

theorem State.Inv.setNow (h : s.Inv) (v : DWord) : (s.setNow v).Inv := { h with }

theorem State.Inv.setArg0 (h : s.Inv) (v : Word) : (s.setArg0 v).Inv := { h with }

theorem State.Inv.setArg1 (h : s.Inv) (v : Word) : (s.setArg1 v).Inv := { h with }

theorem State.Inv.setArg2 (h : s.Inv) (v : Word) : (s.setArg2 v).Inv := { h with }

theorem State.Inv.setArg3 (h : s.Inv) (v : Word) : (s.setArg3 v).Inv := { h with }

theorem State.Inv.setRdata (h : s.Inv) (v : Word) : (s.setRdata v).Inv := { h with }

theorem State.Inv.setInbox (h : s.Inv) (es : List Arrival) : (s.setInbox es).Inv := { h with }

/-- A soft reset is the power-on state with the buffers kept (R331). -/
theorem State.Inv.softReset (h : s.Inv) : s.softReset.Inv :=
  { State.powerOn_inv s.params s.boots s.inbox s.rdata with memory := h.memory }

theorem State.Inv.dataLength_le (h : s.Inv) {e : QEntry} (he : e ∈ s.queue) : e.data.length ≤ 128 :=
  ((QEntry.ok_iff e).1 (h.entries e he)).2.1

/-! ### The invariant, through a command, a port event and a step -/

theorem Effect.keeps_inv {t : State} {i : Instr} (he : Effect s i t) (h : s.Inv) : t.Inv := by
  cases he with
  | fails c raised => exact h.complete (.inl (errorsOf_le raised)) (by simp)
  | full => exact h.countQfull.complete (.inl (by decide)) (by simp)
  | dropped => exact h.releaseHold.countDfail.complete (.inl (by decide)) (by simp)
  | empty => exact h.finish false
  | output bs r0 r1 r2 r3 bound =>
    exact ((h.putOut (bound fun _ => h.dataLength_le)).setResults r0 r1 r2 r3).finish true
  | answers r0 r1 => exact ((h.setResult0 r0).setResult1 r1).finish true
  | enqueued p n _ prio data dataLength room r0 r1 =>
    have hok : (s.newEntry prio data).ok = true :=
      (QEntry.ok_iff _).2 ⟨dataLength.1, dataLength.2, rfl⟩
    exact (((h.setQueue_append room hok).setResult0 r0).setResult1 r1).finish true
  | dequeued _ e taken =>
    have hmem : e ∈ s.queue := State.selected_mem taken
    have hout := h.putOut ((h.dataLength_le hmem).trans (by decide))
    have hreport : (s.reportEntry e).Inv := hout.setResults ..
    exact ((hreport.setQueue_sublist (removeAt_sublist _ _)).setHold (h.entries e hmem)).finish true
  | purged _ kept sub n r0 => exact (((h.setQueue_sublist sub).countExpired n).setResult0 r0).finish true
  | delivered _ _ r0 => exact (h.releaseHold.setResult0 r0).finish true
  | requeued _ _ held retry room r0 r1 =>
    have hok : QEntry.ok { s.hold with retry := retry } = true := h.held held
    exact (((h.setQueue_append room hok).releaseHold.setResult0 r0).setResult1 r1).finish true
  | charged _ used windowStart r0 r1 =>
    exact (((h.setBudget used windowStart).setResult0 r0).setResult1 r1).finish true
  | ticked _ st next last r0 r1 => exact (((h.setPass st next last).setResult0 r0).setResult1 r1).finish true

theorem runCommand_keeps_inv {w : Word} {t : State} (h : s.Inv) (hrun : runCommand w s = .next t) : t.Inv := by
  rcases runCommand_cases w s with ⟨i, -, hexec⟩ | ⟨-, hillegal⟩
  · exact (exec_effect (hexec ▸ hrun)).keeps_inv h
  · rw [hillegal] at hrun
    cases hrun
    exact h.complete (.inr rfl) (by simp)

theorem State.Inv.busWrite (h : s.Inv) (off : BitVec 12) (v : Word) : (s.busWrite off v).Inv := by
  rcases s.busWrite_cases off v with
    hw | hw | hw | ⟨-, hw⟩ | ⟨-, hw | ⟨n, hw⟩ | hw | hw | hw | hw | ⟨a, htarget, hw⟩ | hw⟩ <;> rw [hw]
  · exact h.softReset
  · exact h.setIe _
  · exact h.writeStatus v
  · exact h.setOvr
  · exact h.acceptCommand v
  · exact h.setNow n
  · exact h.setArg0 v
  · exact h.setArg1 v
  · exact h.setArg2 v
  · exact h.setArg3 v
  · obtain ⟨hlo, hhi⟩ := target_bufIn htarget
    exact h.putIn hlo hhi
  · exact h

theorem portStep_keeps_inv {e : PortEvent} {t : State} (h : s.Inv) (hport : portStep e s = .next t) : t.Inv := by
  rcases portStep_next_cases hport with rfl | ⟨off, rfl⟩ | ⟨off, v, rfl⟩ | ⟨-, rfl⟩
  · exact h
  · exact h.setRdata _
  · exact h.busWrite off v
  · exact State.powerOn_inv ..

end Inv

/-- Settles O10: a step waits, runs a command, or takes a port event, and each is made of operations that keep the
invariant. -/
theorem everyStepKeepsInvariant : Obligations.EveryStepKeepsInvariant := by
  unfold Obligations.EveryStepKeepsInvariant
  intro s t h hstep
  rcases step_next_cases hstep with ⟨rfl, -, -⟩ | ⟨w, -, hrun⟩ | ⟨e, rest, -, hport⟩
  · exact h
  · exact runCommand_keeps_inv h hrun
  · exact portStep_keeps_inv (h.setInbox rest) hport

/-! ### What commands leave alone (R31, R35, R37, R46) -/

/-- A command writes no byte but through `putOut`. -/
theorem Effect.mem_cases {s t : State} {i : Instr} (h : Effect s i t) :
    t.mem = s.mem ∨ ∃ bs, t.mem = (s.putOut bs).mem := by
  cases h with
  | output bs => exact .inr ⟨bs, rfl⟩
  | dequeued _ e => exact .inr ⟨e.data, rfl⟩
  | _ => exact .inl (by simp)

/-- Every byte below BUF_OUT reads as before a command (R37). -/
theorem Effect.readByte_below {s t : State} {i : Instr} (h : Effect s i t) {a : Nat} (ha : a < Config.bufOutBase) :
    t.readByte a = s.readByte a := by
  have hboots := h.keeps_params_boots.2
  rcases h.mem_cases with hmem | ⟨bs, hmem⟩
  · exact State.readByte_congr hmem hboots a
  · rw [State.readByte_congr (s := s.putOut bs) hmem hboots, State.readByte_putOut, if_neg (by omega)]

theorem Effect.keeps_operands {s t : State} {i : Instr} (h : Effect s i t) :
    t.arg0 = s.arg0 ∧ t.arg1 = s.arg1 ∧ t.arg2 = s.arg2 ∧ t.arg3 = s.arg3 ∧ t.now = s.now := by
  cases h <;> simp

theorem Effect.keeps_ovr_cmd {s t : State} {i : Instr} (h : Effect s i t) : t.ovr = s.ovr ∧ t.cmd = s.cmd := by
  cases h <;> simp

/-- Settles O12: no form of `Effect` touches an operand, and the bytes it writes lie in BUF_OUT. -/
theorem commandsLeaveInputsAlone : Obligations.CommandsLeaveInputsAlone := by
  unfold Obligations.CommandsLeaveInputsAlone
  intro i s t hexec
  have heff := exec_effect hexec
  obtain ⟨harg0, harg1, harg2, harg3, hnow⟩ := heff.keeps_operands
  obtain ⟨hovr, hcmd⟩ := heff.keeps_ovr_cmd
  refine ⟨harg0, harg1, harg2, harg3, hnow, heff.keeps_ie, hovr, hcmd, fun k hk => heff.readByte_below ?_⟩
  simp only [Config.bufInBase, Config.bufOutBase]
  omega

/-! ### Each unit's state and its commands (R35, R46, R214, R273) -/

section Unit
variable {s t : State} {i : Instr}

theorem Effect.queue_writers (h : Effect s i t) :
    t.queue = s.queue ∨ (∃ p n, i = .qEnqueue p n) ∨ i = .qDequeue ∨ i = .qPurge ∨ ∃ r, i = .qResult r := by
  cases h with
  | enqueued p n isEnqueue => exact .inr (.inl ⟨p, n, isEnqueue⟩)
  | dequeued isDequeue => exact .inr (.inr (.inl isDequeue))
  | purged isPurge => exact .inr (.inr (.inr (.inl isPurge)))
  | requeued r isResult => exact .inr (.inr (.inr (.inr ⟨r, isResult⟩)))
  | _ => exact .inl (by simp)

theorem Effect.hold_writer (h : Effect s i t) : t.hold = s.hold ∨ i = .qDequeue := by
  cases h with
  | dequeued isDequeue => exact .inr isDequeue
  | _ => exact .inl (by simp)

theorem Effect.holdValid_writers (h : Effect s i t) :
    t.holdValid = s.holdValid ∨ i = .qDequeue ∨ ∃ r, i = .qResult r := by
  cases h with
  | dequeued isDequeue => exact .inr (.inl isDequeue)
  | dropped r isResult | delivered r isResult | requeued r isResult => exact .inr (.inr ⟨r, isResult⟩)
  | _ => exact .inl (by simp)

theorem Effect.cntExpired_writer (h : Effect s i t) : t.cntExpired = s.cntExpired ∨ i = .qPurge := by
  cases h with
  | purged isPurge => exact .inr isPurge
  | _ => exact .inl (by simp)

theorem Effect.cntQfull_event (h : Effect s i t) : t.cntQfull = s.cntQfull ∨ t.err = 5 := by
  cases h with
  | full => exact .inr rfl
  | _ => exact .inl (by simp)

theorem Effect.cntDfail_event (h : Effect s i t) : t.cntDfail = s.cntDfail ∨ t.err = 6 := by
  cases h with
  | dropped => exact .inr rfl
  | _ => exact .inl (by simp)

theorem Effect.budget_writers (h : Effect s i t) :
    t.used = s.used ∧ t.windowStart = s.windowStart ∨ i = .dcPoll ∨ i = .dcCanTx ∨ i = .dcConsume := by
  cases h with
  | charged isCharge => exact .inr isCharge
  | _ => exact .inl (by simp)

theorem Effect.pass_writer (h : Effect s i t) :
    t.pwState = s.pwState ∧ t.nextPassTime = s.nextPassTime ∧ t.lastPassTime = s.lastPassTime ∨ i = .pwTick := by
  cases h with
  | ticked isTick => exact .inr isTick
  | _ => exact .inl (by simp)

end Unit

/-- Settles O16: each form of `Effect` that writes a unit's field names the unit's command or event. -/
theorem commandsKeepToTheirUnit : Obligations.CommandsKeepToTheirUnit := by
  unfold Obligations.CommandsKeepToTheirUnit
  intro i s t hexec
  have heff := exec_effect hexec
  exact ⟨heff.queue_writers, heff.hold_writer, heff.holdValid_writers, heff.cntExpired_writer, heff.cntQfull_event,
    heff.cntDfail_event, heff.budget_writers, heff.pass_writer⟩

/-! ### Addresses and the register map (R23, R60, R61) -/

/-- Address bits [1:0] are ignored (R61). -/
theorem wordOffset_eq (off : BitVec 12) : wordOffset off = off.toNat / 4 * 4 := by
  have hmask : off &&& 0xFFC#12 = off >>> 2 <<< 2 := by
    ext k hk
    interval_cases k <;> simp
  have hlt := off.isLt
  change (off &&& 0xFFC#12).toNat = _
  rw [hmask, BitVec.toNat_shiftLeft, BitVec.toNat_ushiftRight, Nat.shiftLeft_eq,
    Nat.shiftRight_eq_div_pow]
  omega

/-- Every byte address of a register's word reaches the register (R23, R61). -/
theorem target_eq_reg {off : BitVec 12} {r : Reg} (a : Nat) (hlo : a ≤ off.toNat) (hhi : off.toNat < a + 4)
    (hr : regAt a = some r) (ha : 4 ∣ a ∧ a < 0x400) : target off = .reg r := by
  have hword : wordOffset off = a := by
    rw [wordOffset_eq]
    omega
  obtain ⟨-, hlt⟩ := ha
  simp [target, hword, hr, Config.bufOutBase, Config.bufInBase, show ¬ 0x800 ≤ a by omega,
    show ¬ 0x400 ≤ a by omega]

theorem windowOffset_add (p : Params) (off : BitVec 12) : windowOffset p (p.blockBase + off.toNat) = some off := by
  have hlt := off.isLt
  simp only [Nat.reducePow] at hlt
  simp [windowOffset, Config.windowSize, hlt]

/-- When it is a word write's turn, the step is that write (R60, R68). -/
theorem step_of_aboutToWrite {s : State} {off : BitVec 12} {v : Word} {rest : List Arrival}
    (h : s.aboutToWrite off v rest) : step s = .next ((s.setInbox rest).busWrite off v) := by
  rw [step_of_aboutToTake h]
  simp [portStep, State.access, windowOffset_add]

/-- When it is a command's turn, the step runs it (R301). -/
theorem step_of_aboutToExecute {s : State} {w : Word} (h : s.aboutToExecute w) : step s = runCommand w s := by
  obtain ⟨herr, hpending, hlate⟩ := h
  have hres : errReserved s = false := by simpa [errReserved] using herr
  rw [step, guardedStep, hres, if_neg Bool.false_ne_true, blockStep, hpending]
  cases hinbox : s.inbox with
  | nil => rfl
  | cons a rest => simp [hlate a rest hinbox]

theorem State.busWrite_ctrl {off : BitVec 12} (h : target off = .reg .ctrl) (v : Word) (s : State) :
    s.busWrite off v = s.writeCtrl v := by
  rw [State.busWrite, h]

theorem State.busWrite_status {off : BitVec 12} (h : target off = .reg .status) (v : Word) (s : State) :
    s.busWrite off v = s.writeStatus v := by
  rw [State.busWrite, h]

/-- An idle block takes a write to any target but CTRL and STATUS through `writeIdle`. -/
theorem State.busWrite_idle {off : BitVec 12} {s : State} (hctrl : target off ≠ .reg .ctrl)
    (hstatus : target off ≠ .reg .status) (hidle : s.pending = none) (v : Word) :
    s.busWrite off v = s.writeIdle (target off) v := by
  unfold State.busWrite
  split
  · exact absurd ‹_› hctrl
  · exact absurd ‹_› hstatus
  · simp [State.busy, hidle]

/-- When it is a word write's turn and the block is idle, the step is `writeIdle` on the write's target. -/
theorem step_of_idleWrite {s : State} {off : BitVec 12} {v : Word} {rest : List Arrival}
    (h : s.aboutToWrite off v rest) (hidle : s.pending = none) (hctrl : target off ≠ .reg .ctrl)
    (hstatus : target off ≠ .reg .status) : step s = .next ((s.setInbox rest).writeIdle (target off) v) := by
  have hidle' : (s.setInbox rest).pending = none := hidle
  rw [step_of_aboutToWrite h, State.busWrite_idle hctrl hstatus hidle']

theorem State.busRead_reg {off : BitVec 12} {r : Reg} (h : target off = .reg r) (s : State) :
    s.busRead off = s.readReg r := by
  rw [State.busRead, h]

/-! ### CMD writes (R27, R84, R301) -/

theorem runCommand_of_decode {w : Word} {i : Instr} (h : decode w = .ok i) (s : State) :
    runCommand w s = exec i s := by
  rw [runCommand, h]

theorem runCommand_of_illegal {w : Word} (h : ∀ i, decode w ≠ .ok i) (s : State) :
    runCommand w s = .next (s.failed 9) := by
  rcases runCommand_cases w s with ⟨i, hok, -⟩ | ⟨-, hrun⟩
  · exact absurd hok (h i)
  · exact hrun

/-- Settles O8: the write is `acceptCommand`, after which it is the accepted word's turn. -/
theorem writtenCommandIsAcceptedThenExecuted : Obligations.WrittenCommandIsAcceptedThenExecuted := by
  unfold Obligations.WrittenCommandIsAcceptedThenExecuted
  intro s v off rest hidle hlo hhi hwrite
  have htarget : target off = .reg .cmd := target_eq_reg 0x00C hlo hhi rfl (by decide)
  have haccept : step s = .next ((s.setInbox rest).acceptCommand v) := by
    rw [step_of_idleWrite hwrite hidle (by simp [htarget]) (by simp [htarget]), htarget]
    rfl
  refine ⟨(s.setInbox rest).acceptCommand v, haccept, rfl, by simp [State.irq], fun hlate => ?_⟩
  have hturn : ((s.setInbox rest).acceptCommand v).aboutToExecute v := ⟨hwrite.1, rfl, hlate⟩
  rw [step_of_aboutToExecute hturn]
  exact ⟨fun i hdecode => runCommand_of_decode hdecode _, fun hillegal => runCommand_of_illegal hillegal _⟩

/-! ### Halves of a 64-bit register (R30) -/

theorem loHalf_append (a b : Word) : loHalf (a ++ b) = b := BitVec.extractLsb'_append_eq_right

theorem hiHalf_append (a b : Word) : hiHalf (a ++ b) = a := BitVec.extractLsb'_append_eq_left

theorem hiHalf_append_loHalf (v : DWord) : hiHalf v ++ loHalf v = v :=
  (BitVec.extractLsb'_append_extractLsb'_eq_extractLsb' rfl).trans BitVec.extractLsb'_eq_self

/-! ### NOW and the ARG registers (R30, R31) -/

/-- The registers that store what the host writes, in the map's order from 0x028 on (R23). -/
def Reg.storable : List Reg := [.nowLo, .nowHi, .arg0, .arg1, .arg2, .arg3]

theorem regAt_storable : ∀ k (hk : k < 6), regAt (0x028 + 4 * k) = some (Reg.storable[k]'hk) := by decide

/-- The six registers' words fill 0x028 to 0x03F. -/
theorem target_storable {off : BitVec 12} (hlo : 0x028 ≤ off.toNat) (hhi : off.toNat < 0x040) :
    ∃ r ∈ Reg.storable, target off = .reg r :=
  ⟨_, List.getElem_mem _, target_eq_reg (0x028 + 4 * ((off.toNat - 0x028) / 4)) (by omega) (by omega)
    (regAt_storable _ (by omega)) (by omega)⟩

theorem State.readReg_writeIdle {r : Reg} (hr : r ∈ Reg.storable) (v : Word) (s : State) :
    (s.writeIdle (.reg r) v).readReg r = v := by
  simp only [Reg.storable, List.mem_cons, List.not_mem_nil, or_false] at hr
  rcases hr with rfl | rfl | rfl | rfl | rfl | rfl
  · exact loHalf_append _ _
  · exact hiHalf_append _ _
  all_goals rfl

/-- Settles O22: each of the six registers stores through its own arm of `writeIdle`. -/
theorem readWriteRegistersStore : Obligations.ReadWriteRegistersStore := by
  unfold Obligations.ReadWriteRegistersStore
  intro s off v rest hlo hhi hidle hwrite
  obtain ⟨r, hr, htarget⟩ := target_storable hlo hhi
  have hne : ∀ g, g ∉ Reg.storable → target off ≠ .reg g := by
    rintro g hg h
    cases htarget.symm.trans h
    exact hg hr
  have hstep := step_of_idleWrite hwrite hidle (hne _ (by decide)) (hne _ (by decide))
  refine ⟨(s.setInbox rest).writeIdle (target off) v, hstep, ?_, fun h => ?_, fun h h' => ?_, fun h h' => ?_,
    fun h h' => ?_, fun h h' => ?_, fun h => ?_⟩
  · rw [State.busRead_reg htarget, htarget, State.readReg_writeIdle hr]
  · rw [target_eq_reg 0x028 hlo h rfl (by decide)]; rfl
  · rw [target_eq_reg 0x02C h h' rfl (by decide)]; rfl
  · rw [target_eq_reg 0x030 h h' rfl (by decide)]; rfl
  · rw [target_eq_reg 0x034 h h' rfl (by decide)]; rfl
  · rw [target_eq_reg 0x038 h h' rfl (by decide)]; rfl
  · rw [target_eq_reg 0x03C h hhi rfl (by decide)]; rfl

/-! ### CTRL and STATUS writes (R25, R26, R305, R306, R331) -/

/-- Settles O19: the write is `writeCtrl`, which resets or sets IE. -/
theorem ctrlWriteResetsOrSetsInterruptEnable : Obligations.CtrlWriteResetsOrSetsInterruptEnable := by
  unfold Obligations.CtrlWriteResetsOrSetsInterruptEnable
  intro s off v rest hlo hhi hwrite
  have htarget : target off = .reg .ctrl := target_eq_reg 0x004 hlo hhi rfl (by decide)
  have hstep : step s = .next ((s.setInbox rest).writeCtrl v) := by
    rw [step_of_aboutToWrite hwrite, State.busWrite_ctrl htarget]
  refine ⟨_, hstep, ?_, ?_⟩ <;> unfold State.writeCtrl
  · rfl
  · cases v.getLsbD 1 <;> simp [State.irq_iff]

/-- Settles O21: the write is `writeStatus`. -/
theorem statusWriteClearsDoneAndOverrun : Obligations.StatusWriteClearsDoneAndOverrun := by
  unfold Obligations.StatusWriteClearsDoneAndOverrun
  intro s off v rest hlo hhi hwrite
  have htarget : target off = .reg .status := target_eq_reg 0x008 hlo hhi rfl (by decide)
  have hstep : step s = .next ((s.setInbox rest).writeStatus v) := by
    rw [step_of_aboutToWrite hwrite, State.busWrite_status htarget]
  have hclear : ∀ flag bit : Bool, (flag && !bit) = if bit then false else flag := by decide
  refine ⟨_, hstep, ?_, ?_⟩
  · rw [State.writeStatus, hclear, hclear]
    rfl
  · rw [State.irq_iff, State.writeStatus_ie, State.writeStatus_done]
    cases v.getLsbD 1 <;> simp

/-! ### Registers as the host reads them (R23 to R36, R44) -/

theorem State.ctrlWord_eq (s : State) : s.ctrlWord = if s.ie then 1 else 0 := by
  unfold State.ctrlWord
  cases s.ie <;> rfl

theorem PwState.toWord_eq (st : PwState) : st.toWord = if st = .active then 1 else 0 := by
  cases st <;> rfl

/-- Settles O28: each offset's register is read off the map; the 64-bit ones join their halves. -/
theorem registersMirrorUnitState : Obligations.RegistersMirrorUnitState := by
  unfold Obligations.RegistersMirrorUnitState
  intro s
  exact ⟨rfl, s.ctrlWord_eq, rfl, rfl, rfl, rfl, rfl, hiHalf_append_loHalf s.now, rfl, rfl, rfl, rfl, rfl, rfl, rfl,
    hiHalf_append_loHalf s.hold.tEnq, rfl, rfl, hiHalf_append_loHalf s.windowStart, rfl, rfl, s.pwState.toWord_eq,
    hiHalf_append_loHalf s.nextPassTime, hiHalf_append_loHalf s.lastPassTime, rfl, rfl, rfl, rfl, rfl, rfl, rfl⟩

/-- The registers that read 0 after power-on, in the map's order (R23, R330). -/
def Reg.zeroAtPowerOn : List Reg :=
  [.ctrl, .status, .cmd, .result0, .result1, .result2, .result3, .outLen, .nowLo, .nowHi, .arg0, .arg1, .arg2, .arg3,
    .holdId, .holdMeta, .holdTimeLo, .holdTimeHi, .holdTtl, .dcUsed, .dcWstartLo, .dcWstartHi, .pwState, .pwLastLo,
    .pwLastHi, .cntQfull, .cntDfail, .cntExpired]

theorem hiHalf_zero : hiHalf 0 = 0 := by decide

theorem metaWord_reset : metaWord QEntry.reset = 0 := by decide

theorem State.statusWord_powerOn (p : Params) (n : Nat) (es : List Arrival) (d : Word) :
    (State.powerOn p n es d).statusWord = 0 := by
  simp [State.statusWord, State.busy, PwState.bit]

theorem State.readReg_powerOn {r : Reg} (hr : r ∈ Reg.zeroAtPowerOn) (p : Params) (n : Nat) (es : List Arrival)
    (d : Word) : (State.powerOn p n es d).readReg r = 0 := by
  cases r
  case id | dcLimit | dcWindow | pwNextLo | pwNextHi | pwDuration | pwMargin | pwInterval | cfg =>
    exact absurd hr (by decide)
  case status => exact State.statusWord_powerOn p n es d
  case holdMeta => exact metaWord_reset
  case nowHi | holdTimeHi | dcWstartHi | pwLastHi => exact hiHalf_zero
  all_goals rfl

/-- Settles O18: the listed offsets are those of `Reg.zeroAtPowerOn`, in its order. -/
theorem powerOnRegistersRead : Obligations.PowerOnRegistersRead := by
  unfold Obligations.PowerOnRegistersRead
  intro p n inbox r
  refine ⟨rfl, fun off hoff => ?_, rfl, rfl, rfl, rfl, rfl, rfl, rfl, rfl, rfl, rfl⟩
  have hzero : target off ∈ Reg.zeroAtPowerOn.map .reg := List.mem_map_of_mem (f := target) hoff
  obtain ⟨g, hg, htarget⟩ := List.mem_map.1 hzero
  rw [State.busRead_reg htarget.symm, State.readReg_powerOn hg]

/-! ### STATUS (R26, R44) -/

/-- STATUS's single-bit flags, and its reserved bit 23. -/
theorem State.statusWord_bits (s : State) :
    s.statusWord.getLsbD 0 = s.pending.isSome ∧ s.statusWord.getLsbD 1 = s.done ∧
    s.statusWord.getLsbD 2 = s.resValid ∧ s.statusWord.getLsbD 3 = s.ovr ∧ s.statusWord.getLsbD 23 = false ∧
    s.statusWord.getLsbD 24 = (s.pwState == .active) ∧ s.statusWord.getLsbD 25 = s.holdValid := by
  have hpass : s.pwState.bit = (s.pwState == .active) := by cases s.pwState <;> rfl
  simp only [State.statusWord, BitVec.getLsbD_append]
  simp [State.busy, hpass]

/-- STATUS's ERR and QCOUNT, and the wider reserved fields: each starts where a part of the word starts. -/
theorem State.statusWord_fields (s : State) :
    s.statusWord.extractLsb' 4 4 = 0 ∧ s.statusWord.extractLsb' 8 4 = s.err ∧
    s.statusWord.extractLsb' 12 4 = 0 ∧ s.statusWord.extractLsb' 16 7 = BitVec.ofNat 7 s.queue.length ∧
    s.statusWord.extractLsb' 26 6 = 0 := by
  simp (disch := decide) only [State.statusWord, BitVec.extractLsb'_append_eq_of_le,
    BitVec.extractLsb'_append_eq_right, BitVec.extractLsb'_eq_self, Nat.reduceSub, and_self]

/-- Settles O29: a queue of at most 64 entries fits QCOUNT's seven bits. -/
theorem statusWordLayout : Obligations.StatusWordLayout := by
  unfold Obligations.StatusWordLayout
  intro s hq
  obtain ⟨hbusy, hdone, hvalid, hovr, hreserved, hactive, hheld⟩ := s.statusWord_bits
  obtain ⟨hlow, herr, hmiddle, hcount, hhigh⟩ := s.statusWord_fields
  refine ⟨rfl, hbusy, hdone, hvalid, hovr, hlow, herr, hmiddle, ?_, hreserved, hactive, hheld, hhigh⟩
  rw [hcount, BitVec.toNat_ofNat]
  omega

end Sys2Proof.Machine

/-! # Proofs of the statements on the bus port and the buffers (spec/20_memory.md): whose turn a step is, what an access
reaches, the bytes of a buffer word, and RELAY_SERIALIZE's packet. -/

namespace Sys2Proof.Machine

/-! ### Whose turn a step is (R68, R330, I9) -/

/-- With nothing pending and no arrival the block waits (R330). -/
theorem step_of_waiting {s : State} (herr : s.err.toNat < 10) (hidle : s.pending = none) (hinbox : s.inbox = []) :
    step s = .next s := by
  have hres : errReserved s = false := by simpa [errReserved] using herr
  rw [step, guardedStep, hres, if_neg Bool.false_ne_true, blockStep, hidle, hinbox]

theorem step_of_reservedError {s : State} (herr : 10 ≤ s.err.toNat) : step s = .fault .reservedErrorCode := by
  have hres : errReserved s = true := by simpa [errReserved] using herr
  rw [step, guardedStep, if_pos hres]

/-- Settles O7: one lemma for each of the three turns. -/
theorem stepTakesHostEventsInOrder : Obligations.StepTakesHostEventsInOrder := by
  unfold Obligations.StepTakesHostEventsInOrder
  exact ⟨fun _ _ _ htake => step_of_aboutToTake htake, fun _ => step_of_waiting, fun _ => step_of_reservedError⟩

/-! ### Accesses inside and outside the window (R60, R61, I12) -/

/-- A port event that is a host access, as `State.access` with its own effect. -/
theorem portStep_eq_access {e : PortEvent} {size : AccessSize} {addr : Nat} {v : Word}
    (h : e = .read size addr ∨ e = .write size addr v) (s : State) :
    ∃ act, portStep e s = s.access addr size act := by
  rcases h with rfl | rfl
  · exact ⟨fun off => s.setRdata (s.busRead off), rfl⟩
  · exact ⟨fun off => s.busWrite off v, rfl⟩

theorem State.access_outside {s : State} {addr : Nat}
    (h : addr < s.params.blockBase ∨ s.params.blockBase + 0x1000 ≤ addr) (size : AccessSize)
    (act : BitVec 12 → State) : s.access addr size act = .next s := by
  have hout : windowOffset s.params addr = none := if_neg fun hin => by
    simp only [Config.windowSize] at hin
    omega
  rw [State.access, hout]

theorem State.access_narrow {s : State} {addr : Nat} {size : AccessSize} (hlo : s.params.blockBase ≤ addr)
    (hhi : addr < s.params.blockBase + 0x1000) (hsize : size ≠ .word) (act : BitVec 12 → State) :
    s.access addr size act = .refused .narrowAccess := by
  rw [State.access, windowOffset, if_pos ⟨hlo, hhi⟩]
  cases size with
  | byte => rfl
  | half => rfl
  | word => exact absurd rfl hsize

/-- Settles O27: reads and writes go through `State.access`, which answers by the address and the width alone. -/
theorem narrowAccessIsRefused : Obligations.NarrowAccessIsRefused := by
  unfold Obligations.NarrowAccessIsRefused
  intro s size addr v rest e he htake
  obtain ⟨act, haccess⟩ := portStep_eq_access he (s.setInbox rest)
  rw [step_of_aboutToTake htake, haccess]
  exact ⟨fun hlo hhi hsize => State.access_narrow (s := s.setInbox rest) hlo hhi hsize act,
    fun hout => State.access_outside (s := s.setInbox rest) hout size act⟩

/-! ### Word reads (R61, R65) -/

/-- When it is a word read's turn, busy or idle, the step only keeps the word (R65). -/
theorem step_of_aboutToRead {s : State} {off : BitVec 12} {rest : List Arrival} (h : s.aboutToRead off rest) :
    step s = .next ((s.setInbox rest).setRdata (s.busRead off)) := by
  rw [step_of_aboutToTake h, portStep, State.access, State.setInbox_params, windowOffset_add]
  rfl

/-- Masking the low address bits changes nothing of what an access reaches (R61). -/
theorem target_mask (off : BitVec 12) : target (off &&& 0xFFC) = target off := by
  have hmask : off &&& 0xFFC#12 &&& 0xFFC#12 = off &&& 0xFFC#12 := by rw [BitVec.and_assoc, BitVec.and_self]
  have hword : wordOffset (off &&& 0xFFC) = wordOffset off := congrArg BitVec.toNat hmask
  rw [target, hword, target]

/-- Settles O25: a read keeps its word, and what it reads depends on its target alone. -/
theorem readsHaveNoSideEffect : Obligations.ReadsHaveNoSideEffect := by
  unfold Obligations.ReadsHaveNoSideEffect
  intro s off rest hread
  refine ⟨step_of_aboutToRead hread, ?_⟩
  rw [State.busRead, State.busRead, target_mask]

/-! ### Unmapped offsets and reserved bits (R23, R25, R29, R32, R34, R36, R64) -/

/-- No register stands at an unmapped offset: each of the map's offsets lies outside R64's ranges. -/
theorem regAt_unmapped {a : Nat} (h : unmappedOffsets a) : regAt a = none := by
  unfold regAt
  split
  case h_38 => rfl
  all_goals exact absurd h (by unfold unmappedOffsets; decide)

/-- R64's ranges hold whole words, so the aligned offset lies in them too. -/
theorem unmappedOffsets_align {a : Nat} (h : unmappedOffsets a) : unmappedOffsets (a / 4 * 4) := by
  unfold unmappedOffsets at h ⊢
  omega

theorem target_eq_unmapped {off : BitVec 12} (h : unmappedOffsets off.toNat) : target off = .unmapped := by
  have halign := unmappedOffsets_align h
  obtain ⟨hout, hin⟩ : ¬ 0x800 ≤ off.toNat / 4 * 4 ∧
      ¬ (0x400 ≤ off.toNat / 4 * 4 ∧ off.toNat / 4 * 4 < 0x400 + 0x100) := by
    unfold unmappedOffsets at halign
    omega
  rw [target, wordOffset_eq, regAt_unmapped halign]
  exact (if_neg hout).trans (if_neg hin)

theorem metaWord_reserved (e : QEntry) :
    (metaWord e).extractLsb' 2 2 = 0 ∧ (metaWord e).extractLsb' 6 2 = 0 ∧ (metaWord e).extractLsb' 16 16 = 0 := by
  simp (disch := decide) only [metaWord, BitVec.extractLsb'_append_eq_of_le, BitVec.extractLsb'_append_eq_right,
    BitVec.extractLsb'_eq_self, Nat.reduceSub, and_self]

theorem Params.cfgWord_reserved (p : Params) :
    (Params.cfgWord p).extractLsb' 14 2 = 0 ∧ (Params.cfgWord p).extractLsb' 24 8 = 0 := by
  simp (disch := decide) only [Params.cfgWord, BitVec.extractLsb'_append_eq_of_le, BitVec.extractLsb'_append_eq_right,
    BitVec.extractLsb'_eq_self, Nat.reduceSub, and_self]

/-- The bits of a register word above a narrower field read 0. -/
theorem extractLsb'_setWidth_above {n : Nat} (x : BitVec n) (len : Nat) :
    (x.setWidth 32).extractLsb' n len = 0 := by
  ext k hk
  simp

/-- Settles O24: an unmapped offset's target reads 0 and takes no write; the reserved bits stand above or between the
fields of their words. -/
theorem unmappedOffsetsReadZero : Obligations.UnmappedOffsetsReadZero := by
  unfold Obligations.UnmappedOffsetsReadZero
  intro s off v rest hoff
  have htarget := target_eq_unmapped hoff
  have hreadZero : s.busRead off = 0 := by rw [State.busRead, htarget]
  obtain ⟨hmetaLow, hmetaMiddle, hmetaHigh⟩ := metaWord_reserved s.hold
  obtain ⟨hcfgMiddle, hcfgHigh⟩ := Params.cfgWord_reserved s.params
  refine ⟨fun hread => ?_, fun hidle hwrite => ?_, extractLsb'_setWidth_above _ _, extractLsb'_setWidth_above _ _,
    extractLsb'_setWidth_above _ _, hmetaLow, hmetaMiddle, hmetaHigh, hcfgMiddle, hcfgHigh⟩
  · rw [step_of_aboutToRead hread, hreadZero]
    rfl
  · rw [step_of_idleWrite hwrite hidle (by simp [htarget]) (by simp [htarget]), htarget]
    rfl

/-! ### Buffer words (R23, R61, R62) -/

theorem target_eq_bufIn {off : BitVec 12} (hlo : 0x400 ≤ off.toNat) (hhi : off.toNat < 0x500) :
    target off = .bufIn (off.toNat / 4 * 4) := by
  rw [target, wordOffset_eq]
  exact (if_neg (show ¬ 0x800 ≤ off.toNat / 4 * 4 by omega)).trans
    (if_pos (show 0x400 ≤ off.toNat / 4 * 4 ∧ off.toNat / 4 * 4 < 0x400 + 0x100 by omega))

theorem target_eq_bufOut {off : BitVec 12} (hlo : 0x800 ≤ off.toNat) : target off = .bufOut (off.toNat / 4 * 4) := by
  rw [target, wordOffset_eq]
  exact if_pos (show 0x800 ≤ off.toNat / 4 * 4 by omega)

theorem State.busRead_buffer {off : BitVec 12} (h : 0x400 ≤ off.toNat ∧ off.toNat < 0x500 ∨ 0x800 ≤ off.toNat)
    (s : State) : s.busRead off = s.readWordLe (off.toNat / 4 * 4) := by
  rcases h with ⟨hlo, hhi⟩ | hlo
  · rw [State.busRead, target_eq_bufIn hlo hhi]
  · rw [State.busRead, target_eq_bufOut hlo]

/-- Byte `k` of a buffer word stands in bits `8k + 7 : 8k` (R62). -/
theorem State.readWordLe_byte (s : State) (a : Nat) {k : Nat} (hk : k < 4) :
    (s.readWordLe a).extractLsb' (8 * k) 8 = s.readByte (a + k) := by
  interval_cases k <;>
    simp (disch := decide) only [State.readWordLe, BitVec.extractLsb'_append_eq_of_le,
      BitVec.extractLsb'_append_eq_right, BitVec.extractLsb'_eq_self, Nat.reduceSub, Nat.reduceMul, Nat.add_zero]

/-- Settles O26: both buffers' offsets read the aligned word, byte by byte. -/
theorem bufferWordsAreLittleEndian : Obligations.BufferWordsAreLittleEndian := by
  unfold Obligations.BufferWordsAreLittleEndian
  intro s off hoff k hk
  rw [State.busRead_buffer hoff, s.readWordLe_byte _ hk]

/-! ### BUF_IN writes (R61, R62, R346) -/

theorem leBytes_getD (v : Word) {k : Nat} (hk : k < 4) : (leBytes v).getD k 0 = v.extractLsb' (8 * k) 8 := by
  interval_cases k <;> rfl

/-- A word is its four bytes. -/
theorem append_bytes (v : Word) :
    v.extractLsb' 24 8 ++ v.extractLsb' 16 8 ++ v.extractLsb' 8 8 ++ v.extractLsb' 0 8 = v := by
  have hhigh : v.extractLsb' 24 8 ++ v.extractLsb' 16 8 = v.extractLsb' 16 16 :=
    BitVec.extractLsb'_append_extractLsb'_eq_extractLsb' rfl
  have hupper : v.extractLsb' 16 16 ++ v.extractLsb' 8 8 = v.extractLsb' 8 24 :=
    BitVec.extractLsb'_append_extractLsb'_eq_extractLsb' rfl
  rw [hhigh, hupper]
  exact (BitVec.extractLsb'_append_extractLsb'_eq_extractLsb' rfl).trans BitVec.extractLsb'_eq_self

/-- Each byte of a written word, in its place. -/
theorem State.readByte_putIn_leBytes (s : State) (a : Nat) (v : Word) {k : Nat} (hk : k < 4) :
    (s.putIn a (leBytes v)).readByte (a + k) = v.extractLsb' (8 * k) 8 := by
  rw [State.readByte_putIn, if_pos (by rw [leBytes_length]; omega), Nat.add_sub_cancel_left, leBytes_getD v hk]

theorem State.readWordLe_putIn_leBytes (s : State) (a : Nat) (v : Word) :
    (s.putIn a (leBytes v)).readWordLe a = v := by
  have hbyte := fun k hk => s.readByte_putIn_leBytes a v (k := k) hk
  have hlowest : (s.putIn a (leBytes v)).readByte a = v.extractLsb' 0 8 := hbyte 0 (by decide)
  rw [State.readWordLe, hbyte 3 (by decide), hbyte 2 (by decide), hbyte 1 (by decide), hlowest]
  exact append_bytes v

theorem State.sameBytesOutside_putIn (s : State) (base : Nat) (bs : List Byte) :
    sameBytesOutside base bs.length s (s.putIn base bs) := by
  intro a ha
  rw [State.readByte_putIn, if_neg (by omega)]

/-- Settles O23: the write is `putIn` of the word's four bytes at the aligned offset. -/
theorem bufInWriteSetsFourBytes : Obligations.BufInWriteSetsFourBytes := by
  unfold Obligations.BufInWriteSetsFourBytes
  intro s off v rest hlo hhi hidle hwrite
  have htarget := target_eq_bufIn hlo hhi
  have hstep : step s = .next ((s.setInbox rest).putIn (off.toNat / 4 * 4) (leBytes v)) := by
    rw [step_of_idleWrite hwrite hidle (by simp [htarget]) (by simp [htarget]), htarget]
    rfl
  refine ⟨_, hstep, rfl, ?_, fun k hk => State.readByte_putIn_leBytes _ _ _ hk,
    (s.setInbox rest).sameBytesOutside_putIn _ (leBytes v)⟩
  rw [State.busRead_buffer (.inl ⟨hlo, hhi⟩), State.readWordLe_putIn_leBytes]

/-! ### RELAY_SERIALIZE (R63, R180) -/

theorem relaySer_eq_none_iff {src dst ts : Word} {ch : Byte} {pl : List Byte} :
    relaySer src dst ch ts pl = none ↔ 114 < pl.length := by
  simp [relaySer]

/-- The relay packet of the argument registers and the payload (R180). -/
def State.relayBytes (len : Byte) (s : State) : List Byte :=
  [0x01] ++ be32 s.arg0 ++ be32 s.arg1 ++ [s.arg2.extractLsb' 0 8] ++ be32 s.arg3 ++
    s.readBytes Config.bufInBase len.toNat

theorem State.relayBytes_length (len : Byte) (s : State) : (s.relayBytes len).length = 14 + len.toNat := by
  simp [State.relayBytes]
  omega

theorem execRelaySerialize_fits {len : Byte} (s : State) (h : len.toNat ≤ 114) :
    execRelaySerialize len s = finishOk (s.putOut (s.relayBytes len)) := by
  have hpacket : s.relayPacket len = some (s.relayBytes len) :=
    relaySer_eq_some.2 ⟨by rwa [State.input_length], rfl⟩
  rw [execRelaySerialize, hpacket]

theorem execRelaySerialize_tooLong {len : Byte} (s : State) (h : 114 < len.toNat) :
    execRelaySerialize len s = raise .translationError s := by
  have hpacket : s.relayPacket len = none := relaySer_eq_none_iff.2 (by rwa [State.input_length])
  rw [execRelaySerialize, hpacket]

/-- Settles O44: the packet is `relayBytes`, short enough for BUF_OUT whenever its payload is within the cap. -/
theorem relaySerializeWritesPacket : Obligations.RelaySerializeWritesPacket := by
  unfold Obligations.RelaySerializeWritesPacket
  refine ⟨fun _ => rfl, fun len s => ⟨fun hfits => ?_, fun hlong => execRelaySerialize_tooLong s hlong⟩⟩
  have hlength := s.relayBytes_length len
  obtain ⟨t, hexec, hframe, hout⟩ := finishOk_putOut (bs := s.relayBytes len) s (by omega)
  have houtLen : t.outLen.toNat = 14 + len.toNat := hout.1.trans hlength
  exact ⟨t, (execRelaySerialize_fits s hfits).trans hexec, hframe, houtLen, hout⟩

end Sys2Proof.Machine

/-! # Proofs of the statements on the encoding (spec/30_encoding.md): a command's row of R82 and the words that match
it, the illegal words, and what an illegal word or field value does. -/

namespace Sys2Proof

/-! ### The fields of a word (R80) -/

/-- A word is its five fields. -/
theorem append_fields (w : Word) : rsvField w ++ lenField w ++ fbField w ++ faField w ++ opcField w = w := by
  have hhigh : rsvField w ++ lenField w = w.extractLsb' 16 16 :=
    BitVec.extractLsb'_append_extractLsb'_eq_extractLsb' rfl
  have hfromFb : w.extractLsb' 16 16 ++ fbField w = w.extractLsb' 12 20 :=
    BitVec.extractLsb'_append_extractLsb'_eq_extractLsb' rfl
  have hfromFa : w.extractLsb' 12 20 ++ faField w = w.extractLsb' 8 24 :=
    BitVec.extractLsb'_append_extractLsb'_eq_extractLsb' rfl
  rw [hhigh, hfromFb, hfromFa]
  exact (BitVec.extractLsb'_append_extractLsb'_eq_extractLsb' rfl).trans BitVec.extractLsb'_eq_self

/-- Two concatenations with the same split agree part by part. -/
theorem bitVec_append_inj {m n : Nat} {a c : BitVec m} {b d : BitVec n} : a ++ b = c ++ d ↔ a = c ∧ b = d := by
  refine ⟨fun h => ?_, fun ⟨hhigh, hlow⟩ => hhigh ▸ hlow ▸ rfl⟩
  have hhigh := congrArg (BitVec.extractLsb' n m) h
  have hlow := congrArg (BitVec.extractLsb' 0 n) h
  rw [BitVec.extractLsb'_append_eq_left, BitVec.extractLsb'_append_eq_left] at hhigh
  rw [BitVec.extractLsb'_append_eq_right, BitVec.extractLsb'_append_eq_right] at hlow
  exact ⟨hhigh, hlow⟩

/-- Masking a word by R80's fields and comparing it with a packed word compares field by field. -/
theorem and_mask_eq_packWord_iff {w : Word} {opc : Byte} {fa fb mfa mfb : BitVec 4} {len mlen : Byte} :
    w &&& ((0xFF : Byte) ++ mlen ++ mfb ++ mfa ++ (0xFF : Byte)) = packWord opc fa fb len ↔
      rsvField w = 0 ∧ lenField w &&& mlen = len ∧ fbField w &&& mfb = fb ∧ faField w &&& mfa = fa ∧
        opcField w = opc := by
  have hall (b : Byte) : b &&& 0xFF = b := BitVec.and_allOnes
  conv_lhs => lhs; rw [← append_fields w]
  rw [packWord, BitVec.and_append, BitVec.and_append, BitVec.and_append, BitVec.and_append, bitVec_append_inj,
    bitVec_append_inj, bitVec_append_inj, bitVec_append_inj, hall, hall]
  simp only [and_assoc]

/-! ### The rows of R82 -/

/-- A command's row of R82: its opcode and the field values it carries, none for a field the row marks "—". -/
structure OpcodeRow where
  opc : Byte
  fa : Option (BitVec 4) := none
  fb : Option (BitVec 4) := none
  len : Option Byte := none

/-- The row of each command (R82); `decodeOpcode_eq_ok_iff`, `encode_eq_packWord` and `significantBits_eq_append` tie it
to the model. -/
def Instr.row : Instr → OpcodeRow
  | .compress len => { opc := 0x10, len := some len }
  | .decompress len => { opc := 0x11, len := some len }
  | .rsEncode lvl len => { opc := 0x20, fa := some lvl, len := some len }
  | .rsDecode lvl len => { opc := 0x21, fa := some lvl, len := some len }
  | .frameCreate comp fec len => { opc := 0x30, fa := some comp, fb := some fec, len := some len }
  | .frameParse len => { opc := 0x31, len := some len }
  | .relaySerialize len => { opc := 0x32, len := some len }
  | .relayDeserialize len => { opc := 0x33, len := some len }
  | .qEnqueue prio len => { opc := 0x40, fa := some prio, len := some len }
  | .qDequeue => { opc := 0x41 }
  | .qPeek => { opc := 0x42 }
  | .qPurge => { opc := 0x43 }
  | .qResult result => { opc := 0x44, fa := some result }
  | .dcEstimate len => { opc := 0x50, len := some len }
  | .dcPoll => { opc := 0x51 }
  | .dcCanTx => { opc := 0x52 }
  | .dcConsume => { opc := 0x53 }
  | .pwTick => { opc := 0x60 }

/-- The word's opcode and fields are the row's; a field the row does not use may hold anything (R82, R84). -/
structure OpcodeRow.Matches (r : OpcodeRow) (w : Word) : Prop where
  opc : opcField w = r.opc
  fa : ∀ v ∈ r.fa, faField w = v
  fb : ∀ v ∈ r.fb, fbField w = v
  len : ∀ v ∈ r.len, lenField w = v

/-- The bits of a field that count: all of them where a row uses the field, else none. -/
def usedBits {n : Nat} : Option (BitVec n) → BitVec n
  | some _ => BitVec.allOnes n
  | none => 0

theorem and_usedBits_eq_iff {n : Nat} {x : BitVec n} {o : Option (BitVec n)} :
    x &&& usedBits o = o.getD 0 ↔ ∀ v ∈ o, x = v := by
  cases o <;> simp [usedBits]

theorem encode_eq_packWord (i : Instr) :
    encode i = packWord i.row.opc (i.row.fa.getD 0) (i.row.fb.getD 0) (i.row.len.getD 0) := by
  cases i <;> rfl

theorem significantBits_eq_append (i : Instr) :
    significantBits i =
      (0xFF : Byte) ++ usedBits i.row.len ++ usedBits i.row.fb ++ usedBits i.row.fa ++ (0xFF : Byte) := by
  cases i <;> simp only [significantBits, Instr.row, usedBits] <;> decide

/-- A word agrees with a command's encoding on the command's significant bits when its reserved bits are 0 and it
matches the command's row. -/
theorem and_significantBits_eq_encode_iff {w : Word} {i : Instr} :
    w &&& significantBits i = encode i ↔ rsvField w = 0 ∧ i.row.Matches w := by
  rw [significantBits_eq_append, encode_eq_packWord, and_mask_eq_packWord_iff]
  simp only [and_usedBits_eq_iff]
  exact ⟨fun ⟨hrsv, hlen, hfb, hfa, hopc⟩ => ⟨hrsv, hopc, hfa, hfb, hlen⟩,
    fun ⟨hrsv, hopc, hfa, hfb, hlen⟩ => ⟨hrsv, hlen, hfb, hfa, hopc⟩⟩

/-! ### The decoder (R84, R85) -/

/-- The opcode map answers a command exactly on the words that match its row. -/
theorem decodeOpcode_eq_ok_iff {w : Word} {i : Instr} : decodeOpcode w = .ok i ↔ i.row.Matches w := by
  constructor
  · intro h
    unfold decodeOpcode at h
    split at h <;> cases h <;>
      next hopc => exact ⟨BitVec.eq_of_toNat_eq hopc, by simp [Instr.row], by simp [Instr.row], by simp [Instr.row]⟩
  · rintro ⟨hopc, hfa, hfb, hlen⟩
    rw [decodeOpcode, hopc]
    cases i <;> simp_all [Instr.row]

/-- The opcode map rejects a word exactly for an opcode of R85's list. -/
theorem decodeOpcode_eq_error_iff {w : Word} {r : IllegalWord} :
    decodeOpcode w = .error r ↔ r = .unassignedOpcode ∧ Machine.unassignedOpcodes (opcField w).toNat := by
  unfold decodeOpcode Machine.unassignedOpcodes
  split
  -- The arm of no assigned opcode: what the eighteen arms before it leave over is R85's list.
  case h_19 =>
    simp only [imp_false] at *
    simp only [Except.error.injEq, eq_comm (a := r), iff_self_and]
    omega
  all_goals next hopc => simp [hopc]

theorem decode_of_rsv_zero {w : Word} (h : rsvField w = 0) : decode w = decodeOpcode w := if_pos h

theorem decode_of_rsv_ne_zero {w : Word} (h : rsvField w ≠ 0) : decode w = .error .reservedBits := if_neg h

theorem decode_eq_reservedBits_iff {w : Word} : decode w = .error .reservedBits ↔ rsvField w ≠ 0 := by
  by_cases hrsv : rsvField w = 0
  · simp [decode_of_rsv_zero hrsv, decodeOpcode_eq_error_iff, hrsv]
  · exact iff_of_true (decode_of_rsv_ne_zero hrsv) hrsv

theorem decode_eq_unassignedOpcode_iff {w : Word} :
    decode w = .error .unassignedOpcode ↔ rsvField w = 0 ∧ Machine.unassignedOpcodes (opcField w).toNat := by
  by_cases hrsv : rsvField w = 0
  · simp [decode_of_rsv_zero hrsv, decodeOpcode_eq_error_iff, hrsv]
  · exact iff_of_false (by simp [decode_of_rsv_ne_zero hrsv]) fun h => hrsv h.1

/-- A word decodes to a command exactly when it agrees with the command's encoding on the command's significant bits. -/
theorem decode_eq_ok_iff {w : Word} {i : Instr} : decode w = .ok i ↔ w &&& significantBits i = encode i := by
  rw [and_significantBits_eq_encode_iff]
  by_cases hrsv : rsvField w = 0
  · simp [decode_of_rsv_zero hrsv, decodeOpcode_eq_ok_iff, hrsv]
  · exact iff_of_false (by simp [decode_of_rsv_ne_zero hrsv]) fun h => hrsv h.1

/-- An encoding has its reserved bits 0 and matches its command's row (R87). -/
theorem row_matches_encode (i : Instr) : rsvField (encode i) = 0 ∧ i.row.Matches (encode i) := by
  rw [encode_eq_packWord]
  obtain ⟨hrsv, hopc, hfa, hfb, hlen⟩ :=
    Laws.packWord_fields i.row.opc (i.row.fa.getD 0) (i.row.fb.getD 0) (i.row.len.getD 0)
  have hused {n : Nat} (o : Option (BitVec n)) : ∀ v ∈ o, o.getD 0 = v := by
    rintro v rfl
    rfl
  exact ⟨hrsv, hopc, fun v hv => hfa.trans (hused _ v hv), fun v hv => hfb.trans (hused _ v hv),
    fun v hv => hlen.trans (hused _ v hv)⟩

/-- Settles O1: an encoding matches its command's row. -/
theorem decodeOfEncode : Obligations.DecodeOfEncode := by
  unfold Obligations.DecodeOfEncode
  exact fun i => decode_eq_ok_iff.2 (and_significantBits_eq_encode_iff.2 (row_matches_encode i))

/-- Settles O2: both parts are `decode_eq_ok_iff`. -/
theorem decodeDependsOnSignificantBits : Obligations.DecodeDependsOnSignificantBits := by
  unfold Obligations.DecodeDependsOnSignificantBits
  intro w i hdecode
  have hagree : w &&& significantBits i = encode i := decode_eq_ok_iff.1 hdecode
  exact ⟨hagree.symm, fun w' hw' => decode_eq_ok_iff.2 (hw'.trans hagree)⟩

/-- Settles O3: R84's two tests, one after the other. -/
theorem illegalWordsAreReservedOrUnassigned : Obligations.IllegalWordsAreReservedOrUnassigned := by
  unfold Obligations.IllegalWordsAreReservedOrUnassigned
  refine fun w => ⟨decode_eq_reservedBits_iff.2, fun hrsv => ⟨?_, fun h => decode_eq_reservedBits_iff.1 h hrsv⟩⟩
  exact decode_eq_unassignedOpcode_iff.trans (and_iff_right hrsv)

/-- Settles O4: each word agrees with its command's encoding where the command's row gives the bits a meaning. -/
theorem spelledOutWordsDecode : Obligations.SpelledOutWordsDecode := by
  unfold Obligations.SpelledOutWordsDecode
  simp only [decode_eq_ok_iff, decode_eq_reservedBits_iff]
  decide

end Sys2Proof

namespace Sys2Proof.Machine

/-! ### An illegal word (R84, R85, R302) -/

/-- Settles O6: a word of either kind decodes to no command. -/
theorem illegalCommandCompletesWithCodeNine : Obligations.IllegalCommandCompletesWithCodeNine := by
  unfold Obligations.IllegalCommandCompletesWithCodeNine
  intro s w hturn hillegal
  rw [step_of_aboutToExecute hturn]
  refine runCommand_of_illegal (fun i hdecode => ?_) s
  obtain ⟨hrsv, hmatches⟩ := and_significantBits_eq_encode_iff.1 (decode_eq_ok_iff.1 hdecode)
  rcases hillegal with hreserved | hunassigned
  · exact hreserved hrsv
  · have hrejected : decode w = .error .unassignedOpcode := decode_eq_unassignedOpcode_iff.2 ⟨hrsv, hunassigned⟩
    simp [hdecode] at hrejected

/-! ### An illegal field value (R83, R210, R303) -/

theorem nsymOf_eq_none_of_illegal {lvl : BitVec 4} (h : legalParityLevel lvl = false) : nsymOf lvl = none := by
  cases hlevel : nsymOf lvl with
  | none => rfl
  | some n => rcases nsymOf_cases hlevel with ⟨rfl, -⟩ | ⟨rfl, -⟩ | ⟨rfl, -⟩ <;> cases h

theorem execRsEncode_illegalLevel {lvl : BitVec 4} (h : legalParityLevel lvl = false) (len : Byte) (s : State) :
    execRsEncode lvl len s = raise .invalidInput s := by
  rw [execRsEncode, nsymOf_eq_none_of_illegal h]

theorem execRsDecode_illegalLevel {lvl : BitVec 4} (h : legalParityLevel lvl = false) (len : Byte) (s : State) :
    execRsDecode lvl len s = raise .invalidInput s := by
  rw [execRsDecode, nsymOf_eq_none_of_illegal h]

theorem frameBody_error {p : Params} {comp : BitVec 4} {m : List Byte} {e : ErrCode}
    (h : frameBody p comp m = .error e) : e = .invalidInput := by
  unfold frameBody at h
  split at h
  · cases h
  · split at h
    · cases h; rfl
    · split at h <;> cases h
      rfl
  · cases h; rfl

theorem frameBody_illegalType {comp : BitVec 4} (h : 1 < comp.toNat) (p : Params) (m : List Byte) :
    frameBody p comp m = .error .invalidInput := by
  unfold frameBody
  split
  · omega
  · omega
  · rfl

theorem framePayload_illegalLevel {fec : BitVec 4} (h : 3 < fec.toNat) (p : Params) (body : List Byte) :
    framePayload p fec body = .error .invalidInput := by
  have hne : fec ≠ 0 := by
    rintro rfl
    cases h
  have hlegal : legalParityLevel fec = false := by
    simp [legalParityLevel, h]
  rw [framePayload, if_neg hne, nsymOf_eq_none_of_illegal hlegal]

theorem frameBuild_illegalField {comp fec : BitVec 4} (h : 1 < comp.toNat ∨ 3 < fec.toNat) (p : Params)
    (m : List Byte) : frameBuild p comp fec m = .error .invalidInput := by
  cases hbody : frameBody p comp m with
  | error e => rw [frameBuild, hbody, frameBody_error hbody]
  | ok r =>
    have hfec : 3 < fec.toNat := h.resolve_left fun hcomp => by simp [frameBody_illegalType hcomp] at hbody
    rw [frameBuild, hbody]
    simp only [framePayload_illegalLevel hfec]

theorem execFrameCreate_illegalField {comp fec : BitVec 4} (h : 1 < comp.toNat ∨ 3 < fec.toNat) (len : Byte)
    (s : State) : execFrameCreate comp fec len s = raise .invalidInput s := by
  rw [execFrameCreate, frameBuild_illegalField h]

theorem execQEnqueue_full (prio : BitVec 4) (len : Byte) {s : State} (h : s.queue.length = 64) :
    execQEnqueue prio len s = raise .queueFull s.countQfull := if_pos h

theorem execQEnqueue_illegalPriority {prio : BitVec 4} (h : 3 < prio.toNat) (len : Byte) {s : State}
    (hroom : s.queue.length ≠ 64) : execQEnqueue prio len s = raise .invalidInput s :=
  (if_neg hroom).trans (if_pos h)

theorem execQResult_illegalResult {result : BitVec 4} (h : 1 < result.toNat) (s : State) :
    execQResult result s = raise .invalidInput s := if_pos h

/-- A command with an illegal field value raises InvalidInput, unless it is a Q_ENQUEUE that finds the queue full. -/
theorem exec_of_illformed {i : Instr} {s : State} (h : i.wellFormed = false)
    (hroom : ¬ ((∃ p n, i = .qEnqueue p n) ∧ s.queue.length = 64)) : exec i s = raise .invalidInput s := by
  cases i with
  | rsEncode lvl len => exact execRsEncode_illegalLevel h len s
  | rsDecode lvl len => exact execRsDecode_illegalLevel h len s
  | frameCreate comp fec len =>
    refine execFrameCreate_illegalField ?_ len s
    simp [Instr.wellFormed] at h
    omega
  | qEnqueue prio len =>
    exact execQEnqueue_illegalPriority (by simpa [Instr.wellFormed] using h) len fun hfull =>
      hroom ⟨⟨prio, len, rfl⟩, hfull⟩
  | qResult result => exact execQResult_illegalResult (by simpa [Instr.wellFormed] using h) s
  | _ => cases h

/-- Settles O17: Q_ENQUEUE's capacity check comes first; every other illegal value raises InvalidInput. -/
theorem illegalFieldValueRaisesInvalidInput : Obligations.IllegalFieldValueRaisesInvalidInput := by
  unfold Obligations.IllegalFieldValueRaisesInvalidInput
  intro i s hillegal
  by_cases hfull : (∃ p n, i = .qEnqueue p n) ∧ s.queue.length = 64
  · obtain ⟨⟨prio, len, rfl⟩, hlength⟩ := hfull
    exact .inl ⟨⟨prio, len, rfl⟩, hlength, execQEnqueue_full prio len hlength⟩
  · exact .inr ⟨hfull, exec_of_illformed hillegal hfull⟩

end Sys2Proof.Machine

/-! # Proofs of the statements on the compressor (spec/41_compressor.md): the matches of the dictionary encoding, the
runs of the run-length encoding, what decoding gives back, and the commands COMPRESS and DECOMPRESS. -/

namespace Sys2Proof.Machine

/-! ### Case folding and candidates (R101, R102) -/

theorem foldByte_of_upper {b : Byte} (hlo : 0x41 ≤ b.toNat) (hhi : b.toNat ≤ 0x5A) :
    (foldByte b).toNat = b.toNat + 0x20 := by
  rw [foldByte, if_pos ⟨hlo, hhi⟩, BitVec.toNat_add]
  exact Nat.mod_eq_of_lt (show b.toNat + 0x20 < 2 ^ 8 by omega)

theorem foldByte_of_not_upper {b : Byte} (h : b.toNat < 0x41 ∨ 0x5A < b.toNat) : foldByte b = b :=
  if_neg fun ⟨hlo, hhi⟩ => by omega

/-- Matching at the front of an input, position by position. -/
theorem matchesFront_iff {w s : List Byte} :
    matchesFront w s = true ↔
      w.length ≤ s.length ∧ ∀ k < w.length, foldByte (s.getD k 0) = foldByte (w.getD k 0) := by
  induction w generalizing s with
  | nil => simp [matchesFront]
  | cons c w ih =>
    cases s with
    | nil => simp [matchesFront]
    | cons b s =>
      simp only [matchesFront, Bool.and_eq_true, beq_iff_eq, ih, List.length_cons, Nat.add_le_add_iff_right,
        Nat.forall_lt_succ_left, List.getD_cons_zero, List.getD_cons_succ, eq_comm (a := foldByte c)]
      exact and_left_comm

/-- The bytes a word matches fold to the folded word. -/
theorem map_foldByte_of_matchesFront {w s : List Byte} (h : matchesFront w s = true) :
    w.map foldByte ++ (s.drop w.length).map foldByte = s.map foldByte := by
  induction w generalizing s with
  | nil => rfl
  | cons c w ih =>
    cases s with
    | nil => simp [matchesFront] at h
    | cons b s =>
      simp only [matchesFront, Bool.and_eq_true, beq_iff_eq] at h
      obtain ⟨hfold, hrest⟩ := h
      exact congrArg₂ List.cons hfold (ih hrest)

/-- Matching at the front of the rest of an input (R102 step 1). -/
theorem matchesFront_drop_iff {w s : List Byte} {i : Nat} (hi : i ≤ s.length) :
    matchesFront w (s.drop i) = true ↔
      i + w.length ≤ s.length ∧ ∀ k < w.length, foldByte (s.getD (i + k) 0) = foldByte (w.getD k 0) := by
  simp only [matchesFront_iff, List.length_drop, List.getD_eq_getElem?_getD, List.getElem?_drop]
  rw [Nat.le_sub_iff_add_le' hi]

theorem isCandidate_iff {d : Dict} {s : List Byte} {i : Nat} (hi : i ≤ s.length) {j : Nat} {e : DictEntry} :
    isCandidate d s i j e ↔ d[j]? = some e ∧ matchesFront e.word (s.drop i) = true := by
  rw [isCandidate, matchesFront_drop_iff hi]

/-- The candidates of a dictionary with one entry more. -/
theorem isCandidate_concat_iff {d : Dict} {x e : DictEntry} {s : List Byte} {i j : Nat} (hi : i ≤ s.length) :
    isCandidate (d ++ [x]) s i j e ↔
      isCandidate d s i j e ∨ j = d.length ∧ e = x ∧ matchesFront x.word (s.drop i) = true := by
  rw [isCandidate_iff hi, isCandidate_iff hi]
  rcases Nat.lt_trichotomy j d.length with hlt | rfl | hgt
  · simp [List.getElem?_append_left hlt, hlt.ne]
  · rw [List.getElem?_concat_length, List.getElem?_eq_none le_rfl]
    aesop
  · have hbeyond : (d ++ [x]).length ≤ j := by simpa using hgt
    simp [List.getElem?_eq_none hbeyond, List.getElem?_eq_none hgt.le, hgt.ne']

/-! ### The match is the longest candidate (R102) -/

/-- `findMatch` compares the entries in the dictionary's order. -/
theorem findMatch_concat (d : Dict) (x : DictEntry) (t : List Byte) :
    findMatch (d ++ [x]) t =
      if matchesFront x.word t = true then betterMatch (findMatch d t) x else findMatch d t := by
  unfold findMatch
  split <;> simp [List.filter_append, *]

theorem betterMatch_ne_none (best : Option DictEntry) (e : DictEntry) : betterMatch best e ≠ none := by
  unfold betterMatch
  split
  · simp
  · split <;> simp

theorem findMatch_eq_none_iff {d : Dict} {t : List Byte} :
    findMatch d t = none ↔ ∀ e ∈ d, matchesFront e.word t = false := by
  induction d using List.reverseRecOn with
  | nil => simp [findMatch]
  | append_singleton d x ih =>
    rw [findMatch_concat, List.forall_mem_append, ← ih]
    split <;> simp_all [betterMatch_ne_none]

section Concat
variable {d : Dict} {x e : DictEntry} {s : List Byte} {i j : Nat}

/-- A match stays the match when the entry added is no longer or matches nothing. -/
theorem isMatch.concat (h : isMatch d s i j e) (hi : i ≤ s.length)
    (hx : matchesFront x.word (s.drop i) = true → x.word.length ≤ e.word.length) : isMatch (d ++ [x]) s i j e := by
  obtain ⟨hcand, hlongest, hfirst⟩ := h
  have hj : j < d.length := (List.getElem?_eq_some_iff.1 hcand.1).1
  refine ⟨(isCandidate_concat_iff hi).2 (.inl hcand), fun k f hf => ?_, fun k f hf hlength => ?_⟩
  · rcases (isCandidate_concat_iff hi).1 hf with hf | ⟨-, rfl, hmatches⟩
    · exact hlongest k f hf
    · exact hx hmatches
  · rcases (isCandidate_concat_iff hi).1 hf with hf | ⟨rfl, -, -⟩
    · exact hfirst k f hf hlength
    · exact hj.le

/-- An entry added that is longer than every candidate is the match. -/
theorem isMatch_concat_self (hi : i ≤ s.length) (hmatches : matchesFront x.word (s.drop i) = true)
    (hlonger : ∀ k f, isCandidate d s i k f → f.word.length < x.word.length) : isMatch (d ++ [x]) s i d.length x := by
  refine ⟨(isCandidate_concat_iff hi).2 (.inr ⟨rfl, rfl, hmatches⟩), fun k f hf => ?_, fun k f hf hlength => ?_⟩
  · rcases (isCandidate_concat_iff hi).1 hf with hf | ⟨-, rfl, -⟩
    · exact (hlonger k f hf).le
    · exact le_rfl
  · rcases (isCandidate_concat_iff hi).1 hf with hf | ⟨rfl, -, -⟩
    · exact absurd hlength (hlonger k f hf).ne
    · exact le_rfl

end Concat

/-- No match means no candidate (R102 step 2). -/
theorem findMatch_eq_none_iff_no_candidate {d : Dict} {s : List Byte} {i : Nat} (hi : i ≤ s.length) :
    findMatch d (s.drop i) = none ↔ ∀ j e, ¬ isCandidate d s i j e := by
  simp only [findMatch_eq_none_iff, isCandidate_iff hi, not_and, Bool.not_eq_true, List.mem_iff_getElem?,
    forall_exists_index]
  exact forall_comm

theorem isMatch_of_findMatch {d : Dict} {s : List Byte} {i : Nat} (hi : i ≤ s.length) {e : DictEntry}
    (h : findMatch d (s.drop i) = some e) : ∃ j, isMatch d s i j e := by
  induction d using List.reverseRecOn generalizing e with
  | nil => simp [findMatch] at h
  | append_singleton d x ih =>
    rw [findMatch_concat] at h
    split at h
    case isFalse hx =>
      obtain ⟨j, hmatch⟩ := ih h
      exact ⟨j, hmatch.concat hi fun hmatches => absurd hmatches hx⟩
    case isTrue hx =>
      cases hbest : findMatch d (s.drop i) with
      | none =>
        rw [hbest] at h
        cases h
        have hnone := (findMatch_eq_none_iff_no_candidate hi).1 hbest
        exact ⟨_, isMatch_concat_self hi hx fun k f hf => absurd hf (hnone k f)⟩
      | some b =>
        obtain ⟨j, hmatch⟩ := ih hbest
        rw [hbest, betterMatch] at h
        have ⟨_, hlongest, _⟩ := hmatch
        split at h
        case isTrue hlonger =>
          cases h
          exact ⟨_, isMatch_concat_self hi hx fun k f hf => (hlongest k f hf).trans_lt hlonger⟩
        case isFalse hnotLonger =>
          cases h
          exact ⟨j, hmatch.concat hi fun _ => not_lt.1 hnotLonger⟩

/-- R102's match is one entry. -/
theorem isMatch_unique {d : Dict} {s : List Byte} {i j k : Nat} {e f : DictEntry} (he : isMatch d s i j e)
    (hf : isMatch d s i k f) : e = f := by
  obtain ⟨hcandE, hlongestE, hfirstE⟩ := he
  obtain ⟨hcandF, hlongestF, hfirstF⟩ := hf
  have hlength : e.word.length = f.word.length := le_antisymm (hlongestF j e hcandE) (hlongestE k f hcandF)
  obtain rfl : j = k := le_antisymm (hfirstE k f hcandF hlength.symm) (hfirstF j e hcandE hlength)
  exact Option.some.inj (hcandE.1.symm.trans hcandF.1)

theorem findMatch_eq_some_iff {d : Dict} {s : List Byte} {i : Nat} (hi : i ≤ s.length) {e : DictEntry} :
    findMatch d (s.drop i) = some e ↔ ∃ j, isMatch d s i j e := by
  refine ⟨isMatch_of_findMatch hi, fun ⟨j, hmatch⟩ => ?_⟩
  cases hfound : findMatch d (s.drop i) with
  | none => exact absurd hmatch.1 ((findMatch_eq_none_iff_no_candidate hi).1 hfound j e)
  | some f =>
    obtain ⟨k, hmatch'⟩ := isMatch_of_findMatch hi hfound
    rw [isMatch_unique hmatch hmatch']

theorem findMatch_mem {d : Dict} {t : List Byte} {e : DictEntry} (h : findMatch d t = some e) :
    e ∈ d ∧ matchesFront e.word t = true := by
  obtain ⟨j, hcand, -⟩ := isMatch_of_findMatch (s := t) (Nat.zero_le _) h
  obtain ⟨hentry, hmatches⟩ := (isCandidate_iff (Nat.zero_le _)).1 hcand
  exact ⟨List.mem_of_getElem? hentry, hmatches⟩

/-! ### The scan of the dictionary encoding (R103) -/

/-- Bytes of the last match are passed over. -/
theorem dictEncScan_eq_drop (d : Dict) (k : Nat) (s : List Byte) : dictEncScan d k s = dictEncScan d 0 (s.drop k) := by
  induction k generalizing s with
  | zero => rfl
  | succ k ih =>
    cases s with
    | nil => rfl
    | cons b bs => exact ih bs

theorem dictEnc_tail (d : Dict) (s : List Byte) : (dictEnc d s).tail = dictEncScan d 0 s := rfl

theorem dictEncScan_cons_of_match {d : Dict} {b : Byte} {bs : List Byte} {e : DictEntry}
    (h : findMatch d (b :: bs) = some e) :
    dictEncScan d 0 (b :: bs) = 0xFF :: e.code :: dictEncScan d (e.word.length - 1) bs := by
  simp only [dictEncScan, h]
  rfl

/-- The scan goes on right after the matched word. -/
theorem dictEncScan_of_match {d : Dict} {b : Byte} {bs : List Byte} {e : DictEntry}
    (h : findMatch d (b :: bs) = some e) (hword : e.word ≠ []) :
    dictEncScan d 0 (b :: bs) = 0xFF :: e.code :: dictEncScan d 0 ((b :: bs).drop e.word.length) := by
  have hpos : 0 < e.word.length := List.length_pos_iff.2 hword
  rw [dictEncScan_cons_of_match h, dictEncScan_eq_drop, List.drop_cons hpos]

theorem dictEncScan_of_no_match {d : Dict} {b : Byte} {bs : List Byte} (h : findMatch d (b :: bs) = none) :
    dictEncScan d 0 (b :: bs) = (if b = 0xFF then [0xFF, 0xFF] else [b]) ++ dictEncScan d 0 bs := by
  simp only [dictEncScan, h]
  rw [apply_ite (· ++ dictEncScan d 0 bs)]
  rfl

/-- Settles O60: `findMatch` compares the candidates in the dictionary's order, and the scan takes what it answers. -/
theorem dictionaryEncodingTakesLongestMatch : Obligations.DictionaryEncodingTakesLongestMatch := by
  unfold Obligations.DictionaryEncodingTakesLongestMatch
  refine ⟨fun b => ⟨foldByte_of_upper, foldByte_of_not_upper⟩, fun d => ⟨rfl, fun s => rfl⟩, fun d s i b hb => ?_⟩
  obtain ⟨hlt, hbyte⟩ := List.getElem?_eq_some_iff.1 hb
  have hrest : s.drop i = b :: s.drop (i + 1) := by rw [List.drop_eq_getElem_cons hlt, hbyte]
  have hnone := findMatch_eq_none_iff_no_candidate (d := d) hlt.le
  have hsome := fun e => findMatch_eq_some_iff (d := d) (e := e) hlt.le
  refine ⟨hnone, hsome, fun j e hmatch hword => ?_, fun hno => ?_⟩
  · have hfound : findMatch d (b :: s.drop (i + 1)) = some e := hrest ▸ (hsome e).2 ⟨j, hmatch⟩
    rw [dictEnc_tail, dictEnc_tail, hrest, dictEncScan_of_match hfound hword, ← hrest, List.drop_drop]
  · rw [dictEnc_tail, dictEnc_tail, hrest, dictEncScan_of_no_match (hrest ▸ hnone.2 hno)]

/-! ### The runs of the run-length encoding (R104, R123) -/

/-- A run ends at another byte, at the end of the input, or at 255 bytes. -/
theorem rleScan_of_run_end {b : Byte} {r : Nat} {s : List Byte} (h : s.head? ≠ some b ∨ 255 ≤ r) :
    rleScan b r s = rleRun b r ++ rleBody s := by
  cases s with
  | nil => simp [rleScan, rleBody]
  | cons c cs =>
    have hend : ¬ (c = b ∧ r < 255) := fun ⟨hsame, hroom⟩ =>
      h.elim (fun hother => hother (congrArg some hsame)) hroom.not_ge
    rw [rleScan, if_neg hend]
    rfl

/-- A run goes on through equal bytes up to 255. -/
theorem rleScan_replicate {b : Byte} {r n : Nat} (h : r + n ≤ 255) (s : List Byte) :
    rleScan b r (List.replicate n b ++ s) = rleScan b (r + n) s := by
  induction n generalizing r with
  | zero => rfl
  | succ n ih =>
    rw [List.replicate_succ, List.cons_append, rleScan, if_pos ⟨rfl, by omega⟩, ih (by omega), Nat.add_right_comm]
    rfl

theorem rleBody_replicate {b : Byte} {r : Nat} {s : List Byte} (hr : 1 ≤ r) (hr' : r ≤ 255)
    (h : s.head? ≠ some b ∨ 255 ≤ r) : rleBody (List.replicate r b ++ s) = rleRun b r ++ rleBody s := by
  obtain ⟨n, rfl⟩ := Nat.exists_eq_add_of_le hr
  calc rleBody (List.replicate (1 + n) b ++ s)
      = rleScan b 1 (List.replicate n b ++ s) := by rw [Nat.add_comm, List.replicate_succ]; rfl
    _ = rleScan b (1 + n) s := rleScan_replicate hr' s
    _ = rleRun b (1 + n) ++ rleBody s := rleScan_of_run_end h

/-- No run crosses a boundary between two different bytes. -/
theorem rleScan_append {c : Byte} {r : Nat} {pre s : List Byte} (h : (c :: pre).getLast? ≠ s.head?) :
    rleScan c r (pre ++ s) = rleScan c r pre ++ rleBody s := by
  induction pre generalizing c r with
  | nil => exact rleScan_of_run_end (.inl (Ne.symm h))
  | cons a pre ih =>
    have hlast : (a :: pre).getLast? ≠ s.head? := by rwa [List.getLast?_cons_cons] at h
    rw [List.cons_append, rleScan, rleScan]
    split
    case isTrue heq => exact ih (heq.1 ▸ hlast)
    case isFalse => rw [ih hlast, List.append_assoc]

theorem rleBody_append {pre s : List Byte} (h : pre.getLast? ≠ s.head?) :
    rleBody (pre ++ s) = rleBody pre ++ rleBody s := by
  cases pre with
  | nil => rfl
  | cons c pre => exact rleScan_append h

theorem rleRun_token {b : Byte} {r : Nat} (h : 3 ≤ r ∨ b = 0xFE) : rleRun b r = [0xFE, BitVec.ofNat 8 r, b] := if_pos h

theorem rleRun_literal {b : Byte} {r : Nat} (hr : r ≤ 2) (hb : b ≠ 0xFE) : rleRun b r = List.replicate r b :=
  if_neg fun h => h.elim (by omega) hb

/-! ### Run-length decoding (R107) -/

theorem rleDec_literal {b : Byte} (hb : b ≠ 0xFE) (c : List Byte) : rleDec (b :: c) = (rleDec c).map ([b] ++ ·) := by
  rw [rleDec.eq_def]
  exact if_neg hb

theorem rleDec_token {n : Byte} (hn : n ≠ 0) (v : Byte) (c : List Byte) :
    rleDec (0xFE :: n :: v :: c) = (rleDec c).map (List.replicate n.toNat v ++ ·) := by
  rw [rleDec.eq_def]
  exact if_neg hn

theorem rleDec_emptyRun (v : Byte) (c : List Byte) : rleDec (0xFE :: 0 :: v :: c) = none := by
  rw [rleDec.eq_def]
  rfl

theorem rleDec_replicate {b : Byte} (hb : b ≠ 0xFE) (r : Nat) (c : List Byte) :
    rleDec (List.replicate r b ++ c) = (rleDec c).map (List.replicate r b ++ ·) := by
  induction r with
  | zero => simp
  | succ r ih =>
    rw [List.replicate_succ, List.cons_append, rleDec_literal hb, ih, Option.map_map]
    rfl

/-- Decoding gives a run back. -/
theorem rleDec_rleRun {b : Byte} {r : Nat} (hr : 1 ≤ r) (hr' : r ≤ 255) (c : List Byte) :
    rleDec (rleRun b r ++ c) = (rleDec c).map (List.replicate r b ++ ·) := by
  by_cases h : 3 ≤ r ∨ b = 0xFE
  · have hcount : (BitVec.ofNat 8 r).toNat = r :=
      (BitVec.toNat_ofNat r 8).trans (Nat.mod_eq_of_lt (show r < 2 ^ 8 by omega))
    have hne : BitVec.ofNat 8 r ≠ 0 := fun hzero => by
      have hempty : r = 0 := by rw [← hcount, hzero]; rfl
      omega
    rw [rleRun_token h]
    exact (rleDec_token hne b c).trans (by rw [hcount])
  · obtain ⟨hshort, hb⟩ := not_or.1 h
    rw [rleRun_literal (by omega) hb, rleDec_replicate hb]

theorem rleDec_rleScan {b : Byte} {r : Nat} (hr : 1 ≤ r) (hr' : r ≤ 255) (s : List Byte) :
    rleDec (rleScan b r s) = some (List.replicate r b ++ s) := by
  induction s generalizing b r with
  | nil => simpa [rleScan, rleDec] using rleDec_rleRun (b := b) hr hr' []
  | cons c cs ih =>
    rw [rleScan]
    split
    case isTrue hgoes =>
      obtain ⟨rfl, hlt⟩ := hgoes
      rw [ih (by omega) (by omega), List.replicate_succ', List.append_assoc]
      rfl
    case isFalse =>
      rw [rleDec_rleRun hr hr', ih le_rfl (by decide)]
      rfl

/-- Run-length decoding inverts run-length encoding (R123). -/
theorem rleDec_rleBody (s : List Byte) : rleDec (rleBody s) = some s := by
  cases s with
  | nil => rfl
  | cons b bs => exact rleDec_rleScan le_rfl (by decide) bs

/-- Settles O33: no run crosses the ends of a maximal run, and a run is one step of the scan. -/
theorem runLengthLaws : Obligations.RunLengthLaws := by
  unfold Obligations.RunLengthLaws
  have htail : ∀ s, (rleEnc s).tail = rleBody s := fun _ => rfl
  simp only [htail]
  refine ⟨fun pre post b r hpre hpost => ?_, ⟨rfl, fun s => rfl⟩, rleDec_rleBody⟩
  have hsplit : 1 ≤ r →
      rleBody (pre ++ List.replicate r b ++ post) = rleBody pre ++ rleBody (List.replicate r b ++ post) := by
    intro hr
    obtain ⟨n, rfl⟩ := Nat.exists_eq_add_of_le' hr
    rw [List.append_assoc, rleBody_append hpre]
  have hrun : 1 ≤ r → r ≤ 255 →
      rleBody (pre ++ List.replicate r b ++ post) = rleBody pre ++ rleRun b r ++ rleBody post := by
    intro hr hr'
    rw [hsplit hr, rleBody_replicate hr hr' (.inl hpost), List.append_assoc]
  refine ⟨fun hlo hhi => ?_, fun hlo hhi hb => ?_, fun hlo hhi hb => ?_, fun hlong => ?_⟩
  · rw [hrun (by omega) hhi, rleRun_token (.inl hlo)]
  · rw [hrun hlo (by omega), rleRun_literal hhi hb]
  · subst hb
    rw [hrun hlo (by omega), rleRun_token (.inr rfl)]
  · have hcut : List.replicate r b = List.replicate 255 b ++ List.replicate (r - 255) b := by
      rw [List.replicate_append_replicate, Nat.add_sub_of_le hlong.le]
    rw [hsplit (by omega), hcut, List.append_assoc, rleBody_replicate (by decide) le_rfl (.inr le_rfl),
      rleRun_token (.inl (by decide)), List.append_assoc]
    rfl

/-! ### Dictionary decoding (R106) -/

theorem expandCode_of_ne {k : Byte} (hk : k ≠ 0xFF) (d : Dict) :
    expandCode d k = (d.find? fun e => e.code == k).map DictEntry.word := if_neg hk

/-- With distinct codes, looking a code up gives its entry. -/
theorem find?_code_of_mem {d : Dict} (hd : Dict.codesDistinct d = true) {e : DictEntry} (he : e ∈ d) :
    d.find? (fun f => f.code == e.code) = some e := by
  cases hfound : d.find? (fun f => f.code == e.code) with
  | none => simpa using List.find?_eq_none.1 hfound e he
  | some f =>
    have hcode : f.code = e.code := by simpa using List.find?_some hfound
    rw [List.inj_on_of_nodup_map (of_decide_eq_true hd) (List.mem_of_find?_eq_some hfound) he hcode]

theorem expandCode_known {d : Dict} (hd : Dict.codesDistinct d = true) {e : DictEntry} (he : e ∈ d)
    (hcode : e.code ≠ 0xFF) : expandCode d e.code = some e.word := by
  rw [expandCode_of_ne hcode, find?_code_of_mem hd he]
  rfl

theorem expandCode_unknown {d : Dict} {k : Byte} (hk : k ≠ 0xFF) (hno : ∀ e ∈ d, e.code ≠ k) :
    expandCode d k = none := by
  simpa [expandCode_of_ne hk] using hno

theorem dictDec_literal (d : Dict) {b : Byte} (hb : b ≠ 0xFF) (c : List Byte) :
    dictDec d (b :: c) = (dictDec d c).map ([b] ++ ·) := by
  rw [dictDec.eq_def]
  exact if_neg hb

theorem dictDec_escape_some {d : Dict} {k : Byte} {w : List Byte} (h : expandCode d k = some w) (c : List Byte) :
    dictDec d (0xFF :: k :: c) = (dictDec d c).map (w ++ ·) := by
  rw [dictDec.eq_def]
  simp only [escDict, if_true, h]
  cases dictDec d c <;> rfl

theorem dictDec_escape_none {d : Dict} {k : Byte} (h : expandCode d k = none) (c : List Byte) :
    dictDec d (0xFF :: k :: c) = none := by
  rw [dictDec.eq_def]
  simp only [escDict, if_true, h]

theorem dictDec_escapedLiteral (d : Dict) (c : List Byte) :
    dictDec d (0xFF :: 0xFF :: c) = (dictDec d c).map ([0xFF] ++ ·) := dictDec_escape_some rfl c

/-! ### Choosing and dispatching the form (R105, R108, R109) -/

section Compress
variable {d : Dict} {s : List Byte}

theorem compress_dictionary (h : (dictEnc d s).length < s.length) : compress d s = (.dictionary, dictEnc d s) :=
  if_pos h

theorem compress_runLength (hdict : s.length ≤ (dictEnc d s).length) (h : (rleEnc s).length < s.length) :
    compress d s = (.runLength, rleEnc s) :=
  (if_neg hdict.not_gt).trans (if_pos h)

theorem compress_raw (hdict : s.length ≤ (dictEnc d s).length) (hrle : s.length ≤ (rleEnc s).length) :
    compress d s = (.raw, 0x4D :: 0x58 :: s) :=
  (if_neg hdict.not_gt).trans (if_neg hrle.not_gt)

theorem compress_cases (d : Dict) (s : List Byte) :
    compress d s = (.dictionary, dictEnc d s) ∨ compress d s = (.runLength, rleEnc s) ∨
      compress d s = (.raw, 0x4D :: 0x58 :: s) := by
  rcases Nat.lt_or_ge (dictEnc d s).length s.length with hdict | hdict
  · exact .inl (compress_dictionary hdict)
  · rcases Nat.lt_or_ge (rleEnc s).length s.length with hrle | hrle
    · exact .inr (.inl (compress_runLength hdict hrle))
    · exact .inr (.inr (compress_raw hdict hrle))

end Compress

theorem boundOutput_none (m : Mode) : boundOutput m none = none := rfl

theorem boundOutput_of_some (m : Mode) (out : List Byte) :
    boundOutput m (some out) = if out.length ≤ 2048 then some (m, out) else none := by
  simp only [boundOutput, Config.bufOutSize, ← not_le, ite_not]

theorem decompress_dictionary (d : Dict) (c : List Byte) :
    decompress d (0xD0 :: c) = boundOutput .dictionary (dictDec d c) := rfl

theorem decompress_runLength (d : Dict) (c : List Byte) :
    decompress d (0xE0 :: c) = boundOutput .runLength (rleDec c) := rfl

theorem decompress_raw (d : Dict) (c : List Byte) :
    decompress d (0x4D :: 0x58 :: c) = boundOutput .raw (some c) := rfl

/-- Any other first byte, and 0x4D without 0x58 behind it, is no marker. -/
theorem decompress_unmarked (d : Dict) {b : Byte} {c : List Byte} (hdict : b ≠ 0xD0) (hrle : b ≠ 0xE0)
    (hraw : b = 0x4D → c.head? ≠ some 0x58) : decompress d (b :: c) = none := by
  refine (if_neg hdict).trans ((if_neg hrle).trans ?_)
  cases c with
  | nil => rfl
  | cons b1 body => exact if_neg fun ⟨h0, h1⟩ => hraw h0 (congrArg some h1)

/-! ### The round trip (R121) -/

theorem respellScan_cons_of_match {d : Dict} {b : Byte} {bs : List Byte} {e : DictEntry}
    (h : findMatch d (b :: bs) = some e) :
    respellScan d 0 (b :: bs) = e.word ++ respellScan d (e.word.length - 1) bs := by
  simp only [respellScan, h]

theorem respellScan_cons_of_no_match {d : Dict} {b : Byte} {bs : List Byte} (h : findMatch d (b :: bs) = none) :
    respellScan d 0 (b :: bs) = b :: respellScan d 0 bs := by
  simp only [respellScan, h]

/-- Decoding the dictionary encoding spells every match as the dictionary does; it needs R100 (b) and (c). -/
theorem dictDec_dictEncScan {d : Dict} (hdistinct : Dict.codesDistinct d = true) (hcodes : ∀ e ∈ d, e.code ≠ 0xFF)
    (k : Nat) (s : List Byte) : dictDec d (dictEncScan d k s) = some (respellScan d k s) := by
  induction s generalizing k with
  | nil => cases k <;> rfl
  | cons b bs ih =>
    cases k with
    | succ k => exact ih k
    | zero =>
      cases hmatch : findMatch d (b :: bs) with
      | some e =>
        have he : e ∈ d := (findMatch_mem hmatch).1
        rw [dictEncScan_cons_of_match hmatch, respellScan_cons_of_match hmatch,
          dictDec_escape_some (expandCode_known hdistinct he (hcodes e he)), ih]
        rfl
      | none =>
        rw [dictEncScan_of_no_match hmatch, respellScan_cons_of_no_match hmatch]
        split
        case isTrue hb =>
          rw [List.cons_append, List.cons_append, List.nil_append, dictDec_escapedLiteral, ih, hb]
          rfl
        case isFalse hb =>
          rw [List.singleton_append, dictDec_literal d hb, ih]
          rfl

/-- The stored spelling differs from the input in letter case alone; it needs words that are not empty (R100 (d)). -/
theorem map_foldByte_respellScan {d : Dict} (hwords : ∀ e ∈ d, e.word ≠ []) (k : Nat) (s : List Byte) :
    (respellScan d k s).map foldByte = (s.drop k).map foldByte := by
  induction s generalizing k with
  | nil => cases k <;> rfl
  | cons b bs ih =>
    cases k with
    | succ k => exact ih k
    | zero =>
      cases hmatch : findMatch d (b :: bs) with
      | some e =>
        obtain ⟨he, hfront⟩ := findMatch_mem hmatch
        have hpos : 0 < e.word.length := List.length_pos_iff.2 (hwords e he)
        have hfold := map_foldByte_of_matchesFront hfront
        rw [List.drop_cons hpos] at hfold
        rw [respellScan_cons_of_match hmatch, List.map_append, ih]
        exact hfold
      | none =>
        rw [respellScan_cons_of_no_match hmatch, List.map_cons, ih]
        rfl

/-- R100's (b), (c) and (d), entry by entry. -/
theorem Dict.wellFormed_entries {d : Dict} (h : Dict.wellFormed d = true) :
    Dict.codesDistinct d = true ∧ (∀ e ∈ d, e.code ≠ 0xFF) ∧ ∀ e ∈ d, e.word ≠ [] := by
  simp only [Dict.wellFormed, Bool.and_eq_true, Dict.codesNotEscape, Dict.wordLengthsOk, List.all_eq_true] at h
  obtain ⟨⟨⟨⟨-, hcodes⟩, hdistinct⟩, hwords⟩, -⟩ := h
  refine ⟨hdistinct, fun e he => by simpa using hcodes e he, fun e he => List.length_pos_iff.1 ?_⟩
  obtain ⟨hpos, -⟩ := hwords e he
  exact of_decide_eq_true hpos

theorem respelled_of_dictionary {d : Dict} {s : List Byte} (h : (compress d s).1 = .dictionary) :
    respelled d s = respellScan d 0 s := if_pos h

theorem respelled_of_ne_dictionary {d : Dict} {s : List Byte} (h : (compress d s).1 ≠ .dictionary) :
    respelled d s = s := if_neg h

theorem map_foldByte_respelled {d : Dict} (hwords : ∀ e ∈ d, e.word ≠ []) (s : List Byte) :
    (respelled d s).map foldByte = s.map foldByte := by
  by_cases h : (compress d s).1 = .dictionary
  · rw [respelled_of_dictionary h, map_foldByte_respellScan hwords, List.drop_zero]
  · rw [respelled_of_ne_dictionary h]

/-- Each form decodes to what it was made of, within R109's bound (R121). -/
theorem decompress_compress {d : Dict} {s : List Byte} (hd : Dict.wellFormed d = true) (hs : s.length ≤ 2048) :
    decompress d (compress d s).2 = some ((compress d s).1, respelled d s) := by
  obtain ⟨hdistinct, hcodes, hwords⟩ := Dict.wellFormed_entries hd
  have hbound : (respelled d s).length ≤ 2048 := by
    have hlength := congrArg List.length (map_foldByte_respelled hwords s)
    rw [List.length_map, List.length_map] at hlength
    omega
  have hfits (m : Mode) {out : List Byte} (hspelling : respelled d s = out) :
      boundOutput m (some out) = some (m, respelled d s) := by
    subst hspelling
    rw [boundOutput_of_some, if_pos hbound]
  rcases compress_cases d s with hform | hform | hform <;> rw [hform]
  · rw [dictEnc, dictMarker, decompress_dictionary, dictDec_dictEncScan hdistinct hcodes]
    exact hfits .dictionary (respelled_of_dictionary (by rw [hform]))
  · rw [rleEnc, rleMarker, decompress_runLength, rleDec_rleBody]
    exact hfits .runLength (respelled_of_ne_dictionary (by simp [hform]))
  · rw [decompress_raw]
    exact hfits .raw (respelled_of_ne_dictionary (by simp [hform]))

/-- Settles O32: `decompress_compress`, and a match changes letter case alone. -/
theorem compressionRoundTrip : Obligations.CompressionRoundTrip := by
  unfold Obligations.CompressionRoundTrip
  intro d s hd _ hlength
  obtain ⟨-, -, hwords⟩ := Dict.wellFormed_entries hd
  exact ⟨decompress_compress hd (by omega), map_foldByte_respelled hwords s, respelled_of_ne_dictionary⟩

/-! ### COMPRESS and DECOMPRESS (R109, R110, R120) -/

/-- A command that writes bytes to BUF_OUT and a word to RESULT0: its next state, and nothing else changed (R29). -/
theorem finishOk_putOut_setResult0 {bs : List Byte} (r0 : Word) (s : State) (h : bs.length ≤ 2048) :
    ∃ t, finishOk ((s.putOut bs).setResult0 r0) = .next t ∧
      t = { s.succeeded with mem := t.mem, outLen := t.outLen, result0 := r0 } ∧ wroteOut bs s t :=
  ⟨((s.putOut bs).setResult0 r0).complete .none true, rfl, rfl, wroteOut_of h rfl rfl rfl⟩

theorem execCompress_of_ne_zero {len : Byte} (h : len ≠ 0) (s : State) :
    execCompress len s = finishOk ((s.putOut (compress s.params.dict (s.input len)).2).setResult0
      (compress s.params.dict (s.input len)).1.toWord) := if_neg h

theorem execCompress_zero (s : State) : execCompress 0 s = raise .invalidInput s := rfl

/-- Settles O30: `compress_length` keeps the output inside BUF_OUT. -/
theorem compressWritesCompressedInput : Obligations.CompressWritesCompressedInput := by
  unfold Obligations.CompressWritesCompressedInput
  refine ⟨fun d m => ⟨compress_dictionary, compress_runLength, compress_raw⟩, ⟨rfl, rfl, rfl, rfl⟩, fun len s => ?_⟩
  refine ⟨fun hne => ?_, fun hzero => hzero ▸ execCompress_zero s⟩
  have hlength := compress_length s.params.dict (s.input len)
  rw [State.input_length] at hlength
  have hbound : (compress s.params.dict (s.input len)).2.length ≤ 2048 := by omega
  obtain ⟨t, hexec, hframe, hout⟩ :=
    finishOk_putOut_setResult0 (compress s.params.dict (s.input len)).1.toWord s hbound
  have houtLen : t.outLen.toNat ≤ len.toNat + 2 := hout.1.trans_le hlength
  exact ⟨t, (execCompress_of_ne_zero hne s).trans hexec, hframe, hout, houtLen⟩

theorem execDecompress_some {len : Byte} {s : State} {r : Mode × List Byte}
    (h : decompress s.params.dict (s.input len) = some r) :
    execDecompress len s = finishOk ((s.putOut r.2).setResult0 r.1.toWord) := by
  rw [execDecompress, h]

theorem execDecompress_none {len : Byte} {s : State} (h : decompress s.params.dict (s.input len) = none) :
    execDecompress len s = raise .invalidInput s := by
  rw [execDecompress, h]

/-- Settles O31: the equations of `decompress`, `dictDec` and `rleDec`, and `decompress_length` for the bound. -/
theorem decompressWritesDecodedInput : Obligations.DecompressWritesDecodedInput := by
  unfold Obligations.DecompressWritesDecodedInput
  refine ⟨fun d => ⟨rfl, fun c => ?_⟩, fun d => ⟨rfl, rfl, fun c => ?_⟩, ⟨rfl, rfl, fun n => rfl, fun c => ?_⟩,
    fun len s => ⟨fun r hr => ?_, execDecompress_none⟩⟩
  · refine ⟨fun hc => ?_, fun m hm => ?_, fun hc => ?_, fun m hm => ?_, ?_, fun hc => ?_, fun b hdict hrle hraw => ?_⟩
    · rw [decompress_dictionary, hc, boundOutput_none]
    · rw [decompress_dictionary, hm, boundOutput_of_some]
    · rw [decompress_runLength, hc, boundOutput_none]
    · rw [decompress_runLength, hm, boundOutput_of_some]
    · rw [decompress_raw, boundOutput_of_some]
    · exact decompress_unmarked d (by decide) (by decide) fun _ => hc
    · exact decompress_unmarked d hdict hrle fun hb => absurd hb hraw
  · exact ⟨fun b hb => dictDec_literal d hb c, dictDec_escapedLiteral d c,
      fun hd e he hcode => dictDec_escape_some (expandCode_known hd he hcode) c,
      fun k hk hno => dictDec_escape_none (expandCode_unknown hk hno) c⟩
  · exact ⟨fun b hb => rleDec_literal hb c, fun n v hn => rleDec_token hn v c, fun v => rleDec_emptyRun v c⟩
  · have hlength : r.2.length ≤ 2048 := decompress_length hr
    obtain ⟨t, hexec, hframe, hout⟩ := finishOk_putOut_setResult0 r.1.toWord s hlength
    exact ⟨t, (execDecompress_some hr).trans hexec, hframe, hout, hout.1.trans_le hlength⟩

end Sys2Proof.Machine

/-! # Proofs of the statements on the Reed-Solomon unit (spec/42_rs_fec.md): the field's powers and tables, the
generator's roots and the values of codewords at them, detection, and the command RS_DECODE. -/

namespace Sys2Proof.Machine

/-! ### The powers of α (R141) -/

theorem gfExp_zero : gfExp 0 = 1#8 := rfl

/-- Reducing by 0x1D in 8 bits is reducing the 9-bit shift by 0x11D. -/
theorem xtime_setWidth (v : Byte) :
    (xtime v).setWidth 9 = (v.setWidth 9 <<< 1) ^^^ (if v.getLsbD 7 then 0x11D else 0) := by
  revert v; decide +kernel

theorem gfMul_exp_exp (i j : Nat) : gfMul (gfExp i) (gfExp j) = gfExp (i + j) := by
  induction j with
  | zero => exact gfMul_one_right _
  | succ j ih => rw [gfExp, gfMul_xtime_right, ih]; rfl

theorem gfExp_periodic : Function.Periodic gfExp 255 := fun i => by
  have hcycle : gfExp 255 = 1#8 := by decide +kernel
  rw [← gfMul_exp_exp, hcycle, gfMul_one_right]

theorem gfExp_mod (i : Nat) : gfExp (i % 255) = gfExp i := gfExp_periodic.map_mod_nat i

/-- Every power of α has an inverse. -/
theorem gfMul_exp_inverse (i : Nat) : gfMul (gfExp i) (gfExp (254 * i)) = 1#8 := by
  rw [gfMul_exp_exp, show i + 254 * i = i * 255 by omega, ← gfExp_mod, Nat.mul_mod_left, gfExp_zero]

theorem gfExp_ne_zero (i : Nat) : gfExp i ≠ 0#8 := by
  intro hzero
  have hinverse := gfMul_exp_inverse i
  rw [hzero, gfMul_zero_left] at hinverse
  exact absurd hinverse (by decide)

theorem gfMul_exp_left_cancel {i : Nat} {a b : Byte} (h : gfMul (gfExp i) a = gfMul (gfExp i) b) : a = b := by
  have hscaled := congrArg (gfMul (gfExp (254 * i))) h
  rwa [← gfMul_assoc, ← gfMul_assoc, gfMul_comm (gfExp (254 * i)), gfMul_exp_inverse, gfMul_one_left,
    gfMul_one_left] at hscaled

/-- No power of α below the 255th closes the cycle: 0x11D is primitive (R140). -/
theorem gfExp_succ_ne_one : ∀ k < 254, gfExp (k + 1) ≠ 1#8 := by decide +kernel

theorem gfExp_ne_of_lt {i j : Nat} (hij : i < j) (hj : j < 255) : gfExp i ≠ gfExp j := by
  intro h
  obtain ⟨k, rfl⟩ := Nat.exists_eq_add_of_lt hij
  rw [Nat.add_assoc, ← gfMul_exp_exp] at h
  have hone : 1#8 = gfExp (k + 1) := gfMul_exp_left_cancel ((gfMul_one_right _).trans h)
  exact gfExp_succ_ne_one k (by omega) hone.symm

theorem gfExp_injOn : Set.InjOn gfExp (Finset.range 255) := by
  intro i hi j hj h
  rw [Finset.mem_coe, Finset.mem_range] at hi hj
  rcases Nat.lt_trichotomy i j with hlt | heq | hgt
  · exact absurd h (gfExp_ne_of_lt hlt hj)
  · exact heq
  · exact absurd h.symm (gfExp_ne_of_lt hgt hi)

/-- The 255 distinct powers are all of the 255 nonzero bytes. -/
theorem exists_gfExp_eq {a : Byte} (ha : a ≠ 0#8) : ∃ i < 255, gfExp i = a := by
  have hsub : (Finset.range 255).image gfExp ⊆ Finset.univ.erase 0#8 := by
    intro b hb
    obtain ⟨i, -, rfl⟩ := Finset.mem_image.1 hb
    exact Finset.mem_erase.2 ⟨gfExp_ne_zero i, Finset.mem_univ _⟩
  have hcard : (Finset.univ.erase 0#8).card ≤ ((Finset.range 255).image gfExp).card := by
    rw [Finset.card_image_of_injOn gfExp_injOn, Finset.card_range, Finset.card_erase_of_mem (Finset.mem_univ _),
      Finset.card_univ, ← FinEnum.card_eq_fintypeCard, FinEnum.card_bitVec]
    decide
  have hmem : a ∈ (Finset.range 255).image gfExp := by
    rw [Finset.eq_of_subset_of_card_le hsub hcard]
    exact Finset.mem_erase.2 ⟨ha, Finset.mem_univ a⟩
  obtain ⟨i, hi, hia⟩ := Finset.mem_image.1 hmem
  exact ⟨i, Finset.mem_range.1 hi, hia⟩

/-! ### LOG and the table product (R140, R141) -/

theorem gfLog_exp {i : Nat} (hi : i < 255) : gfLog (gfExp i) = i := by
  have hlength : expTable.length = 255 := by simp [expTable]
  have hentry {j : Nat} (hj : j < expTable.length) : expTable[j] = gfExp j := by simp [expTable]
  refine (List.findIdx_eq (hlength.symm ▸ hi)).2 ⟨?_, fun j hj => ?_⟩
  · rw [hentry]
    exact beq_self_eq_true _
  · rw [hentry]
    exact beq_false_of_ne (gfExp_ne_of_lt hj hi)

theorem gfLog_lt_and_exp_log {a : Byte} (ha : a ≠ 0#8) : gfLog a < 255 ∧ gfExp (gfLog a) = a := by
  obtain ⟨i, hi, rfl⟩ := exists_gfExp_eq ha
  rw [gfLog_exp hi]
  exact ⟨hi, rfl⟩

theorem gfMul_eq_exp_log {a b : Byte} (ha : a ≠ 0#8) (hb : b ≠ 0#8) :
    gfMul a b = gfExp ((gfLog a + gfLog b) % 255) := by
  obtain ⟨-, hexpa⟩ := gfLog_lt_and_exp_log ha
  obtain ⟨-, hexpb⟩ := gfLog_lt_and_exp_log hb
  rw [gfExp_mod, ← gfMul_exp_exp, hexpa, hexpb]

/-- Settles O34: α generates the nonzero bytes, and a product of powers adds the exponents. -/
theorem fieldProductAgreesWithTables : Obligations.FieldProductAgreesWithTables := by
  unfold Obligations.FieldProductAgreesWithTables
  refine ⟨⟨rfl, fun i => xtime_setWidth (gfExp i), fun i => (gfExp_mod i).symm⟩, fun a b => ?_,
    fun i hi => gfLog_exp hi, fun a ha => gfLog_lt_and_exp_log ha⟩
  split
  case isTrue hzero =>
    rcases hzero with rfl | rfl
    · exact gfMul_zero_left b
    · exact gfMul_zero_right a
  case isFalse hnonzero =>
    obtain ⟨ha, hb⟩ := not_or.1 hnonzero
    exact gfMul_eq_exp_log ha hb

/-! ### The value of a byte string as a polynomial, highest degree first (R142) -/

/-- The value at `x` by Horner's method from the first byte; a syndrome is the value at a power of α. -/
def polyValue (x : Byte) (r : List Byte) : Byte := r.foldl (fun acc b => gfMul acc x ^^^ b) 0#8

/-- `x` to the `n`. -/
def gfPow (x : Byte) : Nat → Byte
  | 0 => 1#8
  | n + 1 => gfMul (gfPow x n) x

theorem syndrome_eq_polyValue (r : List Byte) (i : Nat) : syndrome r i = polyValue (gfExp i) r := rfl

theorem gfPow_one_left (n : Nat) : gfPow 1#8 n = 1#8 := by
  induction n with
  | zero => rfl
  | succ n ih => rw [gfPow, ih, gfMul_one_right]

section PolyValue
variable (x : Byte)

theorem polyValue_nil : polyValue x [] = 0#8 := rfl

theorem polyValue_concat (r : List Byte) (b : Byte) : polyValue x (r ++ [b]) = gfMul (polyValue x r) x ^^^ b := by
  simp [polyValue]

/-- Putting `s` behind `r` raises `r`'s degrees by `s`'s length. -/
theorem polyValue_append (r s : List Byte) :
    polyValue x (r ++ s) = gfMul (polyValue x r) (gfPow x s.length) ^^^ polyValue x s := by
  induction s using List.reverseRecOn with
  | nil => simp [gfPow, polyValue_nil]
  | append_singleton s b ih =>
    rw [← List.append_assoc, polyValue_concat, ih, polyValue_concat, List.length_append, List.length_singleton, gfPow,
      gfMul_xor_left, gfMul_assoc, BitVec.xor_assoc]

theorem polyValue_cons (b : Byte) (s : List Byte) :
    polyValue x (b :: s) = gfMul b (gfPow x s.length) ^^^ polyValue x s := by
  have hsingle : polyValue x [b] = b := by simp [polyValue]
  simpa [hsingle] using polyValue_append x [b] s

theorem polyValue_addPoly {r s : List Byte} (h : r.length = s.length) :
    polyValue x (addPoly r s) = polyValue x r ^^^ polyValue x s := by
  induction r generalizing s with
  | nil =>
    obtain rfl := List.length_eq_zero_iff.1 h.symm
    exact (BitVec.xor_self).symm
  | cons a r ih =>
    cases s with
    | nil => cases h
    | cons b s =>
      have htail : r.length = s.length := Nat.succ.inj h
      have hadd : addPoly (a :: r) (b :: s) = (a ^^^ b) :: addPoly r s := rfl
      rw [hadd, polyValue_cons, polyValue_cons, polyValue_cons, ih htail, addPoly_length, htail, Nat.min_self,
        gfMul_xor_left, xor_swap]

theorem polyValue_map_mul (c : Byte) (r : List Byte) :
    polyValue x (r.map fun b => gfMul c b) = gfMul c (polyValue x r) := by
  induction r with
  | nil => exact (gfMul_zero_right c).symm
  | cons b r ih => rw [List.map_cons, polyValue_cons, polyValue_cons, ih, List.length_map, gfMul_xor_right, gfMul_assoc]

theorem polyValue_replicate_zero (n : Nat) : polyValue x (List.replicate n 0#8) = 0#8 := by
  induction n with
  | zero => rfl
  | succ n ih => simp [List.replicate_succ, polyValue_cons, ih]

/-- Changing one byte by `e` changes the value by `e` at that byte's degree. -/
theorem polyValue_set_xor {r : List Byte} {k : Nat} (hk : k < r.length) (e : Byte) :
    polyValue x (r.set k (r.getD k 0 ^^^ e)) = polyValue x r ^^^ gfMul e (gfPow x (r.length - 1 - k)) := by
  induction r generalizing k with
  | nil => cases hk
  | cons b r ih =>
    cases k with
    | zero =>
      rw [List.set_cons_zero, List.getD_cons_zero, polyValue_cons, polyValue_cons, gfMul_xor_left, BitVec.xor_assoc,
        BitVec.xor_comm (gfMul e _), ← BitVec.xor_assoc]
      rfl
    | succ k =>
      have hk' : k < r.length := Nat.lt_of_succ_lt_succ hk
      have hdegree : (b :: r).length - 1 - (k + 1) = r.length - 1 - k := by
        rw [List.length_cons]
        omega
      rw [List.set_cons_succ, List.getD_cons_succ, polyValue_cons, polyValue_cons, ih hk', List.length_set,
        hdegree, BitVec.xor_assoc]

end PolyValue

/-! ### The generator's roots (R143) -/

theorem polyValue_genStep (x : Byte) (g : List Byte) (i : Nat) :
    polyValue x (genStep g i) = gfMul (polyValue x g) (x ^^^ gfExp i) := by
  have hscale : scalePoly (gfExp i) g = g.map fun b => gfMul (gfExp i) b := by simp [scalePoly, gfMul_comm]
  have hlength : (g ++ [0]).length = (0 :: scalePoly (gfExp i) g).length := by simp
  rw [genStep, polyValue_addPoly x hlength, polyValue_concat, polyValue_cons, hscale, polyValue_map_mul,
    gfMul_xor_right, gfMul_comm (gfExp i)]
  simp

/-- `gen(n)` vanishes at α^0 .. α^(n-1). -/
theorem polyValue_gen_root {i n : Nat} (hi : i < n) : polyValue (gfExp i) (gen n) = 0#8 := by
  induction n with
  | zero => cases hi
  | succ n ih =>
    rw [gen_succ, polyValue_genStep]
    rcases Nat.lt_succ_iff_lt_or_eq.1 hi with hlt | rfl
    · rw [ih hlt, gfMul_zero_left]
    · rw [BitVec.xor_self, gfMul_zero_right]

/-- The generator is monic. -/
theorem gen_eq_cons (n : Nat) : gen n = 1#8 :: (gen n).tail := by
  induction n with
  | zero => rfl
  | succ n ih =>
    rw [gen_succ, ih]
    simp [genStep, addPoly]

/-- At a root the leading term `x^n` equals the rest. -/
theorem polyValue_gen_tail {i n : Nat} (hi : i < n) : polyValue (gfExp i) (gen n).tail = gfPow (gfExp i) n := by
  have hroot := polyValue_gen_root hi
  rw [gen_eq_cons, polyValue_cons, gfMul_one_left, List.length_tail, gen_length, Nat.add_sub_cancel] at hroot
  exact (BitVec.xor_eq_zero_iff.1 hroot).symm

/-! ### The parity is the remainder (R144) -/

/-- One step of the register at a root of the generator: the register's value takes one Horner step of the message
polynomial times `x^n`. -/
theorem polyValue_lfsrStep {x : Byte} {g p : List Byte} (hroot : polyValue x g = gfPow x p.length)
    (hlength : g.length = p.length) (hp : p ≠ []) (b : Byte) :
    polyValue x (lfsrStep g p b) = gfMul (polyValue x p) x ^^^ gfMul b (gfPow x p.length) := by
  cases p with
  | nil => exact absurd rfl hp
  | cons h t =>
    have hsame : (t ++ [0#8]).length = (g.map fun c => gfMul (b ^^^ h) c).length := by simp [hlength]
    have hstep : lfsrStep g (h :: t) b = addPoly (t ++ [0#8]) (g.map fun c => gfMul (b ^^^ h) c) := rfl
    rw [hstep, polyValue_addPoly x hsame, polyValue_concat, polyValue_map_mul, hroot, polyValue_cons, gfMul_xor_left,
      gfMul_xor_left, List.length_cons, gfPow, gfMul_assoc, BitVec.xor_zero]
    ac_rfl

theorem rsParity_nil (n : Nat) : rsParity [] n = List.replicate n 0#8 := rfl

theorem rsParity_concat (m : List Byte) (b : Byte) (n : Nat) :
    rsParity (m ++ [b]) n = lfsrStep (gen n).tail (rsParity m n) b := by
  simp [rsParity]

/-- The parity's value at a root of the generator is that of the message times `x^n`. -/
theorem polyValue_rsParity {i n : Nat} (hi : i < n) (m : List Byte) :
    polyValue (gfExp i) (rsParity m n) = gfMul (polyValue (gfExp i) m) (gfPow (gfExp i) n) := by
  have hn : 0 < n := Nat.zero_lt_of_lt hi
  induction m using List.reverseRecOn with
  | nil =>
    rw [rsParity_nil, polyValue_replicate_zero, polyValue_nil, gfMul_zero_left]
  | append_singleton m b ih =>
    have hlength := rsParity_length m hn
    have hne : rsParity m n ≠ [] := List.length_pos_iff.1 (hlength.symm ▸ hn)
    have hroot : polyValue (gfExp i) (gen n).tail = gfPow (gfExp i) (rsParity m n).length := by
      rw [hlength, polyValue_gen_tail hi]
    rw [rsParity_concat, polyValue_lfsrStep hroot (by simp [hlength]) hne, hlength, ih, polyValue_concat,
      gfMul_xor_left, gfMul_assoc, gfMul_assoc, gfMul_comm (gfExp i)]

/-- A codeword's syndromes are zero: message and parity have the same value, and `a ^^^ a = 0`. -/
theorem syndrome_rsEncode {i n : Nat} (hi : i < n) (m : List Byte) : syndrome (rsEncode m n) i = 0#8 := by
  rw [syndrome_eq_polyValue, rsEncode, polyValue_append, rsParity_length m (Nat.zero_lt_of_lt hi),
    polyValue_rsParity hi]
  exact BitVec.xor_self

/-! ### Detection (R146, R156, R157) -/

theorem rsDetect_of_clean {r : List Byte} {n : Nat} (h : ∀ i < n, syndrome r i = 0#8) :
    rsDetect r n = some (r.take (r.length - n)) :=
  rsDetect_eq_some.2 ⟨h, rfl⟩

theorem rsDetect_of_corrupt {r : List Byte} {n : Nat} (h : ∃ i < n, syndrome r i ≠ 0#8) : rsDetect r n = none := by
  obtain ⟨i, hi, hne⟩ := h
  refine Option.eq_none_iff_forall_ne_some.2 fun m hm => ?_
  obtain ⟨hclean, -⟩ := rsDetect_eq_some.1 hm
  exact hne (hclean i hi)

theorem rsDetect_rsEncode (m : List Byte) {n : Nat} (hn : 0 < n) : rsDetect (rsEncode m n) n = some m := by
  rw [rsDetect_of_clean fun i hi => syndrome_rsEncode hi m, rsEncode_length m hn, Nat.add_sub_cancel, rsEncode,
    List.take_left]

/-- Settles O37: every syndrome of a codeword is zero, so detection strips the parity. -/
theorem detectionInvertsEncoding : Obligations.DetectionInvertsEncoding := by
  unfold Obligations.DetectionInvertsEncoding
  intro lvl nsym m hlevel _
  have hpos := nsymOf_pos hlevel
  exact ⟨rsEncode_length m hpos, rsDetect_rsEncode m hpos⟩

/-- S_0 is the sum of the bytes, so it sees the change itself wherever it stands. -/
theorem syndrome_zero_set_xor {r : List Byte} {k : Nat} (hk : k < r.length) (hclean : syndrome r 0 = 0#8) (e : Byte) :
    syndrome (r.set k (r.getD k 0 ^^^ e)) 0 = e := by
  rw [syndrome_eq_polyValue] at hclean ⊢
  rw [polyValue_set_xor _ hk, hclean, gfExp_zero, gfPow_one_left, gfMul_one_right,
    BitVec.zero_xor]

/-! ### RS_DECODE (R155) -/

section RsDecode
variable {lvl : BitVec 4} {n : Nat} {len : Byte} {s : State} (hn : nsymOf lvl = some n)
include hn

theorem execRsDecode_tooShort (h : len.toNat < n) : execRsDecode lvl len s = raise .invalidInput s := by
  simp [execRsDecode, hn, h]

theorem execRsDecode_clean {m : List Byte} (h : n ≤ len.toNat) (hm : rsDetect (s.input len) n = some m) :
    execRsDecode lvl len s = finishOk (s.putOut m) := by
  simp [execRsDecode, hn, Nat.not_lt.2 h, hm]

theorem execRsDecode_corrupt (h : n ≤ len.toNat) (hnone : rsDetect (s.input len) n = none) :
    execRsDecode lvl len s = raise .uncorrectable s := by
  simp [execRsDecode, hn, Nat.not_lt.2 h, hnone]

end RsDecode

/-- The first bytes of what is read. -/
theorem State.take_readBytes (s : State) (base : Nat) {k n : Nat} (h : k ≤ n) :
    (s.readBytes base n).take k = s.readBytes base k := by
  rw [State.readBytes, ← List.map_take, List.take_range, Nat.min_eq_left h, State.readBytes]

/-- Settles O38: S_0 of the changed codeword is `e`, so a syndrome is nonzero. -/
theorem singleByteCorruptionIsDetected : Obligations.SingleByteCorruptionIsDetected := by
  unfold Obligations.SingleByteCorruptionIsDetected
  intro lvl nsym m k e hlevel _ hk he r
  have hpos := nsymOf_pos hlevel
  have hlength : (rsEncode m nsym).length = m.length + nsym := rsEncode_length m hpos
  have hsyndrome : syndrome r 0 = e :=
    syndrome_zero_set_xor (hlength.symm ▸ hk) (syndrome_rsEncode hpos m) e
  have hdetect : rsDetect r nsym = none := rsDetect_of_corrupt ⟨0, hpos, hsyndrome.symm ▸ he⟩
  refine ⟨hsyndrome, hdetect, fun s len hinput => ?_⟩
  have hlen : len.toNat = m.length + nsym := by
    have hread := congrArg List.length hinput
    rwa [State.readBytes_length, List.length_set, hlength] at hread
  exact execRsDecode_corrupt hlevel (by omega) (by rw [State.input, hinput, hdetect])

/-- Settles O36: the syndromes decide what `rsDetect` answers, and RS_DECODE follows it. -/
theorem rsDecodeStripsOrRejects : Obligations.RsDecodeStripsOrRejects := by
  unfold Obligations.RsDecodeStripsOrRejects
  refine ⟨fun i => ⟨polyValue_nil _, polyValue_concat _⟩, fun r nsym => ⟨rsDetect_of_clean, rsDetect_of_corrupt⟩,
    fun lvl nsym len s hlevel => ?_⟩
  have hn : nsymOf lvl = some nsym := nsymOf_eq_some_iff.2 hlevel
  refine ⟨execRsDecode_tooShort hn, fun hlen hclean => ?_, fun hlen hcorrupt =>
    execRsDecode_corrupt hn hlen (rsDetect_of_corrupt hcorrupt)⟩
  have hdetect : rsDetect (s.input len) nsym = some (s.readBytes Config.bufInBase (len.toNat - nsym)) := by
    rw [State.input, rsDetect_of_clean hclean, State.readBytes_length, s.take_readBytes _ (Nat.sub_le _ _)]
  obtain ⟨t, hexec, hframe, hout⟩ :=
    finishOk_putOut (bs := s.readBytes Config.bufInBase (len.toNat - nsym)) s (by simp; omega)
  exact ⟨t, (execRsDecode_clean hn hlen hdetect).trans hexec, hframe, hout⟩

end Sys2Proof.Machine

/-! # Proofs of the statements on the framer (spec/43_framer.md): the two parts of a packet's creation, the checks of
its parsing, the round trip, and RELAY_DESERIALIZE. -/

namespace Sys2Proof.Machine

/-! ### Bytes read from a buffer, and results written (R28, R29) -/

theorem State.readBytes_succ (s : State) (base n : Nat) :
    s.readBytes base (n + 1) = s.readByte base :: s.readBytes (base + 1) n := by
  simp [State.readBytes, List.range_succ_eq_map, Nat.add_assoc, Nat.add_comm 1]

/-- What is read behind the first bytes. -/
theorem State.drop_readBytes (s : State) (base k n : Nat) :
    (s.readBytes base n).drop k = s.readBytes (base + k) (n - k) := by
  refine List.ext_getElem (by simp) fun j _ _ => ?_
  simp [State.readBytes, Nat.add_assoc]

theorem State.getD_readBytes (s : State) (base : Nat) {k n : Nat} (h : k < n) :
    (s.readBytes base n).getD k 0 = s.readByte (base + k) := by
  simp [State.readBytes, List.getD_eq_getElem?_getD, h]

/-- A command that writes bytes to BUF_OUT and the result registers: its next state, and nothing else changed (R29). -/
theorem finishOk_putOut_setResults {bs : List Byte} (r0 r1 r2 r3 : Word) (s : State) (h : bs.length ≤ 2048) :
    ∃ t, finishOk ((s.putOut bs).setResults r0 r1 r2 r3) = .next t ∧
      t = { s.succeeded with
        mem := t.mem, outLen := t.outLen, result0 := r0, result1 := r1, result2 := r2, result3 := r3 } ∧
      wroteOut bs s t :=
  ⟨((s.putOut bs).setResults r0 r1 r2 r3).complete .none true, rfl, rfl, wroteOut_of h rfl rfl rfl⟩

/-! ### The body of a packet (R173, R174) -/

theorem frameBody_none (p : Params) (m : List Byte) : frameBody p 0 m = .ok (.uncompressed, m) := rfl

theorem frameBody_compress {p : Params} {m : List Byte} (hen : p.codecDictEn = true) (hm : m ≠ []) :
    frameBody p 1 m = .ok (compress p.dict m) := by
  simp [frameBody, hen, hm]

theorem frameBody_disabled {p : Params} (hdis : p.codecDictEn = false) (m : List Byte) :
    frameBody p 1 m = .error .invalidInput := by
  simp [frameBody, hdis]

theorem frameBody_empty (p : Params) : frameBody p 1 [] = .error .invalidInput := by
  simp [frameBody]

/-- The body of a packet with compression is the compressed message, or there is none. -/
theorem frameBody_one_cases (p : Params) (m : List Byte) :
    frameBody p 1 m = .ok (compress p.dict m) ∨ frameBody p 1 m = .error .invalidInput := by
  cases hen : p.codecDictEn with
  | false => exact .inr (frameBody_disabled hen m)
  | true =>
    rcases eq_or_ne m [] with rfl | hm
    · exact .inr (frameBody_empty p)
    · exact .inl (frameBody_compress hen hm)

/-- The two forms of a body: the message itself, or its compression. -/
theorem frameBody_ok_cases {p : Params} {comp : BitVec 4} {m : List Byte} {r : Mode × List Byte}
    (h : frameBody p comp m = .ok r) : comp = 0 ∧ r = (.uncompressed, m) ∨ comp = 1 ∧ r = compress p.dict m := by
  rcases Nat.lt_or_ge 1 comp.toNat with hbig | hsmall
  · rw [frameBody_illegalType hbig] at h
    cases h
  · have hcomp : comp = 0 ∨ comp = 1 := by
      clear h
      revert comp
      decide
    rcases hcomp with rfl | rfl
    · cases h
      exact .inl ⟨rfl, rfl⟩
    · rcases frameBody_one_cases p m with hbody | hbody <;> rw [hbody] at h <;> cases h
      exact .inr ⟨rfl, rfl⟩

/-! ### The payload of a packet (R173, R174) -/

theorem framePayload_none (p : Params) (body : List Byte) : framePayload p 0 body = .ok body := rfl

/-- Level 0 names no parity length. -/
theorem ne_zero_of_nsymOf {fec : BitVec 4} {n : Nat} (h : nsymOf fec = some n) : fec ≠ 0 := by
  rintro rfl
  cases h

theorem framePayload_disabled {p : Params} {fec : BitVec 4} (hne : fec ≠ 0) (hdis : p.codecFecEn = false)
    (body : List Byte) : framePayload p fec body = .error .invalidInput := by
  rw [framePayload, if_neg hne, hdis]
  cases nsymOf fec <;> rfl

section Level
variable {p : Params} {fec : BitVec 4} {n : Nat} {body : List Byte} (hn : nsymOf fec = some n)
include hn

theorem framePayload_level :
    framePayload p fec body =
      if !p.codecFecEn then .error .invalidInput
      else if 255 < body.length + n then .error .invalidInput else .ok (rsEncode body n) := by
  rw [framePayload, if_neg (ne_zero_of_nsymOf hn), hn]

theorem framePayload_protect (hen : p.codecFecEn = true) (hfits : body.length + n ≤ 255) :
    framePayload p fec body = .ok (rsEncode body n) := by
  rw [framePayload_level hn, hen, if_neg (Nat.not_lt.2 hfits)]
  rfl

theorem framePayload_tooLong (hlong : 255 < body.length + n) : framePayload p fec body = .error .invalidInput := by
  rw [framePayload_level hn, if_pos hlong, ite_self]

end Level

/-- The two forms of a payload: the body itself, or its codeword. -/
theorem framePayload_ok_cases {p : Params} {fec : BitVec 4} {body payload : List Byte}
    (h : framePayload p fec body = .ok payload) :
    fec = 0 ∧ payload = body ∨ ∃ n, nsymOf fec = some n ∧ payload = rsEncode body n := by
  cases hn : nsymOf fec with
  | none =>
    rw [framePayload, hn] at h
    split at h <;> cases h
    exact .inl ⟨‹_›, rfl⟩
  | some n =>
    rw [framePayload_level hn] at h
    split at h
    · cases h
    · split at h <;> cases h
      exact .inr ⟨n, rfl, rfl⟩

/-! ### FRAME_CREATE (R170, R174) -/

/-- The header as R170 spells it, `0x1C 0xF0`. -/
theorem codecHeader_eq (comp fec : BitVec 4) :
    codecHeader comp fec = [0x10 ||| comp.setWidth 8, fec.setWidth 8 <<< 4] := by
  revert comp fec
  decide

section Build
variable {p : Params} {comp fec : BitVec 4} {m body payload : List Byte} {mode : Mode} {e : ErrCode}

theorem frameBuild_bodyError (h : frameBody p comp m = .error e) : frameBuild p comp fec m = .error e := by
  rw [frameBuild, h]

theorem frameBuild_payloadError (hbody : frameBody p comp m = .ok (mode, body))
    (h : framePayload p fec body = .error e) : frameBuild p comp fec m = .error e := by
  rw [frameBuild, hbody]
  simp only [h]

/-- With a body and a payload, the packet's length decides (R174). -/
theorem frameBuild_of_payload (hbody : frameBody p comp m = .ok (mode, body))
    (hpayload : framePayload p fec body = .ok payload) :
    frameBuild p comp fec m =
      if 235 < payload.length then .error .translationError else .ok (mode, codecHeader comp fec ++ payload) := by
  have hlength : (codecHeader comp fec ++ payload).length = payload.length + 2 := by simp [codecHeader]
  rw [frameBuild, hbody]
  simp only [hpayload, hlength]
  exact if_congr (Nat.add_lt_add_iff_right (n := 235) (k := 2)) rfl rfl

/-- What a created packet is made of. -/
theorem frameBuild_eq_ok {r : Mode × List Byte} (h : frameBuild p comp fec m = .ok r) :
    ∃ body payload, frameBody p comp m = .ok (r.1, body) ∧ framePayload p fec body = .ok payload ∧
      r.2 = codecHeader comp fec ++ payload := by
  cases hbody : frameBody p comp m with
  | error e =>
    rw [frameBuild_bodyError hbody] at h
    cases h
  | ok b =>
    cases hpayload : framePayload p fec b.2 with
    | error e =>
      rw [frameBuild_payloadError hbody hpayload] at h
      cases h
    | ok payload =>
      rw [frameBuild_of_payload hbody hpayload] at h
      split at h <;> cases h
      exact ⟨b.2, payload, rfl, hpayload, rfl⟩

end Build

theorem execFrameCreate_ok {comp fec : BitVec 4} {len : Byte} {s : State} {r : Mode × List Byte}
    (h : frameBuild s.params comp fec (s.input len) = .ok r) :
    execFrameCreate comp fec len s = finishOk ((s.putOut r.2).setResult0 r.1.toWord) := by
  rw [execFrameCreate, h]

theorem execFrameCreate_error {comp fec : BitVec 4} {len : Byte} {s : State} {e : ErrCode}
    (h : frameBuild s.params comp fec (s.input len) = .error e) : execFrameCreate comp fec len s = raise e s := by
  rw [execFrameCreate, h]

/-- FRAME_CREATE completes without an error only with a packet. -/
theorem frameBuild_of_exec {comp fec : BitVec 4} {len : Byte} {s t : State}
    (h : exec (.frameCreate comp fec len) s = .next t) (herr : t.err = 0) :
    ∃ r, frameBuild s.params comp fec (s.input len) = .ok r ∧
      t = ((s.putOut r.2).setResult0 r.1.toWord).complete .none true := by
  have hexec : execFrameCreate comp fec len s = .next t := h
  cases hbuild : frameBuild s.params comp fec (s.input len) with
  | ok r => exact ⟨r, rfl, finishOk_eq_next ((execFrameCreate_ok hbuild).symm.trans hexec)⟩
  | error e =>
    obtain rfl := raise_eq_next ((execFrameCreate_error hbuild).symm.trans hexec)
    rcases frameBuild_error hbuild with rfl | rfl <;> cases herr

theorem State.input_ne_nil {len : Byte} (h : len ≠ 0) (s : State) : s.input len ≠ [] := by
  intro hnil
  have hlength := s.input_length len
  rw [hnil] at hlength
  exact h (BitVec.eq_of_toNat_eq hlength.symm)

/-- Settles O39: the body, the payload, and then the length of the packet. -/
theorem frameCreateWritesPacket : Obligations.FrameCreateWritesPacket := by
  unfold Obligations.FrameCreateWritesPacket
  intro comp fec len s mode body payload hcomp hfec
  have hbody : frameBody s.params comp (s.input len) = .ok (mode, body) := by
    rcases hcomp with ⟨rfl, rfl, rfl⟩ | ⟨rfl, hen, hlen, hcompress⟩
    · exact frameBody_none _ _
    · rw [frameBody_compress hen (State.input_ne_nil hlen s), hcompress, State.input]
  have hpayload : framePayload s.params fec body = .ok payload := by
    rcases hfec with ⟨rfl, rfl⟩ | ⟨nsym, hn, hen, hfits, rfl⟩
    · exact framePayload_none _ _
    · exact framePayload_protect hn hen hfits
  have hbuild := frameBuild_of_payload hbody hpayload
  refine ⟨fun hfits => ?_, fun hlong => ?_⟩
  · rw [if_neg (Nat.not_lt.2 hfits), codecHeader_eq] at hbuild
    obtain ⟨t, hexec, hframe, hout⟩ := finishOk_putOut_setResult0
      (bs := (0x10 ||| comp.setWidth 8) :: (fec.setWidth 8 <<< 4) :: payload) mode.toWord s
      (by simp only [List.length_cons]; omega)
    exact ⟨t, (execFrameCreate_ok hbuild).trans hexec, hframe, hout⟩
  · rw [if_pos hlong] at hbuild
    exact execFrameCreate_error hbuild

/-- Settles O40: each failure is one of the body or of the payload, which come before the packet's length. -/
theorem frameCreateRejectsBeforeLengthCheck : Obligations.FrameCreateRejectsBeforeLengthCheck := by
  unfold Obligations.FrameCreateRejectsBeforeLengthCheck
  intro comp fec len s
  have hpayloadFails {r : Mode × List Byte} (hbody : frameBody s.params comp (s.input len) = .ok r)
      (hpayload : framePayload s.params fec r.2 = .error .invalidInput) :
      exec (.frameCreate comp fec len) s = .next (s.failed 1) :=
    execFrameCreate_error (frameBuild_payloadError hbody hpayload)
  refine ⟨?_, fun _ hne hdis => ?_, ?_, ?_⟩
  · rintro rfl (hdis | rfl)
    · exact execFrameCreate_error (frameBuild_bodyError (frameBody_disabled hdis _))
    · have hbody : frameBody s.params 1 (s.input 0) = .error .invalidInput := frameBody_empty s.params
      exact execFrameCreate_error (frameBuild_bodyError hbody)
  · cases hbody : frameBody s.params comp (s.input len) with
    | ok r => exact hpayloadFails hbody (framePayload_disabled hne hdis _)
    | error e =>
      rw [frameBody_error hbody] at hbody
      exact execFrameCreate_error (frameBuild_bodyError hbody)
  · rintro rfl nsym hn hlong
    exact hpayloadFails (frameBody_none _ _) (framePayload_tooLong hn (by rwa [State.input_length]))
  · rintro rfl nsym hn hlong
    rcases frameBody_one_cases s.params (s.input len) with hbody | hbody
    · exact hpayloadFails hbody (framePayload_tooLong hn hlong)
    · exact execFrameCreate_error (frameBuild_bodyError hbody)

/-! ### FEC detection of a body (R176) -/

theorem frameUnprotect_none (body : List Byte) : frameUnprotect 0 body = .ok body := rfl

theorem frameUnprotect_illegalLevel {fec : BitVec 4} (h : 3 < fec.toNat) (body : List Byte) :
    frameUnprotect fec body = .error .invalidInput := by
  have hne : fec ≠ 0 := by
    rintro rfl
    cases h
  have hlegal : legalParityLevel fec = false := by simp [legalParityLevel, h]
  rw [frameUnprotect, if_neg hne, nsymOf_eq_none_of_illegal hlegal]

section Unprotect
variable {fec : BitVec 4} {n : Nat} {body : List Byte} (hn : nsymOf fec = some n)
include hn

theorem frameUnprotect_level :
    frameUnprotect fec body =
      if body.length < n then .error .invalidInput
      else (rsDetect body n).elim (.error .uncorrectable) .ok := by
  rw [frameUnprotect, if_neg (ne_zero_of_nsymOf hn), hn]
  dsimp only
  cases rsDetect body n <;> rfl

theorem frameUnprotect_short (h : body.length < n) : frameUnprotect fec body = .error .invalidInput := by
  rw [frameUnprotect_level hn, if_pos h]

theorem frameUnprotect_corrupt (h : n ≤ body.length) (hnone : rsDetect body n = none) :
    frameUnprotect fec body = .error .uncorrectable := by
  rw [frameUnprotect_level hn, if_neg (Nat.not_lt.2 h), hnone, Option.elim_none]

theorem frameUnprotect_clean {m : List Byte} (h : n ≤ body.length) (hm : rsDetect body n = some m) :
    frameUnprotect fec body = .ok m := by
  rw [frameUnprotect_level hn, if_neg (Nat.not_lt.2 h), hm, Option.elim_some]

end Unprotect

/-! ### The message of a body (R176) -/

theorem frameUnpack_none (d : Dict) (plain : List Byte) : frameUnpack d 0 plain = .ok (.uncompressed, plain) := rfl

theorem frameUnpack_decoded {d : Dict} {plain : List Byte} {r : Mode × List Byte}
    (h : decompress d plain = some r) : frameUnpack d 1 plain = .ok r := by
  simp [frameUnpack, h]

theorem frameUnpack_undecodable {d : Dict} {plain : List Byte} (h : decompress d plain = none) :
    frameUnpack d 1 plain = .error .invalidInput := by
  simp [frameUnpack, h]

theorem frameUnpack_illegalType {comp : BitVec 4} (h : 2 ≤ comp.toNat) (d : Dict) (plain : List Byte) :
    frameUnpack d comp plain = .error .invalidInput := by
  unfold frameUnpack
  split
  · omega
  · omega
  · rfl

/-! ### FRAME_PARSE (R171, R172, R176) -/

theorem frameRead_short {p : List Byte} (h : p.length < 2) (d : Dict) : frameRead d p = .error .invalidInput := by
  match p, h with
  | [], _ => rfl
  | [_], _ => rfl

theorem frameRead_badVersion {b0 : Byte} (h : b0.extractLsb' 4 4 ≠ 1) (d : Dict) (b1 : Byte) (body : List Byte) :
    frameRead d (b0 :: b1 :: body) = .error .unsupportedVersion := if_pos h

section Read
variable {d : Dict} {b0 b1 : Byte} {body plain : List Byte} {e : ErrCode} (hver : b0.extractLsb' 4 4 = 1)
include hver

theorem frameRead_fecError (h : frameUnprotect (b1.extractLsb' 4 4) body = .error e) :
    frameRead d (b0 :: b1 :: body) = .error e := by
  simp [frameRead, hver, h]

theorem frameRead_typeError (hplain : frameUnprotect (b1.extractLsb' 4 4) body = .ok plain)
    (h : frameUnpack d (b0.extractLsb' 0 4) plain = .error e) : frameRead d (b0 :: b1 :: body) = .error e := by
  simp [frameRead, hver, hplain, h]

theorem frameRead_ok {r : Mode × List Byte} (hplain : frameUnprotect (b1.extractLsb' 4 4) body = .ok plain)
    (h : frameUnpack d (b0.extractLsb' 0 4) plain = .ok r) :
    frameRead d (b0 :: b1 :: body) = .ok ⟨BitVec.setWidth 32 (b1 ++ b0), r.1, r.2⟩ := by
  simp [frameRead, hver, hplain, h]

end Read

/-- The nibbles of a header byte (R170). -/
theorem nibbles_append (hi lo : BitVec 4) :
    (hi ++ lo : Byte).extractLsb' 4 4 = hi ∧ (hi ++ lo : Byte).extractLsb' 0 4 = lo :=
  ⟨BitVec.extractLsb'_append_eq_left, BitVec.extractLsb'_append_eq_right⟩

/-- RESULT0 of FRAME_PARSE, byte 0 in bits 7:0 (R176). -/
theorem headerWord_eq (b0 b1 : Byte) : BitVec.setWidth 32 (b1 ++ b0) = (0 : BitVec 16) ++ b1 ++ b0 := by
  rw [BitVec.append_assoc, BitVec.setWidth_eq_append (by decide)]
  rfl

/-- A parsed packet, its header spelled nibble by nibble. -/
theorem frameRead_header {d : Dict} {comp fec : BitVec 4} (flags : BitVec 4) {body plain : List Byte}
    {r : Mode × List Byte} (hplain : frameUnprotect fec body = .ok plain) (h : frameUnpack d comp plain = .ok r) :
    frameRead d (((1 : BitVec 4) ++ comp) :: (fec ++ flags) :: body) =
      .ok ⟨BitVec.setWidth 32 ((fec ++ flags) ++ ((1 : BitVec 4) ++ comp)), r.1, r.2⟩ := by
  obtain ⟨hver, hcomp⟩ := nibbles_append 1 comp
  obtain ⟨hfec, -⟩ := nibbles_append fec flags
  exact frameRead_ok hver (by rwa [hfec]) (by rwa [hcomp])

theorem execFrameParse_error {len : Byte} {s : State} {e : ErrCode}
    (h : frameRead s.params.dict (s.input len) = .error e) : execFrameParse len s = raise e s := by
  rw [execFrameParse, h]

/-- A parsed packet: the message in BUF_OUT, the header and the mode in two result registers, and nothing else. -/
theorem execFrameParse_ok {len : Byte} {s : State} {r : Parsed}
    (h : frameRead s.params.dict (s.input len) = .ok r) :
    ∃ t, exec (.frameParse len) s = .next t ∧
      t = { s.succeeded with mem := t.mem, outLen := t.outLen, result0 := r.header, result1 := r.mode.toWord } ∧
      wroteOut r.msg s t := by
  have hinput : (s.input len).length ≤ 2048 := by
    rw [State.input_length]
    omega
  obtain ⟨t, hexec, hframe, hout⟩ :=
    finishOk_putOut_setResults r.header r.mode.toWord s.result2 s.result3 s (frameRead_length hinput h)
  have hrun : execFrameParse len s =
      finishOk ((s.putOut r.msg).setResults r.header r.mode.toWord s.result2 s.result3) := by
    rw [execFrameParse, h]
    rfl
  exact ⟨t, hrun.trans hexec, hframe, hout⟩

/-- A packet of two bytes or more: its header bytes and its body. -/
theorem State.input_eq_header_body {len : Byte} (h : 2 ≤ len.toNat) (s : State) :
    s.input len = s.readByte Config.bufInBase :: s.readByte (Config.bufInBase + 1) ::
      s.readBytes (Config.bufInBase + 2) (len.toNat - 2) := by
  obtain ⟨n, hn⟩ := Nat.exists_eq_add_of_le' h
  rw [State.input, hn, State.readBytes_succ, State.readBytes_succ, Nat.add_sub_cancel]

/-- Settles O41: `frameRead_header` on the packet's two header bytes and its body. -/
theorem frameParseWritesMessage : Obligations.FrameParseWritesMessage := by
  unfold Obligations.FrameParseWritesMessage
  intro len s comp fec flags plain r hlen hb0 hb1 hfec hcomp
  have hplain : frameUnprotect fec (s.readBytes (Config.bufInBase + 2) (len.toNat - 2)) = .ok plain := by
    rcases hfec with ⟨rfl, rfl⟩ | ⟨nsym, hn, hlong, hclean, rfl⟩
    · exact frameUnprotect_none _
    · refine frameUnprotect_clean hn (by rwa [State.readBytes_length]) ?_
      rw [rsDetect_of_clean hclean, State.readBytes_length, State.take_readBytes _ _ (Nat.sub_le _ _)]
  have hmsg : frameUnpack s.params.dict comp plain = .ok r := by
    rcases hcomp with ⟨rfl, rfl⟩ | ⟨rfl, hdec⟩
    · exact frameUnpack_none _ _
    · exact frameUnpack_decoded hdec
  have hread := frameRead_header flags hplain hmsg
  rw [← hb0, ← hb1, ← State.input_eq_header_body hlen] at hread
  obtain ⟨t, hexec, hframe, hout⟩ := execFrameParse_ok hread
  rw [headerWord_eq] at hframe
  exact ⟨t, hexec, hframe, hout⟩

/-- Settles O42: each check's equation of `frameRead`, `frameUnprotect` or `frameUnpack`, in R176's order. -/
theorem frameParseChecksInOrder : Obligations.FrameParseChecksInOrder := by
  unfold Obligations.FrameParseChecksInOrder
  intro len s b0 b1 body
  refine ⟨fun hshort => execFrameParse_error (frameRead_short (by rwa [State.input_length]) _), fun hinput => ?_⟩
  have hraise {e : ErrCode} (h : frameRead s.params.dict (b0 :: b1 :: body) = .error e) :
      exec (.frameParse len) s = raise e s := execFrameParse_error (by rw [State.input, hinput, h])
  have htypeFails (hver : b0.extractLsb' 4 4 = 1) {plain : List Byte}
      (hplain : frameUnprotect (b1.extractLsb' 4 4) body = .ok plain) (htype : 2 ≤ (b0.extractLsb' 0 4).toNat) :
      exec (.frameParse len) s = .next (s.failed 1) :=
    hraise (frameRead_typeError hver hplain (frameUnpack_illegalType htype _ _))
  have hbodyFails (hver : b0.extractLsb' 4 4 = 1) {plain : List Byte}
      (hplain : frameUnprotect (b1.extractLsb' 4 4) body = .ok plain) (htype : b0.extractLsb' 0 4 = 1)
      (hdec : decompress s.params.dict plain = none) : exec (.frameParse len) s = .next (s.failed 1) :=
    hraise (e := .invalidInput) (frameRead_typeError hver hplain (by rw [htype, frameUnpack_undecodable hdec]))
  refine ⟨fun hver => hraise (frameRead_badVersion hver _ _ _), fun hver hlevel =>
    hraise (frameRead_fecError hver (frameUnprotect_illegalLevel hlevel _)), fun hver nsym hn => ?_,
    fun hver hlevel => ?_⟩
  · have hplain (hlong : nsym ≤ body.length) (hclean : ∀ i < nsym, syndrome body i = 0) :=
      frameUnprotect_clean hn hlong (rsDetect_of_clean hclean)
    exact ⟨fun hshort => hraise (frameRead_fecError hver (frameUnprotect_short hn hshort)),
      fun hlong hcorrupt =>
        hraise (frameRead_fecError hver (frameUnprotect_corrupt hn hlong (rsDetect_of_corrupt hcorrupt))),
      fun hlong hclean => htypeFails hver (hplain hlong hclean),
      fun hlong hclean => hbodyFails hver (hplain hlong hclean)⟩
  · have hplain : frameUnprotect (b1.extractLsb' 4 4) body = .ok body := by rw [hlevel, frameUnprotect_none]
    exact ⟨htypeFails hver hplain, hbodyFails hver hplain⟩

/-! ### The round trip (R177) -/

/-- FEC detection gives the protected body back (R156). -/
theorem frameUnprotect_framePayload {p : Params} {fec : BitVec 4} {body payload : List Byte}
    (h : framePayload p fec body = .ok payload) : frameUnprotect fec payload = .ok body := by
  rcases framePayload_ok_cases h with ⟨rfl, rfl⟩ | ⟨n, hn, rfl⟩
  · exact frameUnprotect_none _
  · have hpos := nsymOf_pos hn
    exact frameUnprotect_clean hn (by rw [rsEncode_length _ hpos]; omega) (rsDetect_rsEncode body hpos)

/-- The message a packet gives back (R121, R177). -/
def roundTripped (d : Dict) (comp : BitVec 4) (m : List Byte) : List Byte := if comp = 0 then m else respelled d m

/-- Decompression gives the message back in the dictionary's spelling (R121). -/
theorem frameUnpack_frameBody {p : Params} {comp : BitVec 4} {m : List Byte} {r : Mode × List Byte}
    (hd : Dict.wellFormed p.dict = true) (hm : m.length ≤ 2048) (h : frameBody p comp m = .ok r) :
    frameUnpack p.dict comp r.2 = .ok (r.1, roundTripped p.dict comp m) := by
  rcases frameBody_ok_cases h with ⟨rfl, rfl⟩ | ⟨rfl, rfl⟩
  · exact frameUnpack_none _ _
  · exact frameUnpack_decoded (decompress_compress hd hm)

/-- Parsing a created packet gives the mode it was created with and the message (R177). -/
theorem frameRead_frameBuild {p : Params} {comp fec : BitVec 4} {m : List Byte} {r : Mode × List Byte}
    (hd : Dict.wellFormed p.dict = true) (hm : m.length ≤ 2048) (h : frameBuild p comp fec m = .ok r) :
    ∃ header, frameRead p.dict r.2 = .ok ⟨header, r.1, roundTripped p.dict comp m⟩ := by
  obtain ⟨body, payload, hbody, hpayload, hpacket⟩ := frameBuild_eq_ok h
  rw [hpacket]
  exact ⟨_, frameRead_header 0 (frameUnprotect_framePayload hpayload) (frameUnpack_frameBody hd hm hbody)⟩

/-- The bytes FRAME_CREATE leaves in BUF_OUT are the packet, and OUT_LEN is its length, which fits LEN's 8 bits. -/
theorem frameCreate_output {p : Params} {comp fec : BitVec 4} {m : List Byte} {r : Mode × List Byte}
    (h : frameBuild p comp fec m = .ok r) (s : State) :
    let t := ((s.putOut r.2).setResult0 r.1.toWord).complete .none true
    (t.outLen.setWidth 8).toNat = t.outLen.toNat ∧ t.readBytes Config.bufOutBase t.outLen.toNat = r.2 := by
  intro t
  have hlength : r.2.length ≤ 237 := frameBuild_length h
  obtain ⟨hlen, hbytes, -⟩ : wroteOut r.2 s t := wroteOut_of (by omega) rfl rfl rfl
  rw [BitVec.toNat_setWidth, hlen]
  exact ⟨Nat.mod_eq_of_lt (by omega), hbytes⟩

/-- Settles O43: the packet reads back by `frameRead_frameBuild`, which rests on the round trips of O32 and O37. -/
theorem codecPacketRoundTrip : Obligations.CodecPacketRoundTrip := by
  unfold Obligations.CodecPacketRoundTrip
  intro comp fec len s t u hd hcreate herr hdict hcopied m
  obtain ⟨-, -, hwords⟩ := Dict.wellFormed_entries hd
  obtain ⟨r, hbuild, rfl⟩ := frameBuild_of_exec hcreate herr
  obtain ⟨hlen, hpacket⟩ := frameCreate_output hbuild s
  have hinput : (s.input len).length ≤ 2048 := by
    rw [State.input_length]
    omega
  obtain ⟨header, hread⟩ := frameRead_frameBuild hd hinput hbuild
  rw [← hpacket, ← hcopied, ← hdict, ← hlen] at hread
  obtain ⟨v, hexec, hframe, hout⟩ := execFrameParse_ok hread
  refine ⟨v, hexec, by rw [hframe]; rfl, by rw [hframe]; rfl, ?_, map_foldByte_respelled hwords m⟩
  rwa [hdict] at hout

/-! ### RELAY_DESERIALIZE (R181) -/

theorem execRelayDeserialize_short {len : Byte} (h : len.toNat < 14) (s : State) :
    execRelayDeserialize len s = raise .invalidInput s := if_pos h

section Relay
variable {len : Byte} {s : State} (hhdr : 14 ≤ len.toNat)
include hhdr

theorem State.headD_input : (s.input len).headD 0 = s.readByte (Config.bufInBase + 0) := by
  rw [State.input_eq_header_body (by omega)]
  rfl

theorem execRelayDeserialize_badVersion (hver : s.readByte (Config.bufInBase + 0) ≠ 0x01) :
    execRelayDeserialize len s = raise .unsupportedVersion s :=
  (if_neg (Nat.not_lt.2 hhdr)).trans (if_pos (by rwa [State.headD_input hhdr]))

theorem execRelayDeserialize_version (hver : s.readByte (Config.bufInBase + 0) = 0x01) :
    execRelayDeserialize len s =
      if 114 < len.toNat - 14 then raise .invalidInput s
      else finishOk ((s.putOut ((s.input len).drop 14)).setResults (beField (s.input len) 1) (beField (s.input len) 5)
        (BitVec.setWidth 32 ((s.input len).getD 9 0)) (beField (s.input len) 10)) :=
  (if_neg (Nat.not_lt.2 hhdr)).trans (if_neg (not_not.2 ((State.headD_input hhdr).trans hver)))

/-- A header field of a packet in BUF_IN, its bytes in big-endian order (R63). -/
theorem State.beField_input {i : Nat} (hi : i ≤ 10) :
    beField (s.input len) i = s.readByte (Config.bufInBase + i) ++ s.readByte (Config.bufInBase + (i + 1)) ++
      s.readByte (Config.bufInBase + (i + 2)) ++ s.readByte (Config.bufInBase + (i + 3)) := by
  have hbyte (k : Nat) (hk : k < 14) : (s.input len).getD k 0 = s.readByte (Config.bufInBase + k) :=
    s.getD_readBytes _ (by omega)
  rw [beField, hbyte i (by omega), hbyte (i + 1) (by omega), hbyte (i + 2) (by omega), hbyte (i + 3) (by omega), ofBe32]

end Relay

/-- Settles O45: the checks in R181's order, and each field read at its place in BUF_IN. -/
theorem relayDeserializeReportsFields : Obligations.RelayDeserializeReportsFields := by
  unfold Obligations.RelayDeserializeReportsFields
  intro len s b
  refine ⟨fun hhdr hcap hver => ?_, fun hshort => execRelayDeserialize_short hshort s,
    fun hhdr hver => execRelayDeserialize_badVersion hhdr hver, fun hlong hver => ?_⟩
  · have hexec := execRelayDeserialize_version hhdr hver
    rw [if_neg (by omega), State.beField_input hhdr (by decide), State.beField_input hhdr (by decide),
      State.beField_input hhdr (by decide), State.input, s.getD_readBytes _ (by omega), s.drop_readBytes] at hexec
    obtain ⟨t, hnext, hframe, hout⟩ := finishOk_putOut_setResults
      (bs := s.readBytes (Config.bufInBase + 14) (len.toNat - 14)) (b 1 ++ b 2 ++ b 3 ++ b 4)
      (b 5 ++ b 6 ++ b 7 ++ b 8) ((b 9).setWidth 32) (b 10 ++ b 11 ++ b 12 ++ b 13) s
      (by rw [State.readBytes_length]; omega)
    exact ⟨t, hexec.trans hnext, hframe, hout⟩
  · exact (execRelayDeserialize_version (by omega) hver).trans (if_pos (by omega))

end Sys2Proof.Machine

/-! # Proofs of the statements on the queue (spec/44_queue.md): the selected entry, and the commands Q_ENQUEUE,
Q_DEQUEUE, Q_PEEK, Q_PURGE and Q_RESULT. -/

namespace Sys2Proof.Machine

/-! ### The selected entry (R203) -/

section Selected
variable {q : List QEntry} {j k : Nat} {e f x : QEntry}

/-- An entry added at the back that is no more urgent leaves the selection as it is. -/
theorem isSelected.concat (h : isSelected q k e) (hx : e.prio ≤ x.prio) : isSelected (q ++ [x]) k e := by
  obtain ⟨hat, hleast, hfirst⟩ := h
  have hk : k < q.length := (List.getElem?_eq_some_iff.1 hat).1
  refine ⟨by rwa [List.getElem?_append_left hk], fun f hf => ?_, fun j f hj hf => ?_⟩
  · rcases List.mem_append.1 hf with hf | hf
    · exact hleast f hf
    · rwa [List.mem_singleton.1 hf]
  · rw [List.getElem?_append_left (hj.trans hk)] at hf
    exact hfirst j f hj hf

/-- An entry added at the back that is strictly more urgent becomes the selected one. -/
theorem isSelected.concat_self (h : isSelected q k e) (hx : x.prio < e.prio) : isSelected (q ++ [x]) q.length x := by
  obtain ⟨-, hleast, -⟩ := h
  have hlt (f : QEntry) (hf : f ∈ q) : x.prio < f.prio := BitVec.lt_def.2 (Nat.lt_of_lt_of_le hx (hleast f hf))
  refine ⟨List.getElem?_concat_length, fun f hf => ?_, fun j f hj hf => ?_⟩
  · rcases List.mem_append.1 hf with hf | hf
    · exact BitVec.le_of_lt (hlt f hf)
    · exact List.mem_singleton.1 hf ▸ BitVec.le_refl _
  · rw [List.getElem?_append_left hj] at hf
    exact hlt f (List.mem_of_getElem? hf)

theorem isSelected_singleton (e : QEntry) : isSelected [e] 0 e :=
  ⟨rfl, fun _ hf => List.mem_singleton.1 hf ▸ BitVec.le_refl _, fun _ _ hj => absurd hj (Nat.not_lt_zero _)⟩

/-- The scan behind entries whose selection is known selects in the whole list. -/
theorem isSelected_selectFrom (h : isSelected q k e) (es : List QEntry) :
    ∃ f, isSelected (q ++ es) (selectFrom e k q.length es) f := by
  induction es generalizing q k e with
  | nil => exact ⟨e, by rwa [List.append_nil]⟩
  | cons x es ih =>
    have hlength : (q ++ [x]).length = q.length + 1 := List.length_append
    rw [selectFrom, ← hlength, List.append_cons]
    split
    case isTrue hx => exact ih (h.concat_self hx)
    case isFalse hx => exact ih (h.concat (BitVec.not_lt.1 hx))

theorem isSelected_sel (hq : q ≠ []) : ∃ e, isSelected q (sel q) e := by
  cases q with
  | nil => exact absurd rfl hq
  | cons e es => exact isSelected_selectFrom (isSelected_singleton e) es

/-- Of two selected entries neither stands before the other: it would be strictly more urgent than a least one. -/
theorem isSelected.index_le (he : isSelected q j e) (hf : isSelected q k f) : k ≤ j := by
  obtain ⟨hat, hleast, -⟩ := he
  obtain ⟨hat', -, hfirst⟩ := hf
  by_contra hjk
  exact BitVec.not_lt.2 (hleast f (List.mem_of_getElem? hat')) (hfirst j e (not_le.1 hjk) hat)

theorem isSelected.index_unique (he : isSelected q j e) (hf : isSelected q k f) : j = k :=
  le_antisymm (hf.index_le he) (he.index_le hf)

theorem isSelected.eq_sel (h : isSelected q k e) : k = sel q := by
  have hq : q ≠ [] := List.ne_nil_of_mem (List.mem_of_getElem? h.1)
  obtain ⟨f, hf⟩ := isSelected_sel hq
  exact h.index_unique hf

end Selected

/-- Settles O47: the scan's invariant is that its best entry is the selected one of those scanned. -/
theorem selectionIsFirstLowestPriority : Obligations.SelectionIsFirstLowestPriority := by
  unfold Obligations.SelectionIsFirstLowestPriority
  intro q hq
  obtain ⟨e, he⟩ := isSelected_sel hq
  exact ⟨e, he, fun k f hf => hf.eq_sel⟩

/-! ### Q_ENQUEUE (R200, R202, R210, R220) -/

theorem State.relayPacket_eq_some {len : Byte} (h : len.toNat ≤ 114) (s : State) :
    s.relayPacket len = some (s.relayBytes len) :=
  relaySer_eq_some.2 ⟨by rwa [State.input_length], rfl⟩

theorem State.relayPacket_eq_none {len : Byte} (h : 114 < len.toNat) (s : State) : s.relayPacket len = none :=
  relaySer_eq_none_iff.2 (by rwa [State.input_length])

section Enqueue
variable {prio : BitVec 4} {len : Byte} {s : State} (hroom : s.queue.length < 64) (hprio : prio.toNat ≤ 3)
include hroom hprio

theorem execQEnqueue_tooLong (hlong : 114 < len.toNat) : execQEnqueue prio len s = raise .translationError s := by
  rw [execQEnqueue, if_neg hroom.ne, if_neg (Nat.not_lt.2 hprio), s.relayPacket_eq_none hlong]

theorem execQEnqueue_fits (hfits : len.toNat ≤ 114) :
    execQEnqueue prio len s =
      finishOk (((s.setQueue (s.queue ++ [s.newEntry (prio.setWidth 2) (s.relayBytes len)])).setResult0
        (s.arg0 ^^^ s.arg3)).setResult1 (BitVec.ofNat 32 s.queue.length)) := by
  rw [execQEnqueue, if_neg hroom.ne, if_neg (Nat.not_lt.2 hprio), s.relayPacket_eq_some hfits]
  rfl

end Enqueue

/-- R200's table: the TTL of each priority, in seconds. -/
theorem ttlSeconds_setWidth {prio : BitVec 4} (h : prio.toNat ≤ 3) :
    ttlSeconds (prio.setWidth 2) = [86400, 43200, 21600, 7200].getD prio.toNat 0 := by
  revert prio
  decide

/-- The fresh entry with its TTL read off R200's table (R202, R210). -/
theorem State.newEntry_eq {prio : BitVec 4} (h : prio.toNat ≤ 3) (data : List Byte) (s : State) :
    s.newEntry (prio.setWidth 2) data =
      { id := s.arg0 ^^^ s.arg3, prio := prio.setWidth 2, tEnq := s.now,
        ttlS := [86400, 43200, 21600, 7200].getD prio.toNat 0, retry := 0, data := data } := by
  rw [State.newEntry, ttlSeconds_setWidth h]

/-- Settles O46: the checks in R210's order, and past them the fresh entry behind the queue. -/
theorem enqueueAppendsFreshEntry : Obligations.EnqueueAppendsFreshEntry := by
  unfold Obligations.EnqueueAppendsFreshEntry
  intro prio len s
  refine ⟨execQEnqueue_full prio len, fun hroom hillegal => execQEnqueue_illegalPriority hillegal len hroom.ne,
    execQEnqueue_tooLong, fun hroom hprio hfits => ?_⟩
  have hexec := execQEnqueue_fits hroom hprio hfits
  rw [s.newEntry_eq hprio] at hexec
  exact hexec

/-! ### Q_DEQUEUE and Q_PEEK (R204, R206, R212, R213, R221) -/

section Take
variable {s : State} {k : Nat} {e : QEntry}

theorem execQDequeue_some (h : s.selected = some e) :
    execQDequeue s = finishOk (((s.reportEntry e).setQueue (removeAt s.queue (sel s.queue))).setHold e) := by
  rw [execQDequeue, h]

theorem execQPeek_some (h : s.selected = some e) : execQPeek s = finishOk (s.reportEntry e) := by
  rw [execQPeek, h]

theorem execQDequeue_none (h : s.selected = none) : execQDequeue s = finishNone s := by
  rw [execQDequeue, h]

theorem execQPeek_none (h : s.selected = none) : execQPeek s = finishNone s := by
  rw [execQPeek, h]

theorem State.selected_of_isSelected (h : isSelected s.queue k e) : s.selected = some e := by
  rw [State.selected, ← h.eq_sel]
  exact h.1

theorem State.reportEntry_of_isSelected (h : isSelected s.queue k e) :
    s.reportEntry e = (s.putOut e.data).setResults (BitVec.ofNat 32 k) e.id (metaWord e) e.ttlS := by
  rw [State.reportEntry_eq, ← h.eq_sel]

end Take

/-- Settles O49: the entry selected is the one `sel` finds, and the command only reports it. -/
theorem peekReportsSelectedEntry : Obligations.PeekReportsSelectedEntry := by
  unfold Obligations.PeekReportsSelectedEntry
  intro s k e hsel hdata
  have hexec : execQPeek s = finishOk (s.reportEntry e) := execQPeek_some (State.selected_of_isSelected hsel)
  rw [State.reportEntry_of_isSelected hsel] at hexec
  obtain ⟨t, hnext, hframe, hout⟩ :=
    finishOk_putOut_setResults (BitVec.ofNat 32 k) e.id (metaWord e) e.ttlS s (hdata.trans (by decide))
  exact ⟨t, hexec.trans hnext, hframe, hout⟩

/-- Settles O48: the report of Q_PEEK, and the entry moved from the queue to HOLD. -/
theorem dequeueTakesSelectedEntry : Obligations.DequeueTakesSelectedEntry := by
  unfold Obligations.DequeueTakesSelectedEntry
  intro s k e hsel hdata
  have hexec := execQDequeue_some (State.selected_of_isSelected hsel)
  rw [State.reportEntry_of_isSelected hsel, ← hsel.eq_sel] at hexec
  exact ⟨_, hexec, rfl, wroteOut_of (hdata.trans (by decide)) rfl rfl rfl⟩

/-- The entry taken and the entries left are together the queue (R204). -/
theorem State.queue_perm_of_selected {s : State} {e : QEntry} (h : s.selected = some e) :
    s.queue.Perm (e :: removeAt s.queue (sel s.queue)) := by
  obtain ⟨hlt, rfl⟩ := List.getElem?_eq_some_iff.1 h
  rw [removeAt, ← List.eraseIdx_eq_take_drop_succ]
  exact (List.getElem_cons_eraseIdx_perm hlt).symm

/-- Settles O54: the peek leaves the queue, and so the selection, as it was. -/
theorem dequeueTakesWhatPeekReported : Obligations.DequeueTakesWhatPeekReported := by
  unfold Obligations.DequeueTakesWhatPeekReported
  intro s t u hpeek hdequeue
  cases hsel : s.selected with
  | none =>
    obtain rfl := finishNone_eq_next ((execQPeek_none hsel).symm.trans hpeek)
    have hsame : (s.complete .none false).selected = none := hsel
    obtain rfl := finishNone_eq_next ((execQDequeue_none hsame).symm.trans hdequeue)
    exact ⟨rfl, rfl, rfl, rfl, rfl, rfl, fun hvalid => nomatch hvalid⟩
  | some e =>
    obtain rfl := finishOk_eq_next ((execQPeek_some hsel).symm.trans hpeek)
    have hsame : ((s.reportEntry e).complete .none true).selected = some e := hsel
    obtain rfl := finishOk_eq_next ((execQDequeue_some hsame).symm.trans hdequeue)
    exact ⟨rfl, rfl, rfl, rfl, rfl, rfl, fun _ => ⟨rfl, rfl, State.queue_perm_of_selected hsel⟩⟩

/-! ### Q_PURGE (R205, R214, R222) -/

/-- An entry stays when its exact age, negative before the enqueue, is within its TTL (R205). -/
theorem not_expired_eq (now : DWord) (e : QEntry) :
    (!expired now e) = decide ((now.toNat : Int) - e.tEnq.toNat ≤ e.ttlS.toNat * 1000) := by
  have hage : ¬ e.ttlS.toNat * 1000 < ageMs now e.tEnq ↔ (now.toNat : Int) - e.tEnq.toNat ≤ e.ttlS.toNat * 1000 := by
    unfold ageMs
    omega
  rw [expired, ← decide_not, decide_eq_decide.2 hage]

/-- Settles O51: Q_PURGE filters by `expired`, which is R205's comparison. -/
theorem purgeRemovesExpiredEntries : Obligations.PurgeRemovesExpiredEntries := by
  unfold Obligations.PurgeRemovesExpiredEntries
  intro s
  simp only [← not_expired_eq]
  rfl

/-! ### Q_RESULT (R215) -/

theorem execQResult_nothingHeld {result : BitVec 4} (h : result.toNat ≤ 1) {s : State} (hempty : s.holdValid = false) :
    execQResult result s = raise .invalidInput s :=
  (if_neg (Nat.not_lt.2 h)).trans (if_pos (by rw [hempty, Bool.not_false]))

section Held
variable {s : State} (hheld : s.holdValid = true)
include hheld

theorem execQResult_sent : execQResult 1 s = finishOk (s.releaseHold.setResult0 0) := by
  simp [execQResult, hheld]

theorem execQResult_failed : execQResult 0 s = retryHold s := by
  simp [execQResult, hheld]

end Held

/-- Settles O52: both results are legal, and only result 1 releases a held entry. -/
theorem sendSuccessReleasesHold : Obligations.SendSuccessReleasesHold := by
  unfold Obligations.SendSuccessReleasesHold
  exact fun s => ⟨fun r hr hempty => execQResult_nothingHeld hr hempty, execQResult_sent⟩

section Retry
variable {s : State}

theorem retryHold_full (hretry : s.hold.retry.toNat < 3) (hfull : s.queue.length = 64) :
    retryHold s = raise .queueFull s.countQfull :=
  (if_pos hretry).trans (if_pos hfull)

theorem retryHold_requeue (hretry : s.hold.retry.toNat < 3) (hroom : s.queue.length < 64) :
    retryHold s =
      finishOk ((((s.setQueue (s.queue ++ [{ s.hold with retry := s.hold.retry + 1 }])).releaseHold).setResult0
        1).setResult1 ((s.hold.retry + 1).setWidth 32)) :=
  (if_pos hretry).trans (if_neg hroom.ne)

theorem retryHold_drop (hretry : s.hold.retry.toNat = 3) :
    retryHold s = raise .deliveryFailed s.releaseHold.countDfail :=
  if_neg hretry.not_lt

end Retry

/-- Below three retries the count goes up by one without wrapping, in the entry and in RESULT1. -/
theorem retry_succ {r : BitVec 2} (h : r.toNat < 3) :
    r + 1 = BitVec.ofNat 2 (r.toNat + 1) ∧ (r + 1).setWidth 32 = BitVec.ofNat 32 (r.toNat + 1) := by
  revert r
  decide

/-- Settles O53: the branches of `retryHold`, and the retry count that does not wrap. -/
theorem sendFailureRequeuesOrDrops : Obligations.SendFailureRequeuesOrDrops := by
  unfold Obligations.SendFailureRequeuesOrDrops
  intro s hheld
  have hexec : exec (.qResult 0) s = retryHold s := execQResult_failed hheld
  refine ⟨fun hretry hroom => ?_, fun hretry hfull => hexec.trans (retryHold_full hretry hfull),
    fun hretry => hexec.trans (retryHold_drop hretry)⟩
  obtain ⟨hentry, hword⟩ := retry_succ hretry
  have hrequeue := retryHold_requeue hretry hroom
  rw [hword, hentry] at hrequeue
  exact hexec.trans hrequeue

end Sys2Proof.Machine

/-! # Proofs of the statements on the duty cycle (spec/45_duty_cycle.md): the window roll, and the commands DC_POLL,
DC_CAN_TX and DC_CONSUME. -/

namespace Sys2Proof.Machine

/-! ### The window roll (R240, R247) -/

theorem State.windowElapsed_eq_true_iff {s : State} : s.windowElapsed = true ↔ rollDue s :=
  decide_eq_true_iff

/-- The roll writes the budget and nothing else: afresh from NOW when it is due, as it was when not. -/
theorem State.exists_roll_eq_setBudget (s : State) :
    ∃ u w, s.roll = s.setBudget u w ∧ (rollDue s → u = 0 ∧ w = s.now) ∧
      (¬ rollDue s → u = s.used ∧ w = s.windowStart) := by
  rw [← State.windowElapsed_eq_true_iff]
  rcases s.roll_cases with ⟨helapsed, hroll⟩ | ⟨hrunning, hroll⟩
  · exact ⟨0, s.now, hroll, fun _ => ⟨rfl, rfl⟩, fun hnot => absurd helapsed hnot⟩
  · exact ⟨s.used, s.windowStart, hroll, fun hdue => absurd (hrunning.symm.trans hdue) Bool.false_ne_true,
      fun _ => ⟨rfl, rfl⟩⟩

/-! ### The remainder, the test and the saturating sum (R243 to R245) -/

/-- The remaining budget is never truncated: it is at most the limit, which is a word (R243). -/
theorem State.remaining_toNat (s : State) : s.remaining.toNat = s.params.dcLimitMs.toNat - s.used.toNat :=
  (BitVec.toNat_ofNat ..).trans (Nat.mod_eq_of_lt ((Nat.sub_le _ _).trans_lt s.params.dcLimitMs.isLt))

theorem State.canTransmit_eq_true_iff {s : State} {est : Word} :
    s.canTransmit est = true ↔ s.used.toNat + est.toNat ≤ s.params.dcLimitMs.toNat :=
  decide_eq_true_iff

theorem satBits_toNat (n v : Nat) : (satBits n v).toNat = min v (2 ^ n - 1) := by
  have hpos := Nat.two_pow_pos n
  rw [satBits, BitVec.toNat_ofNat, Nat.mod_eq_of_lt (by omega)]

/-- A value that fits saturates to itself. -/
theorem satBits_of_toNat {n : Nat} (x : BitVec n) : satBits n x.toNat = x := by
  have hlt := x.isLt
  apply BitVec.eq_of_toNat_eq
  rw [satBits_toNat]
  omega

/-! ### DC_POLL, DC_CAN_TX and DC_CONSUME (R243, R244, R245) -/

section Rolled
variable {s : State} {u : Word} {w : DWord} (hroll : s.roll = s.setBudget u w)
include hroll

theorem execDcPoll_rolled :
    execDcPoll s = finishOk ((s.setBudget u w).setResult0 (s.setBudget u w).remaining) := by
  rw [execDcPoll, hroll]

theorem execDcCanTx_rolled :
    execDcCanTx s = finishOk (((s.setBudget u w).setResult0
      (if (s.setBudget u w).canTransmit s.arg0 then 1 else 0)).setResult1 (s.setBudget u w).remaining) := by
  rw [execDcCanTx, hroll]

theorem execDcConsume_rolled :
    execDcConsume s = finishOk ((s.setBudget (satBits 32 (u.toNat + s.arg0.toNat)) w).setResult0
      (satBits 32 (u.toNat + s.arg0.toNat))) := by
  rw [execDcConsume, hroll]
  rfl

end Rolled

/-- Settles O56: the rolled budget is all that DC_POLL writes besides RESULT0, its exact remainder. -/
theorem pollRollsAndReportsRemaining : Obligations.PollRollsAndReportsRemaining := by
  unfold Obligations.PollRollsAndReportsRemaining
  intro s
  obtain ⟨u, w, hroll, hdue, hkept⟩ := s.exists_roll_eq_setBudget
  exact ⟨_, execDcPoll_rolled hroll, rfl, hdue, hkept, (s.setBudget u w).remaining_toNat⟩

/-- Settles O57: after the roll RESULT0 is decided by `canTransmit`, which compares natural numbers. -/
theorem canTransmitComparesExactly : Obligations.CanTransmitComparesExactly := by
  unfold Obligations.CanTransmitComparesExactly
  intro s
  obtain ⟨u, w, hroll, hdue, hkept⟩ := s.exists_roll_eq_setBudget
  exact ⟨_, execDcCanTx_rolled hroll, rfl, hdue, hkept,
    fun hfits => if_pos (State.canTransmit_eq_true_iff.2 hfits),
    fun hexceeds => if_neg fun hcan => hexceeds.not_ge (State.canTransmit_eq_true_iff.1 hcan),
    (s.setBudget u w).remaining_toNat⟩

/-- Settles O58: the charge is a saturating sum onto the rolled budget, which is 0 in a new window. -/
theorem consumeChargesSaturating : Obligations.ConsumeChargesSaturating := by
  unfold Obligations.ConsumeChargesSaturating
  intro s
  obtain ⟨u, w, hroll, hdue, hkept⟩ := s.exists_roll_eq_setBudget
  refine ⟨_, execDcConsume_rolled hroll, rfl, fun helapsed => ?_, fun hrunning => ?_⟩
  · obtain ⟨rfl, hstart⟩ := hdue helapsed
    have hcharge : satBits 32 (0 + s.arg0.toNat) = s.arg0 := by rw [Nat.zero_add, satBits_of_toNat]
    exact ⟨hstart, hcharge⟩
  · obtain ⟨rfl, hstart⟩ := hkept hrunning
    exact ⟨hstart, satBits_toNat 32 (s.used.toNat + s.arg0.toNat)⟩

end Sys2Proof.Machine

/-! # Proofs of the statement on the pass window (spec/46_pass_window.md): the edge a tick takes, and PW_TICK. -/

namespace Sys2Proof.Machine

section Tick
variable {s : State}

/-! ### The one edge tested (R271, R272) -/

theorem State.wakeDue_eq_true_iff :
    s.wakeDue = true ↔ s.nextPassTime.toNat ≤ s.now.toNat + s.params.pwMarginMs.toNat :=
  decide_eq_true_iff

theorem State.passOver_eq_true_iff :
    s.passOver = true ↔ s.nextPassTime.toNat + s.params.pwDurationMs.toNat ≤ s.now.toNat :=
  decide_eq_true_iff

theorem State.passEdge_idle (hidle : s.pwState = .idle) : s.passEdge = if s.wakeDue then .wake else .stay := by
  rw [State.passEdge, hidle]

theorem State.passEdge_active (hactive : s.pwState = .active) :
    s.passEdge = if s.passOver then .sleep else .stay := by
  rw [State.passEdge, hactive]

/-! ### PW_TICK along each edge (R271) -/

theorem execPwTick_stay (hedge : s.passEdge = .stay) :
    execPwTick s = finishOk ((s.setResult0 s.pwState.toWord).setResult1 0) := by
  rw [execPwTick, hedge]
  rfl

theorem execPwTick_wake (hedge : s.passEdge = .wake) :
    execPwTick s =
      finishOk (((s.setPass .active s.nextPassTime s.lastPassTime).setResult0 1).setResult1 1) := by
  rw [execPwTick, hedge]
  rfl

theorem execPwTick_sleep (hedge : s.passEdge = .sleep) :
    execPwTick s =
      finishOk (((s.setPass .idle (satBits 64 (s.now.toNat + s.params.pwIntervalMs.toNat))
        s.nextPassTime).setResult0 0).setResult1 2) := by
  rw [execPwTick, hedge]
  rfl

end Tick

/-- Settles O59: the state and its exact comparison decide the edge, and the edge decides the next state. -/
theorem tickTakesOneEdge : Obligations.TickTakesOneEdge := by
  unfold Obligations.TickTakesOneEdge
  refine fun s => ⟨fun hidle hdue => ?_, fun hidle hearly => ?_, fun hactive hduring => ?_, fun hactive hover => ?_⟩
  · have hedge := (State.passEdge_idle hidle).trans (if_pos (State.wakeDue_eq_true_iff.2 hdue))
    exact execPwTick_wake hedge
  · have hedge := (State.passEdge_idle hidle).trans
      (if_neg fun hdue => hearly.not_ge (State.wakeDue_eq_true_iff.1 hdue))
    have htick := execPwTick_stay hedge
    rw [hidle] at htick
    exact htick
  · have hedge := (State.passEdge_active hactive).trans
      (if_neg fun hover => hduring.not_ge (State.passOver_eq_true_iff.1 hover))
    have htick := execPwTick_stay hedge
    rw [hactive] at htick
    exact htick
  · have hedge := (State.passEdge_active hactive).trans (if_pos (State.passOver_eq_true_iff.2 hover))
    exact ⟨_, execPwTick_sleep hedge, rfl, satBits_toNat 64 (s.now.toNat + s.params.pwIntervalMs.toNat)⟩

end Sys2Proof.Machine

/-! # Proofs of the statements on the exceptions (spec/60_exceptions.md): the codes a command completes with, what a
failing command commits, and the execution step. -/

namespace Sys2Proof.Machine

/-! ### The two codes that come with a counter (R35, R300) -/

theorem ErrCode.bits_eq_five_iff {c : ErrCode} : c.bits = 5 ↔ c = .queueFull := by
  cases c <;> decide

theorem ErrCode.bits_eq_six_iff {c : ErrCode} : c.bits = 6 ↔ c = .deliveryFailed := by
  cases c <;> decide

section Failure
variable {s t : State} {i : Instr}

/-! ### The codes of a command (R300) -/

/-- Every command can end without an error. -/
theorem zero_mem_errorsOf (i : Instr) : 0 ∈ errorsOf i := by
  cases i <;> exact List.mem_cons_self

/-- Every form but the three failures ends with ERR 0; DeliveryFailed is Q_RESULT's alone. -/
theorem Effect.err_mem_errorsOf (h : Effect s i t) : t.err ∈ errorsOf i := by
  cases h with
  | fails c raised => exact raised
  | full raised => exact raised
  | dropped r isResult =>
    subst isResult
    simp [errorsOf, ErrCode.bits]
  | _ => exact zero_mem_errorsOf i

/-! ### What a failing command commits (R302) -/

/-- `raise` commits STATUS alone over the state its path left. -/
theorem State.complete_false_eq_failed (c : ErrCode) (s : State) : s.complete c false = s.failed c.bits := rfl

/-- Before its `raise` a path performs no write but QueueFull's counter, or DeliveryFailed's with the release of
HOLD. -/
theorem Effect.failure_cases (h : Effect s i t) (herr : t.err ≠ 0) :
    (t.err ≠ 5 ∧ t.err ≠ 6 ∧ t = s.failed t.err) ∨ t = s.countQfull.failed 5 ∨
      t = s.releaseHold.countDfail.failed 6 := by
  cases h with
  | fails c _ _ notFull notDropped =>
    have hnotFive : c.bits ≠ 5 := mt ErrCode.bits_eq_five_iff.1 notFull
    have hnotSix : c.bits ≠ 6 := mt ErrCode.bits_eq_six_iff.1 notDropped
    exact .inl ⟨hnotFive, hnotSix, s.complete_false_eq_failed c⟩
  | full => exact .inr (.inl (State.complete_false_eq_failed _ _))
  | dropped => exact .inr (.inr (State.complete_false_eq_failed _ _))
  | _ => exact absurd rfl herr

end Failure

/-- Settles O14: `Effect.failure_cases`, its two counted failures written out field by field. -/
theorem failedCommandCommitsOnlyStatus : Obligations.FailedCommandCommitsOnlyStatus := by
  unfold Obligations.FailedCommandCommitsOnlyStatus
  exact fun i s t hexec herr => (exec_effect hexec).failure_cases herr

/-- Settles O15: each form of `Effect` carries a code of its command's row. -/
theorem commandsRaiseOnlyTheirErrors : Obligations.CommandsRaiseOnlyTheirErrors := by
  unfold Obligations.CommandsRaiseOnlyTheirErrors
  exact fun i s t hexec => (exec_effect hexec).err_mem_errorsOf

/-! ### The execution step (R301) -/

/-- Settles O5: on the pending word's turn the step runs it, and running a word that decodes is `exec`. -/
theorem stepRunsDecodedCommand : Obligations.StepRunsDecodedCommand := by
  unfold Obligations.StepRunsDecodedCommand
  intro s w i hturn hdecode
  calc step s = runCommand w s := step_of_aboutToExecute hturn
    _ = exec i s := runCommand_of_decode hdecode s

end Sys2Proof.Machine

/-! # Proofs of the statements on reset and hazards (spec/70_reset_and_hazards.md): the power-on state, the targets a
host write reaches, and the writes that are dropped or ignored. -/

namespace Sys2Proof.Machine

/-! ### The power-on state (R330) -/

/-- Settles O9: `State.reset` is the power-on state with the default parameters. -/
theorem powerOnStateMeetsInvariant : Obligations.PowerOnStateMeetsInvariant := by
  unfold Obligations.PowerOnStateMeetsInvariant
  exact ⟨State.powerOn_inv Config.defaultParams 0 [] 0, State.powerOn_inv⟩

/-! ### Where the targets of host writes stand (R23, R61) -/

/-- The registers that take a host write while BUSY too (R336, R337). -/
def Reg.takenBusy : List Reg := [.ctrl, .status]

/-- The registers that take a host write only while idle: CMD, NOW and the ARG registers (R27, R30, R31). -/
def Reg.takenIdle : List Reg := .cmd :: Reg.storable

/-- Entry by entry of the map: the entry's register is none of these, or its offset is one of the two. -/
theorem regAt_takenBusy {a : Nat} {r : Reg} (h : regAt a = some r) (hr : r ∈ Reg.takenBusy) :
    a = 0x004 ∨ a = 0x008 := by
  unfold regAt at h
  split at h <;> cases h <;> revert hr <;> decide

/-- Entry by entry of the map, as for `regAt_takenBusy`. -/
theorem regAt_takenIdle {a : Nat} {r : Reg} (h : regAt a = some r) (hr : r ∈ Reg.takenIdle) :
    a = 0x00C ∨ 0x028 ≤ a ∧ a < 0x040 := by
  unfold regAt at h
  split at h <;> cases h <;> revert hr <;> decide

/-- A register target is the map's register at the aligned offset. -/
theorem regAt_of_target {off : BitVec 12} {r : Reg} (h : target off = .reg r) :
    regAt (off.toNat / 4 * 4) = some r := by
  rw [target, wordOffset_eq] at h
  split at h
  · cases h
  · split at h
    · cases h
    · split at h
      · cases h
        assumption
      · cases h

theorem offset_of_target_bufIn {off : BitVec 12} {a : Nat} (h : target off = .bufIn a) :
    0x400 ≤ off.toNat ∧ off.toNat < 0x500 := by
  rw [target, wordOffset_eq] at h
  split at h
  · cases h
  · split at h
    · next hin =>
      obtain ⟨hlo, hhi⟩ : 0x400 ≤ off.toNat / 4 * 4 ∧ off.toNat / 4 * 4 < 0x400 + 0x100 := hin
      omega
    · split at h <;> cases h

theorem target_ne_takenBusy {off : BitVec 12} (hoff : off.toNat < 0x004 ∨ 0x00C ≤ off.toNat) {r : Reg}
    (hr : r ∈ Reg.takenBusy) : target off ≠ .reg r := by
  intro h
  have hword := regAt_takenBusy (regAt_of_target h) hr
  omega

/-! ### Dropped writes (R336) -/

/-- A busy block drops a write to any target but CTRL and STATUS and sets OVR. -/
theorem State.busWrite_busy {off : BitVec 12} {s : State} (hctrl : target off ≠ .reg .ctrl)
    (hstatus : target off ≠ .reg .status) (hbusy : s.pending ≠ none) (v : Word) : s.busWrite off v = s.setOvr := by
  unfold State.busWrite
  split
  · exact absurd ‹_› hctrl
  · exact absurd ‹_› hstatus
  · exact if_pos (Option.isSome_iff_ne_none.2 hbusy)

/-! ### Ignored writes (R64, R65, R336) -/

/-- The targets that store something of a write taken while idle. -/
def Target.storesIdle : Target → Prop
  | .reg r => r ∈ Reg.takenIdle
  | .bufIn _ => True
  | .bufOut _ => False
  | .unmapped => False

/-- Every other target ignores the write. -/
theorem State.writeIdle_ignored {t : Target} (h : ¬ t.storesIdle) (v : Word) (s : State) : s.writeIdle t v = s := by
  unfold State.writeIdle
  split
  case h_8 => exact absurd trivial h
  case h_9 => rfl
  all_goals exact absurd (by decide : _ ∈ Reg.takenIdle) h

/-- The byte offsets of CMD, of NOW and the ARG registers, and of BUF_IN (R23). -/
theorem offset_of_storesIdle {off : BitVec 12} (h : (target off).storesIdle) :
    0x00C ≤ off.toNat ∧ off.toNat < 0x010 ∨ 0x028 ≤ off.toNat ∧ off.toNat < 0x040 ∨
      0x400 ≤ off.toNat ∧ off.toNat < 0x500 := by
  cases htarget : target off with
  | reg r =>
    rw [htarget] at h
    have hword := regAt_takenIdle (regAt_of_target htarget) h
    omega
  | bufIn a => exact .inr (.inr (offset_of_target_bufIn htarget))
  | bufOut a => rw [htarget] at h; exact h.elim
  | unmapped => rw [htarget] at h; exact h.elim

/-- Read-only and unmapped offsets avoid CTRL and STATUS and every target that stores a write (R23, R64). -/
theorem ignoredOffset_target {off : BitVec 12} (h : unmappedOffsets off.toNat ∨ readOnlyOffsets off.toNat) :
    (off.toNat < 0x004 ∨ 0x00C ≤ off.toNat) ∧ ¬ (target off).storesIdle := by
  unfold unmappedOffsets readOnlyOffsets at h
  refine ⟨by omega, fun hstores => ?_⟩
  have hrange := offset_of_storesIdle hstores
  omega

/-- Settles O20: both clauses' offsets avoid CTRL and STATUS; a busy block answers with `setOvr`, and an idle one takes
the write through `writeIdle`, whose arm for such a target is the identity. -/
theorem writeWhileBusyIsDropped : Obligations.WriteWhileBusyIsDropped := by
  unfold Obligations.WriteWhileBusyIsDropped
  intro s off v rest hwrite
  refine ⟨fun hbusy hoff => ?_, fun hidle hignored => ?_⟩
  · have hbusy' : (s.setInbox rest).pending ≠ none := hbusy
    rw [step_of_aboutToWrite hwrite, State.busWrite_busy (target_ne_takenBusy hoff (by decide))
      (target_ne_takenBusy hoff (by decide)) hbusy']
    rfl
  · obtain ⟨hoff, hstores⟩ := ignoredOffset_target hignored
    rw [step_of_idleWrite hwrite hidle (target_ne_takenBusy hoff (by decide)) (target_ne_takenBusy hoff (by decide)),
      State.writeIdle_ignored hstores]
    rfl

end Sys2Proof.Machine
